-- ==== Sys2Proof/Word.lean ====
section
/-! DEFINITION. The word and byte types of 00_scope.md R7: a word is an unsigned 32-bit value, a byte an unsigned
8-bit value. Addition and subtraction of `BitVec` are R8's wrapping `+32` and `-32`. -/

namespace Sys2Proof

/-- A word of 00_scope.md R7: bits 31 (most significant) down to 0. -/
abbrev Word := BitVec 32

/-- A byte of 00_scope.md R7. -/
abbrev Byte := BitVec 8

end Sys2Proof
end

