-- ==== Sys2Proof/Syntax.lean ====
section
/-! DEFINITION. The ten commands of 30_encoding.md R92, one constructor per row of spec/opcode_table.json. No command
carries an operand in its word (R93): the length flag `L` is what tells PACK from PACKL and UNPACK from UNPACKL. -/

namespace Sys2Proof

/-- A legal command (30_encoding.md R92). -/
inductive Instr where
  /-- NOP, 44_facade_commands.md R235. -/
  | nop
  /-- KEYLD, 41_key_loader.md R151. -/
  | keyld
  /-- PACK, 40_word_packer.md R121. -/
  | pack
  /-- PACKL, 40_word_packer.md R125. -/
  | packl
  /-- UNPACK, 40_word_packer.md R130. -/
  | unpack
  /-- UNPACKL, 40_word_packer.md R134. -/
  | unpackl
  /-- ENCW, 43_cipher_engine.md R183. -/
  | encw
  /-- DECW, 43_cipher_engine.md R195. -/
  | decw
  /-- ENCRYPT, 44_facade_commands.md R221. -/
  | encrypt
  /-- DECRYPT, 44_facade_commands.md R225. -/
  | decrypt
  deriving DecidableEq, Repr

end Sys2Proof
end

