-- ==== Sys2Proof/WellFormed.lean ====
section
/-! DEFINITION. The fields of format C (30_encoding.md R90) and the three checks that make them a legal command
(R92): reserved bits zero, an operation code below 8, the length flag only with PACK's and UNPACK's code. -/

namespace Sys2Proof

/-- A 32-bit command word cut into the three fields of 30_encoding.md R90. -/
structure FormatC where
  /-- Bits 31:5, reserved. -/
  rsv : BitVec 27
  /-- Bit 4, the length flag. -/
  lenFlag : BitVec 1
  /-- Bits 3:0, the operation code. -/
  op : BitVec 4
  deriving DecidableEq, Repr

/-- The reserved bits are zero (30_encoding.md R90). -/
def FormatC.rsvZero (f : FormatC) : Bool := f.rsv == 0

/-- The operation code is one of the eight that R92 lists. -/
def FormatC.opListed (f : FormatC) : Bool := decide (f.op.toNat < 8)

/-- The length flag is set only with `OP` 2 (PACK) or 3 (UNPACK) (30_encoding.md R90, R92). -/
def FormatC.lenFlagAllowed (f : FormatC) : Bool := f.lenFlag == 0 || f.op == 2 || f.op == 3

/-- A legal command word's fields (30_encoding.md R92). -/
def FormatC.wf (f : FormatC) : Bool := f.rsvZero && f.opListed && f.lenFlagAllowed

/-- The fields that 30_encoding.md R92 gives each command. -/
def Instr.fields : Instr → FormatC
  | .nop     => ⟨0, 0, 0x0⟩
  | .keyld   => ⟨0, 0, 0x1⟩
  | .pack    => ⟨0, 0, 0x2⟩
  | .packl   => ⟨0, 1, 0x2⟩
  | .unpack  => ⟨0, 0, 0x3⟩
  | .unpackl => ⟨0, 1, 0x3⟩
  | .encw    => ⟨0, 0, 0x4⟩
  | .decw    => ⟨0, 0, 0x5⟩
  | .encrypt => ⟨0, 0, 0x6⟩
  | .decrypt => ⟨0, 0, 0x7⟩

/-- A command is well formed when its fields are. -/
def Instr.wf (i : Instr) : Bool := i.fields.wf

end Sys2Proof
end

