-- ==== Sys2Proof/Decode.lean ====
section
/-! DEFINITION. Decoding a command word (30_encoding.md R92, R95), total on 32-bit words and rejecting by name, and
after it the encoder. A command is one 32-bit value written to `CMD`; it lies in no byte memory, so it has no byte
order (R90, 10_state.md R28). -/

namespace Sys2Proof

/-- Why a word is no legal command (30_encoding.md R95). The core ends every such command with `ILLCMD`. -/
inductive DecodeError where
  /-- A bit of 31:5 is set. -/
  | reservedBits
  /-- `OP` is 8 to 15. -/
  | opcode
  /-- `L` is 1 and `OP` is neither 2 nor 3. -/
  | lengthFlag
  deriving DecidableEq, Repr

/-- Cut a word into the fields of format C (30_encoding.md R90). -/
def fieldsOfWord (w : Word) : FormatC where
  rsv := w.extractLsb' 5 27
  lenFlag := w.extractLsb' 4 1
  op := w.extractLsb' 0 4

/-- Put the fields of format C together (30_encoding.md R90). -/
def wordOfFields (f : FormatC) : Word := f.rsv ++ f.lenFlag ++ f.op

/-- The command with a given `OP` and `L`, for fields that passed the checks (30_encoding.md R92). -/
def commandOf (op : Nat) (lenFlag : Bool) : Option Instr :=
  match op, lenFlag with
  | 0, false => some .nop
  | 1, false => some .keyld
  | 2, false => some .pack
  | 2, true  => some .packl
  | 3, false => some .unpack
  | 3, true  => some .unpackl
  | 4, false => some .encw
  | 5, false => some .decw
  | 6, false => some .encrypt
  | 7, false => some .decrypt
  | _, _     => none

/-- The decoder of 30_encoding.md R92, a total function of the 32-bit word. -/
def decode (w : Word) : Except DecodeError Instr :=
  let f := fieldsOfWord w
  if f.rsvZero = false then .error .reservedBits
  else if f.opListed = false then .error .opcode
  else
    match commandOf f.op.toNat (f.lenFlag == 1) with
    | some i => .ok i
    | none   => .error .lengthFlag

/-- The word of a command (30_encoding.md R92). -/
def encode (i : Instr) : Word := wordOfFields i.fields

/-- The command that a row of spec/opcode_table.json stands for: `w` holds its `nbits` bits, bit 0 the least
significant. A command is one word, so more than 32 bits are no command. -/
def decodeTableWord (nbits w : Nat) : Option Instr :=
  if nbits ≤ 32 then
    match decode (BitVec.ofNat 32 (w % 2 ^ nbits)) with
    | .ok i    => some i
    | .error _ => none
  else none

end Sys2Proof
end

