-- ==== Sys2Proof/Config.lean ====
section
/-! DEFINITION. What an implementation fixes (the open parameter `MAXW`, 00_scope.md R6) and the free values that
10_state.md R50 leaves unspecified. Each is opaque: nothing in Lean can evaluate one or prove a value of it. The first
argument of a free value counts the resets so far, so that a second reset draws afresh. -/

namespace Sys2Proof

/-- How far `MAXW` lies above its least value 2; any of the `2^30 - 2` values the range of R6 has. -/
opaque Config.maxwAboveTwo : Fin 1073741822

/-- `MAXW`, the capacity of `V` in words: OPEN, `2 ≤ MAXW ≤ 2^30 - 1` (00_scope.md R6, 92_eei_decisions.md D4). -/
def Config.maxw : Nat := Config.maxwAboveTwo.val + 2

/-- `MAXW` lies in the range 00_scope.md R6 gives it. -/
theorem Config.maxw_range : 2 ≤ Config.maxw ∧ Config.maxw ≤ 2 ^ 30 - 1 := by
  have h := Config.maxwAboveTwo.isLt
  unfold Config.maxw
  omega

/-- `MAXW` fits the 32-bit register `CAP`. -/
theorem Config.maxw_lt : Config.maxw < 2 ^ 32 := by
  have h := Config.maxw_range
  omega

/-- The unspecified value of `K[j]` after a reset (10_state.md R50, 93_implementation_defined.md U7). -/
opaque Config.resetK : Nat → Fin 4 → Word

/-- The unspecified value of `Y` after a reset (10_state.md R50). -/
opaque Config.resetY : Nat → Word

/-- The unspecified value of `Z` after a reset (10_state.md R50). -/
opaque Config.resetZ : Nat → Word

/-- The unspecified content of cell `i` of `BUF` until something writes it (10_state.md R50). -/
opaque Config.unwrittenBuf : Nat → Nat → Byte

/-- The unspecified content of cell `i` of `KBUF` until something writes it (10_state.md R50). -/
opaque Config.unwrittenKbuf : Nat → Nat → Byte

/-- The unspecified content of cell `i` of `V` until something writes it (10_state.md R50). -/
opaque Config.unwrittenV : Nat → Nat → Word

end Sys2Proof
end

