-- ==== Sys2Proof/Machine/State.lean ====
section
/-! DEFINITION. The state of one XXTEA-CORE, the tuple of 10_state.md R20, as plain data; the result codes; the
reasons a step can stop; and the state after reset (10_state.md R50). -/

namespace Sys2Proof.Machine

/-- A memory space of 10_state.md R38 as the list of the cells written since reset, addresses strictly rising. A cell
that is not listed has not been written and holds a free value of `Config` (93_implementation_defined.md U7). -/
abbrev Memory (α : Type) := List (Nat × α)

/-- The form every memory operation keeps: addresses strictly rising, so equal contents are equal lists. -/
def Memory.wf {α : Type} : Memory α → Bool
  | [] => true
  | c :: m => m.all (fun d => decide (c.1 < d.1)) && Memory.wf m

/-- No listed cell lies at or above `n`, the number of cells of the space. -/
def Memory.below {α : Type} (m : Memory α) (n : Nat) : Bool := m.all (fun c => decide (c.1 < n))

/-- The key register file `K[0]` to `K[3]` (10_state.md R37). -/
structure KeyFile where
  k0 : Word
  k1 : Word
  k2 : Word
  k3 : Word
  deriving DecidableEq, Repr

/-- The result codes of 60_exceptions.md R260. -/
inductive ErrCode where
  | ok
  | corrupt
  | shape
  | capacity
  | zerolen
  | illcmd
  deriving DecidableEq, Repr

/-- The three places of the engine's step-level schedule (43_cipher_engine.md R205). -/
inductive EnginePhase where
  /-- `E_INIT` -/
  | load
  /-- `E_ROUND` -/
  | round
  /-- `E_WORD` -/
  | word
  deriving DecidableEq, Repr

/-- The sequencer state `PHASE` (10_state.md R45). -/
inductive Phase where
  /-- `IDLE` -/
  | idle
  /-- `RUN`: a command is issued and runs as a whole. -/
  | run
  /-- `E_INIT`, `E_ROUND`, `E_WORD` of an `ENCW` or `DECW` (43_cipher_engine.md R205). -/
  | engine (e : EnginePhase)
  /-- `F_CHECK` (44_facade_commands.md R230). -/
  | fCheck
  /-- `F_KEY` (44_facade_commands.md R230). -/
  | fKey
  /-- `F_PACK` (44_facade_commands.md R230). -/
  | fPack
  /-- `F_ENGINE`, with the engine's own phase inside it (44_facade_commands.md R230). -/
  | fEngine (e : EnginePhase)
  /-- `F_UNPACK` (44_facade_commands.md R230). -/
  | fUnpack
  deriving DecidableEq, Repr

/-- The whole state of one block (10_state.md R20), and `resets`, the model's own counter of the resets before, which
indexes the free values of R50. -/
structure State where
  /-- `SUM`, 10_state.md R21. -/
  sum : Word
  /-- `Y`, 10_state.md R22. -/
  y : Word
  /-- `Z`, 10_state.md R23. -/
  z : Word
  /-- `P`, host name `POS`, 10_state.md R24. -/
  p : Word
  /-- `RND`, 10_state.md R25. -/
  rnd : Word
  /-- `K[0]` to `K[3]`, 10_state.md R37. -/
  k : KeyFile
  /-- `CMD`, 10_state.md R30. -/
  cmd : Word
  /-- `STATUS`, 10_state.md R31. -/
  status : Word
  /-- `BLEN`, 10_state.md R32. -/
  blen : Word
  /-- `WLEN`, 10_state.md R33. -/
  wlen : Word
  /-- `KLEN`, 10_state.md R34. -/
  klen : Word
  /-- `CAP`, which holds the parameter `MAXW`, 10_state.md R35. -/
  cap : Word
  /-- `BUF`, 10_state.md R38: a list of `Host.Cell`. -/
  buf : Memory Byte
  /-- `V`, 10_state.md R38: word cells. -/
  v : Memory Word
  /-- `KBUF`, 10_state.md R38: a list of `Host.Cell`. -/
  kbuf : Memory Byte
  /-- `PHASE`, 10_state.md R45. -/
  phase : Phase
  /-- The model's own: how many resets came before this one (DESIGN CHOICE, log 6). -/
  resets : Nat
  deriving DecidableEq, Repr

/-- Why the model stops with a fault. No hardware fault stops this block (93_implementation_defined.md). -/
inductive Fault where
  /-- Raised by the step-level machine in a state whose `PHASE` is no place in the schedule of the command that `CMD`
  holds (43_cipher_engine.md R205, 44_facade_commands.md R230). No run reaches such a state. Safe: the model stops. -/
  | noTransition
  deriving DecidableEq, Repr

/-- Why the model gives an action no meaning. -/
inductive Refusal where
  /-- Raised by an arm of `exec` for an instruction with no meaning yet. Safe. -/
  | notModelled (mnemonic : String)
  /-- Raised by a host access other than a read of `STATUS` and a write of `CMD` while `BUSY` = 1
  (70_reset_and_hazards.md R300, 93_implementation_defined.md U1). Safe: the spec gives it no meaning. -/
  | accessWhileBusy
  /-- Raised by a host write of `CMD` while `BUSY` = 1 (30_encoding.md R91, 93_implementation_defined.md U2). Safe. -/
  | commandWhileBusy
  /-- Raised by a host access to a register number that names no register (45_host_access.md R247, U5). Safe. -/
  | reservedRegister (number : Nat)
  /-- Raised by a host access to a cell outside its space (45_host_access.md R248, U6). Safe. -/
  | indexOutOfRange (index : Nat)
  deriving DecidableEq, Repr

/-- The state a reset leaves when `n` resets came before it (10_state.md R50, 70_reset_and_hazards.md R290): control
state zero, `CAP` = `MAXW`, `PHASE` idle; `Y`, `Z`, `K` and the memories unspecified. -/
def State.afterReset (n : Nat) : State where
  sum := 0
  y := Config.resetY n
  z := Config.resetZ n
  p := 0
  rnd := 0
  k := ⟨Config.resetK n 0, Config.resetK n 1, Config.resetK n 2, Config.resetK n 3⟩
  cmd := 0
  status := 0
  blen := 0
  wlen := 0
  klen := 0
  cap := BitVec.ofNatLT Config.maxw Config.maxw_lt
  buf := []
  v := []
  kbuf := []
  phase := .idle
  resets := n

/-- The machine right after (the first) reset (10_state.md R50). -/
def State.reset : State := State.afterReset 0

end Sys2Proof.Machine
end

