-- ==== Sys2Proof/Machine/Flags.lean ====
section
/-! DEFINITION. The fields of `STATUS` (10_state.md R31), the only flags the block has, and the codes of
60_exceptions.md R260. No arithmetic operation writes a flag (42_mixing_function.md R172). -/

namespace Sys2Proof.Machine

/-- The numeric value of a result code (60_exceptions.md R260). -/
def errNumber : ErrCode → BitVec 4
  | .ok       => 0
  | .corrupt  => 1
  | .shape    => 2
  | .capacity => 3
  | .zerolen  => 4
  | .illcmd   => 5

/-- `STATUS` with the given `ERR`, `DONE` and `BUSY`, reserved bits 31:8 and 3:2 zero (10_state.md R31). -/
def statusWord (err : BitVec 4) (done busy : Bool) : Word :=
  (0 : BitVec 24) ++ err ++ (0 : BitVec 2) ++ BitVec.ofBool done ++ BitVec.ofBool busy

/-- The bits of `STATUS` that are not reserved (10_state.md R31). -/
def statusMask : Word := 0x000000F3

/-- `STATUS` as software reads it: reserved bits read as 0 (10_state.md R31). -/
def readStatus (s : State) : Word := s.status &&& statusMask

/-- `STATUS.BUSY`, bit 0 (10_state.md R31). -/
def busy (s : State) : Bool := s.status.getLsbD 0

/-- `STATUS.DONE`, bit 1 (10_state.md R31). -/
def done (s : State) : Bool := s.status.getLsbD 1

/-- `STATUS.ERR`, bits 7:4 (10_state.md R31). -/
def errField (s : State) : BitVec 4 := s.status.extractLsb' 4 4

/-- `STATUS` from the issue of a command: `BUSY` 1, `DONE` 0, `ERR` 0 (10_state.md R31, 30_encoding.md R91). -/
def issuedStatus : Word := statusWord 0 false true

/-- `STATUS` from the completion of a command: `BUSY` 0, `DONE` 1, `ERR` its code (10_state.md R31). -/
def completedStatus (e : ErrCode) : Word := statusWord (errNumber e) true false

end Sys2Proof.Machine
end

