-- ==== Sys2Proof/Machine/Ops.lean ====
section
/-! DEFINITION. The named operations over memory and registers, the loops of the pseudocode, issue and completion
of a command, and taking an error (60_exceptions.md R262), the block's one form of exception. There is no return from
an exception: control goes nowhere and the next issue clears `ERR` (R273). -/

namespace Sys2Proof.Machine

/-- The content of cell `a` if something has written it. -/
def Memory.cell? {α : Type} : Memory α → Nat → Option α
  | [], _ => none
  | (b, x) :: m, a => if a = b then some x else Memory.cell? m a

/-- Write cell `a`, keeping the addresses strictly rising (00_scope.md R9 `MemWrite`). -/
def Memory.store {α : Type} : Memory α → Nat → α → Memory α
  | [], a, x => [(a, x)]
  | (b, y) :: m, a, x =>
    if a < b then (a, x) :: (b, y) :: m
    else if a = b then (a, x) :: m
    else (b, y) :: Memory.store m a x

/-- `BUF[i]` (00_scope.md R9); a cell not written since reset holds a free value (10_state.md R50). -/
def bufAt (s : State) (i : Nat) : Byte := (Memory.cell? s.buf i).getD (Config.unwrittenBuf s.resets i)

/-- `KBUF[i]` (00_scope.md R9); a cell not written since reset holds a free value (10_state.md R50). -/
def kbufAt (s : State) (i : Nat) : Byte := (Memory.cell? s.kbuf i).getD (Config.unwrittenKbuf s.resets i)

/-- `V[i]` (00_scope.md R9); a cell not written since reset holds a free value (10_state.md R50). -/
def vAt (s : State) (i : Nat) : Word := (Memory.cell? s.v i).getD (Config.unwrittenV s.resets i)

/-- `BUF[i] <- b`: only that cell changes (00_scope.md R9, 10_state.md R39). -/
def setBuf (i : Nat) (b : Byte) (s : State) : State := { s with buf := Memory.store s.buf i b }

/-- `KBUF[i] <- b`: only that cell changes (00_scope.md R9, 10_state.md R39). -/
def setKbuf (i : Nat) (b : Byte) (s : State) : State := { s with kbuf := Memory.store s.kbuf i b }

/-- `V[i] <- w`: only that cell changes (00_scope.md R9, 10_state.md R39). -/
def setV (i : Nat) (w : Word) (s : State) : State := { s with v := Memory.store s.v i w }

/-- Read `K[j]` (00_scope.md R9). -/
def KeyFile.get (k : KeyFile) (j : Fin 4) : Word :=
  match j with
  | 0 => k.k0
  | 1 => k.k1
  | 2 => k.k2
  | 3 => k.k3

/-- `K` after `K[j] <- w` (00_scope.md R9). -/
def KeyFile.set (k : KeyFile) (j : Fin 4) (w : Word) : KeyFile :=
  match j with
  | 0 => { k with k0 := w }
  | 1 => { k with k1 := w }
  | 2 => { k with k2 := w }
  | 3 => { k with k3 := w }

/-- `K[j] <- w` (00_scope.md R9). -/
def setK (j : Fin 4) (w : Word) (s : State) : State := { s with k := s.k.set j w }

/-- `for i in 0 .. n-1: body i`, in rising order. -/
def forUp {σ : Type} (body : Nat → σ → σ) : Nat → σ → σ
  | 0, s => s
  | n + 1, s => body n (forUp body n s)

/-- `for i in n-1 .. 0: body i`, in falling order. -/
def forDown {σ : Type} (body : Nat → σ → σ) : Nat → σ → σ
  | 0, s => s
  | n + 1, s => forDown body n (body n s)

/-- Issue of the command word `w` (30_encoding.md R91): `CMD <- w`, `BUSY <- 1`, `DONE <- 0`, `ERR <- 0`,
`PHASE <- RUN`. -/
def issue (w : Word) (s : State) : State := { s with cmd := w, status := issuedStatus, phase := .run }

/-- Completion of a command with a result code (30_encoding.md R91, 10_state.md R31): `BUSY <- 0`, `DONE <- 1`,
`ERR <-` the code, `PHASE <- IDLE`. -/
def complete (e : ErrCode) (s : State) : State := { s with status := completedStatus e, phase := .idle }

/-- Taking an error (60_exceptions.md R262): the command completes with the error's code and the rest of it is not
done; nothing is saved, no mode changes, control goes nowhere. -/
def raise (e : ErrCode) (s : State) : State := complete e s

/-- A reset from outside the block, idle or busy (70_reset_and_hazards.md R290, R291). -/
def resetEvent (s : State) : State := State.afterReset (s.resets + 1)

/-- Do `f` after an action that answered a next state; a stop stays a stop. -/
def andThen {α β : Type} (r : Host.Outcome α Fault Refusal) (f : α → Host.Outcome β Fault Refusal) :
    Host.Outcome β Fault Refusal :=
  match r with
  | .next a    => f a
  | .fault e   => .fault e
  | .refused e => .refused e

end Sys2Proof.Machine
end

