-- ==== Sys2Proof/Machine/Operands.lean ====
section
/-! DEFINITION. The implicit operands of the commands (30_encoding.md R94): lengths, byte lanes (20_memory.md R65),
ring neighbours (R66) and the bound on the embedded length (40_word_packer.md R135). Lengths are computed over the
natural numbers or the integers (00_scope.md R7), never modulo `2^32`. -/

namespace Sys2Proof.Machine

/-- `ceil(nb / 4)`, the words that `nb` bytes take (40_word_packer.md R122). -/
def wordCount (nb : Nat) : Nat := (nb + 3) / 4

/-- `nw` of the packer: `ceil(BLEN / 4)` (40_word_packer.md R122). -/
def dataWords (s : State) : Nat := wordCount s.blen.toNat

/-- `kl` of the key loader: `min(KLEN, 16)` (41_key_loader.md R151). -/
def keyBytes (s : State) : Nat := min s.klen.toNat 16

/-- The bit offset `(i & 3) * 8` of byte `i` in its word (20_memory.md R65). -/
def laneShift (i : Nat) : Nat := (i % 4) * 8

/-- Insertion of 20_memory.md R65: `w | (zext_32(b) << ((i & 3) * 8))`. -/
def insertLane (w : Word) (i : Nat) (b : Byte) : Word := w ||| (b.setWidth 32 <<< laneShift i)

/-- Extraction of 20_memory.md R65: `(w >>> ((i & 3) * 8)) & 0xFF`. -/
def extractLane (w : Word) (i : Nat) : Byte := ((w >>> laneShift i) &&& 0xFF).setWidth 8

/-- The index after `p` on a ring of `len` words (20_memory.md R66). -/
def ringNext (len p : Nat) : Nat := (p + 1) % len

/-- The index before `p` on a ring of `len` words (20_memory.md R66). -/
def ringPrev (len p : Nat) : Nat := (p + len - 1) % len

/-- `nb = 4 * (WLEN - 1)`, the bytes before the length word (40_word_packer.md R135), for `WLEN ≥ 1`. -/
def bytesBeforeLength (s : State) : Nat := 4 * (s.wlen.toNat - 1)

/-- `m`, the embedded length: the trailing word of the array (40_word_packer.md R134). -/
def embeddedLength (s : State) : Nat := (vAt s (s.wlen.toNat - 1)).toNat

/-- The bound `nb - 3 ≤ m ≤ nb` over the integers (40_word_packer.md R135, R136). -/
def lengthAccepted (nb m : Nat) : Bool := decide ((nb : Int) - 3 ≤ (m : Int) ∧ (m : Int) ≤ (nb : Int))

end Sys2Proof.Machine
end

