-- ==== Sys2Proof/Machine/Mixing.lean ====
section
/-! DEFINITION. The mixing function `MX` (42_mixing_function.md), the round constant and the round count
(43_cipher_engine.md R181, R182). Pure functions: no state, no error, no flag (R160). -/

namespace Sys2Proof.Machine

/-- `DELTA` (43_cipher_engine.md R181). -/
def delta : Word := 0x9E3779B9

/-- `q = 6 + floor(52 / len)` (43_cipher_engine.md R182), for `len ≥ 1`. -/
def roundCount (len : Nat) : Nat := 6 + 52 / len

/-- `E = (SUM >>> 2) & 3`, bits 3:2 of `SUM` (10_state.md R26, 42_mixing_function.md R169). -/
def roundIndex (sum : Word) : BitVec 2 := (sum >>> 2).setWidth 2

/-- `idx = (p & 3) ^ e` (42_mixing_function.md R168). -/
def keyIndex (p : Word) (e : BitVec 2) : Fin 4 := (p.setWidth 2 ^^^ e).toFin

/-- `MX(s, y, z, p, e, K)` with the named intermediate words of 42_mixing_function.md R165. -/
def mx (s y z p : Word) (e : BitVec 2) (k : KeyFile) : Word :=
  let t1 := (z >>> 5) ^^^ (y <<< 2)
  let t2 := (y >>> 3) ^^^ (z <<< 4)
  let t3 := s ^^^ y
  let t4 := k.get (keyIndex p e) ^^^ z
  let a := t1 + t2
  let b := t3 + t4
  a ^^^ b

end Sys2Proof.Machine
end

