-- ==== Sys2Proof/Machine/Engine.lean ====
section
/-! DEFINITION. The cipher engine: `ENCW` and `DECW` as big-step rules (43_cipher_engine.md R183, R195). Each word
update reads what the update before it wrote (20_memory.md R70). -/

namespace Sys2Proof.Machine

/-- The `MX` of a word update: its inputs are `SUM`, `Y`, `Z`, `P`, `E` of the current `SUM`, and `K` (R180). -/
def engineMx (s : State) : Word := mx s.sum s.y s.z s.p (roundIndex s.sum) s.k

/-- The word update of `ENCW` at position `p` (R183): `Y <- V[(P+1) mod len]`, `V[P] <- V[P] +32 MX`,
`Z <- V[P]`, the value just written. -/
def encUpdate (p : Nat) (s : State) : State :=
  let s := { s with p := BitVec.ofNat 32 p, y := vAt s (ringNext s.wlen.toNat p) }
  let w := vAt s p + engineMx s
  { setV p w s with z := w }

/-- One round of `ENCW` (R183): `SUM` advances, the ring pass `P` = 0 .. n, `RND` counts down. -/
def encRound (s : State) : State :=
  let s := forUp encUpdate s.wlen.toNat { s with sum := s.sum + delta }
  { s with rnd := s.rnd - 1 }

/-- The loads before the first round of `ENCW` (R183, R184): `RND <- q`, `SUM <- 0`, `Z <- V[n]`. -/
def encLoad (s : State) : State :=
  { s with rnd := BitVec.ofNat 32 (roundCount s.wlen.toNat), sum := 0, z := vAt s (s.wlen.toNat - 1) }

/-- The body of `ENCW` (R183): `q` rounds, until `RND` is 0. -/
def encBody (s : State) : State := forUp (fun _ t => encRound t) (roundCount s.wlen.toNat) (encLoad s)

/-- The word update of `DECW` at position `p` (R195): `Z <- V[(P-1) mod len]`, `V[P] <- V[P] -32 MX`,
`Y <- V[P]`, the value just written. -/
def decUpdate (p : Nat) (s : State) : State :=
  let s := { s with p := BitVec.ofNat 32 p, z := vAt s (ringPrev s.wlen.toNat p) }
  let w := vAt s p - engineMx s
  { setV p w s with y := w }

/-- One round of `DECW` (R195, R198): the ring pass `P` = n .. 0, then `SUM` moves back and `RND` counts down. -/
def decRound (s : State) : State :=
  let s := forDown decUpdate s.wlen.toNat s
  { s with sum := s.sum - delta, rnd := s.rnd - 1 }

/-- The loads before the first round of `DECW` (R195, R196): `RND <- q`, `SUM <- (RND * DELTA) mod 2^32`,
`Y <- V[0]`. -/
def decLoad (s : State) : State :=
  let q : Word := BitVec.ofNat 32 (roundCount s.wlen.toNat)
  { s with rnd := q, sum := q * delta, y := vAt s 0 }

/-- The body of `DECW` (R195): `q` rounds, until `RND` is 0. -/
def decBody (s : State) : State := forUp (fun _ t => decRound t) (roundCount s.wlen.toNat) (decLoad s)

/-- `ENCW` (43_cipher_engine.md R183, R187): `ZEROLEN`, then `CAPACITY`. -/
def execEncw (s : State) : Host.Outcome State Fault Refusal :=
  if s.wlen.toNat = 0 then .next (raise .zerolen s)
  else if s.cap.toNat < s.wlen.toNat then .next (raise .capacity s)
  else .next (complete .ok (encBody s))

/-- `DECW` (43_cipher_engine.md R195, R199): `ZEROLEN`, then `CAPACITY`. -/
def execDecw (s : State) : Host.Outcome State Fault Refusal :=
  if s.wlen.toNat = 0 then .next (raise .zerolen s)
  else if s.cap.toNat < s.wlen.toNat then .next (raise .capacity s)
  else .next (complete .ok (decBody s))

end Sys2Proof.Machine
end

