-- ==== Sys2Proof/Machine/KeyLoader.lean ====
section
/-! DEFINITION. The key loader: `KEYLD` (41_key_loader.md). -/

namespace Sys2Proof.Machine

/-- One iteration of the key loop: `K[i >> 2] <- K[i >> 2] | (zext_32(KBUF[i]) << ((i & 3) * 8))` (R151). The loop
runs over `i < 16`, so `i >> 2` names one of the four registers. -/
def keyByte (i : Nat) (s : State) : State :=
  setK (Fin.ofNat 4 (i / 4)) (insertLane (s.k.get (Fin.ofNat 4 (i / 4))) i (kbufAt s i)) s

/-- The body of `KEYLD` (R151): `K[0 .. 3] <- 0`, then the first `min(KLEN, 16)` bytes. -/
def keyBody (s : State) : State := forUp keyByte (keyBytes s) { s with k := ⟨0, 0, 0, 0⟩ }

/-- `KEYLD` (41_key_loader.md R151): it ends only in `OK`. -/
def execKeyld (s : State) : Host.Outcome State Fault Refusal := .next (complete .ok (keyBody s))

end Sys2Proof.Machine
end

