-- ==== Sys2Proof/Machine/Packer.lean ====
section
/-! DEFINITION. The word packer: `PACK`, `PACKL`, `UNPACK`, `UNPACKL` (40_word_packer.md). A body is the part of a
command after its checks, which the composite commands run too (44_facade_commands.md R221, R225). -/

namespace Sys2Proof.Machine

/-- One iteration of the packing loop: `V[i >> 2] <- V[i >> 2] | (zext_32(BUF[i]) << ((i & 3) * 8))` (R121). -/
def packByte (i : Nat) (s : State) : State := setV (i / 4) (insertLane (vAt s (i / 4)) i (bufAt s i)) s

/-- The two loops that `PACK` and `PACKL` share: clear `V[0 .. nw-1]`, then insert the bytes (R121). -/
def packWords (s : State) : State :=
  forUp packByte s.blen.toNat (forUp (fun j t => setV j 0 t) (dataWords s) s)

/-- The body of `PACK` (R121). -/
def packBody (s : State) : State := { packWords s with wlen := BitVec.ofNat 32 (dataWords s) }

/-- The body of `PACKL` (R125): as `PACK`, with the embedded length in one more word (R126). -/
def packlBody (s : State) : State :=
  { setV (dataWords s) s.blen (packWords s) with wlen := BitVec.ofNat 32 (dataWords s + 1) }

/-- One iteration of the unpacking loop: `BUF[i] <- (V[i >> 2] >>> ((i & 3) * 8)) & 0xFF` (R130, R131). -/
def unpackByte (i : Nat) (s : State) : State := setBuf i (extractLane (vAt s (i / 4)) i) s

/-- Unpack the first `n` bytes of the word array and set `BLEN` to `n` (R130, R134). -/
def unpackBytes (n : Nat) (s : State) : State := { forUp unpackByte n s with blen := BitVec.ofNat 32 n }

/-- The body of `UNPACK` (R130). -/
def unpackBody (s : State) : State := unpackBytes (4 * s.wlen.toNat) s

/-- The length check and the body of `UNPACKL`, to the command's completion (R134, R137). -/
def unpacklFinish (s : State) : State :=
  if lengthAccepted (bytesBeforeLength s) (embeddedLength s) then complete .ok (unpackBytes (embeddedLength s) s)
  else raise .corrupt s

/-- `PACK` (40_word_packer.md R121, R124). -/
def execPack (s : State) : Host.Outcome State Fault Refusal :=
  if s.cap.toNat < dataWords s then .next (raise .capacity s)
  else .next (complete .ok (packBody s))

/-- `PACKL` (40_word_packer.md R125, R127). -/
def execPackl (s : State) : Host.Outcome State Fault Refusal :=
  if s.cap.toNat < dataWords s + 1 then .next (raise .capacity s)
  else .next (complete .ok (packlBody s))

/-- `UNPACK` (40_word_packer.md R130, R132). -/
def execUnpack (s : State) : Host.Outcome State Fault Refusal :=
  if s.cap.toNat < s.wlen.toNat then .next (raise .capacity s)
  else .next (complete .ok (unpackBody s))

/-- `UNPACKL` (40_word_packer.md R134 to R137): `ZEROLEN`, then `CAPACITY`, then `CORRUPT`. -/
def execUnpackl (s : State) : Host.Outcome State Fault Refusal :=
  if s.wlen.toNat = 0 then .next (raise .zerolen s)
  else if s.cap.toNat < s.wlen.toNat then .next (raise .capacity s)
  else .next (unpacklFinish s)

end Sys2Proof.Machine
end

