-- ==== Sys2Proof/Machine/Facade.lean ====
section
/-! DEFINITION. `NOP` and the composite commands `ENCRYPT` and `DECRYPT` (44_facade_commands.md): the bodies of the
primitive commands back to back, from bytes in `BUF` to bytes in `BUF` (R220). -/

namespace Sys2Proof.Machine

/-- `NOP` (44_facade_commands.md R235): nothing but `STATUS`. -/
def execNop (s : State) : Host.Outcome State Fault Refusal := .next (complete .ok s)

/-- `ENCRYPT` (44_facade_commands.md R221): the empty identity (R223), `CAPACITY`, then the four bodies. The checks
inside the bodies cannot fail after the one made here (R221). -/
def execEncrypt (s : State) : Host.Outcome State Fault Refusal :=
  if s.blen.toNat = 0 then .next (complete .ok s)
  else if s.cap.toNat < dataWords s + 1 then .next (raise .capacity s)
  else .next (complete .ok (unpackBody (encBody (packlBody (keyBody s)))))

/-- `DECRYPT` (44_facade_commands.md R225): the empty identity (R223), `SHAPE` (R226), `CAPACITY`, then the bodies;
`UNPACKL`'s length check may end it in `CORRUPT` (R229). -/
def execDecrypt (s : State) : Host.Outcome State Fault Refusal :=
  if s.blen.toNat = 0 then .next (complete .ok s)
  else if s.blen.toNat % 4 ≠ 0 then .next (raise .shape s)
  else if s.cap.toNat < s.blen.toNat / 4 then .next (raise .capacity s)
  else .next (unpacklFinish (decBody (packBody (keyBody s))))

end Sys2Proof.Machine
end

