-- ==== Sys2Proof/Machine/Dispatch.lean ====
section
/-! DEFINITION. The meaning of every command: one arm per constructor of Instr, each a direct call. -/

namespace Sys2Proof.Machine

def exec (i : Instr) (s : State) : Host.Outcome State Fault Refusal :=
  match i with
  | .nop => Sys2Proof.Machine.execNop s
  | .keyld => Sys2Proof.Machine.execKeyld s
  | .pack => Sys2Proof.Machine.execPack s
  | .packl => Sys2Proof.Machine.execPackl s
  | .unpack => Sys2Proof.Machine.execUnpack s
  | .unpackl => Sys2Proof.Machine.execUnpackl s
  | .encw => Sys2Proof.Machine.execEncw s
  | .decw => Sys2Proof.Machine.execDecw s
  | .encrypt => Sys2Proof.Machine.execEncrypt s
  | .decrypt => Sys2Proof.Machine.execDecrypt s

end Sys2Proof.Machine
end

