-- ==== Sys2Proof/Machine/Sequencer.lean ====
section
/-! DEFINITION. The core's sequencer. `coreStep` runs an issued command as a whole, the normative big-step level
(00_scope.md R10, 30_encoding.md R91); `stepFine` enters the step-level machine instead (43_cipher_engine.md R205,
R206, R209; 44_facade_commands.md R230), whose places both of them go on from. -/

namespace Sys2Proof.Machine

/-- The steps of `ENCW` (43_cipher_engine.md R206). `place` writes the phase as `E_…` or inside `F_ENGINE`; `finish`
is what the last `E_ROUND` does: complete, or go to `F_UNPACK` (44_facade_commands.md R230). -/
def encEngineStep (place : EnginePhase → Phase) (finish : State → State) (e : EnginePhase) (s : State) : State :=
  match e with
  | .load  => { encLoad s with phase := place .round }
  | .round =>
    if s.rnd = 0 then finish s
    else { s with sum := s.sum + delta, p := 0, phase := place .word }
  | .word  =>
    let t := encUpdate s.p.toNat s
    if s.p.toNat < s.wlen.toNat - 1 then { t with p := s.p + 1, phase := place .word }
    else { t with rnd := t.rnd - 1, phase := place .round }

/-- The steps of `DECW` (43_cipher_engine.md R209), with `place` and `finish` as for `ENCW`. -/
def decEngineStep (place : EnginePhase → Phase) (finish : State → State) (e : EnginePhase) (s : State) : State :=
  match e with
  | .load  => { decLoad s with phase := place .round }
  | .round =>
    if s.rnd = 0 then finish s
    else { s with p := BitVec.ofNat 32 (s.wlen.toNat - 1), phase := place .word }
  | .word  =>
    let t := decUpdate s.p.toNat s
    if 0 < s.p.toNat then { t with p := s.p - 1, phase := place .word }
    else { t with sum := t.sum - delta, rnd := t.rnd - 1, phase := place .round }

/-- What the last `E_ROUND` does inside a composite command: the next body starts (44_facade_commands.md R230). -/
def toUnpack (s : State) : State := { s with phase := .fUnpack }

/-- `F_CHECK` of `ENCRYPT`: the tests of 44_facade_commands.md R221 on `BLEN`. -/
def encryptCheck (s : State) : State :=
  if s.blen.toNat = 0 then complete .ok s
  else if s.cap.toNat < dataWords s + 1 then raise .capacity s
  else { s with phase := .fKey }

/-- `F_CHECK` of `DECRYPT`: the tests of 44_facade_commands.md R225 on `BLEN`. -/
def decryptCheck (s : State) : State :=
  if s.blen.toNat = 0 then complete .ok s
  else if s.blen.toNat % 4 ≠ 0 then raise .shape s
  else if s.cap.toNat < s.blen.toNat / 4 then raise .capacity s
  else { s with phase := .fKey }

/-- The step of `ENCW` at its current phase (43_cipher_engine.md R206). -/
def encwStep (s : State) : Host.Outcome State Fault Refusal :=
  match s.phase with
  | .engine e => .next (encEngineStep .engine (complete .ok) e s)
  | _ => .fault .noTransition

/-- The step of `DECW` at its current phase (43_cipher_engine.md R209). -/
def decwStep (s : State) : Host.Outcome State Fault Refusal :=
  match s.phase with
  | .engine e => .next (decEngineStep .engine (complete .ok) e s)
  | _ => .fault .noTransition

/-- The step of `ENCRYPT` at its current phase (44_facade_commands.md R230): the bodies in the order of R221. -/
def encryptStep (s : State) : Host.Outcome State Fault Refusal :=
  match s.phase with
  | .fCheck    => .next (encryptCheck s)
  | .fKey      => .next { keyBody s with phase := .fPack }
  | .fPack     => .next { packlBody s with phase := .fEngine .load }
  | .fEngine e => .next (encEngineStep .fEngine toUnpack e s)
  | .fUnpack   => .next (complete .ok (unpackBody s))
  | _ => .fault .noTransition

/-- The step of `DECRYPT` at its current phase (44_facade_commands.md R230): the bodies in the order of R225. -/
def decryptStep (s : State) : Host.Outcome State Fault Refusal :=
  match s.phase with
  | .fCheck    => .next (decryptCheck s)
  | .fKey      => .next { keyBody s with phase := .fPack }
  | .fPack     => .next { packBody s with phase := .fEngine .load }
  | .fEngine e => .next (decEngineStep .fEngine toUnpack e s)
  | .fUnpack   => .next (unpacklFinish s)
  | _ => .fault .noTransition

/-- One step of the step-level machine from one of its own places; the command is the one `CMD` holds
(20_memory.md R74). -/
def microStep (s : State) : Host.Outcome State Fault Refusal :=
  match decode s.cmd with
  | .ok .encw    => encwStep s
  | .ok .decw    => decwStep s
  | .ok .encrypt => encryptStep s
  | .ok .decrypt => decryptStep s
  | .ok .nop | .ok .keyld | .ok .pack | .ok .packl | .ok .unpack | .ok .unpackl => .fault .noTransition
  | .error _ => .fault .noTransition

/-- An issued command as one step (30_encoding.md R91): decode, then the command's rule to its completion; an illegal
word completes at once with `ILLCMD` (R95). -/
def runIssued (s : State) : Host.Outcome State Fault Refusal :=
  match decode s.cmd with
  | .ok i    => exec i s
  | .error _ => .next (raise .illcmd s)

/-- The checks of `ENCW` and `DECW`, made before `E_INIT` (43_cipher_engine.md R205). -/
def enterEngine (s : State) : State :=
  if s.wlen.toNat = 0 then raise .zerolen s
  else if s.cap.toNat < s.wlen.toNat then raise .capacity s
  else { s with phase := .engine .load }

/-- An issued command at the step level: the engine's and the composite commands enter their schedules
(43_cipher_engine.md R205, 44_facade_commands.md R230), every other is one step. -/
def startFine (s : State) : Host.Outcome State Fault Refusal :=
  match decode s.cmd with
  | .ok .encw    => .next (enterEngine s)
  | .ok .decw    => .next (enterEngine s)
  | .ok .encrypt => .next { s with phase := .fCheck }
  | .ok .decrypt => .next { s with phase := .fCheck }
  | .ok .nop     => exec .nop s
  | .ok .keyld   => exec .keyld s
  | .ok .pack    => exec .pack s
  | .ok .packl   => exec .packl s
  | .ok .unpack  => exec .unpack s
  | .ok .unpackl => exec .unpackl s
  | .error _     => .next (raise .illcmd s)

/-- The core's step at the big-step level: it has one only while `BUSY` = 1 (00_scope.md R13), and an idle block
executes nothing (70_reset_and_hazards.md R290). -/
def coreStep (s : State) : Host.Outcome State Fault Refusal :=
  if busy s then
    match s.phase with
    | .run => runIssued s
    | _    => microStep s
  else .next s

/-- The core's step at the step level, with the same idle rule. -/
def stepFine (s : State) : Host.Outcome State Fault Refusal :=
  if busy s then
    match s.phase with
    | .run => startFine s
    | _    => microStep s
  else .next s

/-- Where a command comes from: the host's write of `CMD` (30_encoding.md R91). `w` holds `nbits` bits of it. -/
def placeCommand (nbits w : Nat) (s : State) : State := issue (BitVec.ofNat 32 (w % 2 ^ nbits)) s

end Sys2Proof.Machine
end

