-- ==== Sys2Proof/Machine/Step.lean ====
section
/-! DEFINITION. One step of the machine, and placing a command where the next step runs it. -/

namespace Sys2Proof.Machine

/-- One step of the core: an issued command runs to its completion (30_encoding.md R91); an idle block stays as it
is until the host acts. -/
def step (s : State) : Host.Outcome State Fault Refusal := coreStep s

/-- `s` with the command `w` issued, as the host's write of `CMD` issues it (30_encoding.md R91): the next step runs
exactly that command. -/
def State.withFetchWord (s : State) (nbits w : Nat) : State := placeCommand nbits w s

end Sys2Proof.Machine
end

