-- ==== Sys2Proof/Machine/HostAccess.lean ====
section
/-! DEFINITION. The host's accesses (45_host_access.md), the other agent of 00_scope.md R13: reads and writes of
registers and memories, waiting, and host scripts with their pseudo-operations (30_encoding.md R97, R98). A read
answers a value and changes nothing (20_memory.md R64). While `BUSY` = 1 everything but a read of `STATUS` is refused
(70_reset_and_hazards.md R300). -/

namespace Sys2Proof.Machine

/-- The registers of 10_state.md R29. -/
inductive Reg where
  | cmd
  | status
  | blen
  | wlen
  | klen
  | cap
  | sum
  | rnd
  | pos
  | key (j : Fin 4)
  deriving DecidableEq, Repr

/-- The register a number names (10_state.md R29); numbers 9 to 15 and 20 and above name none (45_host_access.md
R247). -/
def regOfNumber : Nat → Option Reg
  | 0 => some .cmd
  | 1 => some .status
  | 2 => some .blen
  | 3 => some .wlen
  | 4 => some .klen
  | 5 => some .cap
  | 6 => some .sum
  | 7 => some .rnd
  | 8 => some .pos
  | 16 => some (.key 0)
  | 17 => some (.key 1)
  | 18 => some (.key 2)
  | 19 => some (.key 3)
  | _ => none

/-- The 32-bit value a read of a register returns (45_host_access.md R240). -/
def regValue (r : Reg) (s : State) : Word :=
  match r with
  | .cmd    => s.cmd
  | .status => readStatus s
  | .blen   => s.blen
  | .wlen   => s.wlen
  | .klen   => s.klen
  | .cap    => s.cap
  | .sum    => s.sum
  | .rnd    => s.rnd
  | .pos    => s.p
  | .key j  => s.k.get j

/-- The effect of a host write to a register of an idle block (45_host_access.md R241): `CMD` issues, the lengths and
`K` take the value, the read-only registers ignore it. -/
def storeReg (r : Reg) (w : Word) (s : State) : State :=
  match r with
  | .cmd    => issue w s
  | .status => s
  | .blen   => { s with blen := w }
  | .wlen   => { s with wlen := w }
  | .klen   => { s with klen := w }
  | .cap    => s
  | .sum    => s
  | .rnd    => s
  | .pos    => s
  | .key j  => setK j w s

/-- Why a host access to a register of a busy block is refused (93_implementation_defined.md U1, U2). -/
def busyRefusal (r : Reg) : Refusal :=
  match r with
  | .cmd => .commandWhileBusy
  | _    => .accessWhileBusy

/-- `RD` (45_host_access.md R240): `STATUS` at any time, every other register while idle. -/
def readReg (number : Nat) (s : State) : Host.Outcome Word Fault Refusal :=
  match regOfNumber number with
  | none   => .refused (.reservedRegister number)
  | some r => if busy s ∧ r ≠ .status then .refused .accessWhileBusy else .next (regValue r s)

/-- `WR` (45_host_access.md R241), while idle. -/
def writeReg (number : Nat) (w : Word) (s : State) : Host.Outcome State Fault Refusal :=
  match regOfNumber number with
  | none   => .refused (.reservedRegister number)
  | some r => if busy s then .refused (busyRefusal r) else .next (storeReg r w s)

/-- The byte spaces the host can reach (45_host_access.md R242). -/
inductive ByteSpace where
  | buf
  | kbuf
  deriving DecidableEq, Repr

/-- The number of cells of a byte space: `MAXB = 4 * MAXW`, and 16 (10_state.md R38). -/
def spaceCells (sp : ByteSpace) (s : State) : Nat :=
  match sp with
  | .buf  => 4 * s.cap.toNat
  | .kbuf => 16

/-- The content of a byte cell. -/
def byteAt (sp : ByteSpace) (i : Nat) (s : State) : Byte :=
  match sp with
  | .buf  => bufAt s i
  | .kbuf => kbufAt s i

/-- Store into a byte cell: only that cell changes (45_host_access.md R243). -/
def storeByte (sp : ByteSpace) (i : Nat) (b : Byte) (s : State) : State :=
  match sp with
  | .buf  => setBuf i b s
  | .kbuf => setKbuf i b s

/-- An access to cell `i` of a space of `n` cells: only while idle (70_reset_and_hazards.md R300), only inside the
space (45_host_access.md R248). -/
def guarded {α : Type} (i n : Nat) (s : State) (a : α) : Host.Outcome α Fault Refusal :=
  if busy s then .refused .accessWhileBusy
  else if n ≤ i then .refused (.indexOutOfRange i)
  else .next a

/-- `RB` (45_host_access.md R242). -/
def readByte (sp : ByteSpace) (i : Nat) (s : State) : Host.Outcome Byte Fault Refusal :=
  guarded i (spaceCells sp s) s (byteAt sp i s)

/-- `WB` (45_host_access.md R243). -/
def writeByte (sp : ByteSpace) (i : Nat) (b : Byte) (s : State) : Host.Outcome State Fault Refusal :=
  guarded i (spaceCells sp s) s (storeByte sp i b s)

/-- `RW` (45_host_access.md R244). -/
def readWord (i : Nat) (s : State) : Host.Outcome Word Fault Refusal := guarded i s.cap.toNat s (vAt s i)

/-- `WW` (45_host_access.md R245). -/
def writeWord (i : Nat) (w : Word) (s : State) : Host.Outcome State Fault Refusal :=
  guarded i s.cap.toNat s (setV i w s)

/-- The core steps, at most `fuel` of them, until `BUSY` reads 0. -/
def runUntilIdle : Nat → State → Host.Outcome State Fault Refusal
  | 0, s => .next s
  | fuel + 1, s => if busy s then andThen (step s) (runUntilIdle fuel) else .next s

/-- More steps than any running command still takes (43_cipher_engine.md R212, 44_facade_commands.md R230). -/
def stepsEnough (s : State) : Nat := (60 + s.rnd.toNat) * (s.blen.toNat + s.wlen.toNat + s.p.toNat + 4) + 8

/-- `WAIT` (45_host_access.md R249): the core runs until a read of `STATUS` returns `BUSY` = 0; the state reached and
the value that read returned. -/
def wait (s : State) : Host.Outcome (State × Word) Fault Refusal :=
  andThen (runUntilIdle (stepsEnough s) s) (fun t => .next (t, readStatus t))

/-- A line of a host script (30_encoding.md R97). -/
inductive HostAction where
  | readReg (number : Nat)
  | writeReg (number : Nat) (w : Word)
  | readByte (sp : ByteSpace) (i : Nat)
  | writeByte (sp : ByteSpace) (i : Nat) (b : Byte)
  | readWord (i : Nat)
  | writeWord (i : Nat) (w : Word)
  | wait
  deriving DecidableEq, Repr

/-- What a line of a host script gets back. -/
inductive HostValue where
  | none
  | byte (b : Byte)
  | word (w : Word)
  deriving DecidableEq, Repr

/-- One line of a host script: the state after it and the value it returns (30_encoding.md R97). How many core steps
pass between two lines the spec leaves open, having no time (70_reset_and_hazards.md R310). Here the core steps only
inside `WAIT`, so any other line finds the core where the line before it left it (DESIGN CHOICE, log 21). -/
def hostAct (a : HostAction) (s : State) : Host.Outcome (State × HostValue) Fault Refusal :=
  match a with
  | .readReg n       => andThen (readReg n s) (fun w => .next (s, .word w))
  | .writeReg n w    => andThen (writeReg n w s) (fun t => .next (t, .none))
  | .readByte sp i   => andThen (readByte sp i s) (fun b => .next (s, .byte b))
  | .writeByte sp i b => andThen (writeByte sp i b s) (fun t => .next (t, .none))
  | .readWord i      => andThen (readWord i s) (fun w => .next (s, .word w))
  | .writeWord i w   => andThen (writeWord i w s) (fun t => .next (t, .none))
  | .wait            => andThen (Machine.wait s) (fun r => .next (r.1, .word r.2))

/-- A host script: its lines in order, each complete before the next (20_memory.md R72); the values they return. No
core step passes between two lines, so a `RD STATUS` after `CMD` with no `WAIT` between them returns `BUSY` = 1
(DESIGN CHOICE, log 21). -/
def runScript : List HostAction → State → Host.Outcome (State × List HostValue) Fault Refusal
  | [], s => .next (s, [])
  | a :: rest, s =>
    andThen (hostAct a s) (fun r => andThen (runScript rest r.1) (fun u => .next (u.1, r.2 :: u.2)))

/-- `WB space[i], b` for consecutive cells from `i`. -/
def writeBytesFrom (sp : ByteSpace) : Nat → List Byte → List HostAction
  | _, [] => []
  | i, b :: bs => .writeByte sp i b :: writeBytesFrom sp (i + 1) bs

/-- `WW V[i], w` for consecutive cells from `i`. -/
def writeWordsFrom : Nat → List Word → List HostAction
  | _, [] => []
  | i, w :: ws => .writeWord i w :: writeWordsFrom (i + 1) ws

/-- `LDBUF` (30_encoding.md R98). -/
def ldbuf (bs : List Byte) : List HostAction :=
  writeBytesFrom .buf 0 bs ++ [.writeReg 2 (BitVec.ofNat 32 bs.length)]

/-- The length that `LDKEY` writes to `KLEN` (30_encoding.md R98): the true length. One that does not fit the 32 bits
of `WR`, on which the spec is silent, is written as R98's alternative 16, never wrapped (DESIGN CHOICE, log 22). -/
def keyLengthValue (n : Nat) : Nat := if n < 2 ^ 32 then n else 16

/-- `LDKEY` (30_encoding.md R98): at most the first 16 bytes, then `KLEN`. -/
def ldkey (bs : List Byte) : List HostAction :=
  writeBytesFrom .kbuf 0 (bs.take 16) ++ [.writeReg 4 (BitVec.ofNat 32 (keyLengthValue bs.length))]

/-- `LDV` (30_encoding.md R98). -/
def ldv (ws : List Word) : List HostAction :=
  writeWordsFrom 0 ws ++ [.writeReg 3 (BitVec.ofNat 32 ws.length)]

/-- `RUN mnemonic` (30_encoding.md R98): `CMD mnemonic`, then `WAIT`. -/
def runCommand (i : Instr) : List HostAction := [.writeReg 0 (encode i), .wait]

end Sys2Proof.Machine
end

