-- ==== Sys2Proof/Safety.lean ====
section
/-! DEFINITION. The words in which claims are stated: the step-level core, the legal states of the block (`Inv`), the schedule the engine
keeps while it runs (`EngineScheduled`), and the closed form of a packed word. -/

namespace Sys2Proof.Machine

/-- The step-level machine (43_cipher_engine.md R205) as a core of the host's interface, entered from `RUN` too. -/
def fineCore : Host.Core where
  State := State
  Fault := Fault
  Refusal := Refusal
  step := stepFine
  reset := State.reset

/-- `CAP` holds a capacity in the range of `MAXW` (00_scope.md R6, 10_state.md R35). -/
def CapLegal (s : State) : Prop := 2 ≤ s.cap.toNat ∧ s.cap.toNat ≤ 2 ^ 30 - 1

/-- Reserved bits of `STATUS` are 0, `ERR` is 0 to 5, `BUSY` and `DONE` are never both 1, and `ERR` is 0 while busy
(10_state.md R31, 45_host_access.md R249). -/
def StatusLegal (s : State) : Prop :=
  s.status &&& ~~~statusMask = 0 ∧ (errField s).toNat ≤ 5 ∧ ¬ (busy s = true ∧ done s = true) ∧
    (busy s = true → errField s = 0)

/-- `PHASE` = `IDLE` exactly when `BUSY` = 0 (10_state.md R45). -/
def PhaseLegal (s : State) : Prop := s.phase = .idle ↔ busy s = false

/-- `RND` lies in 0 .. 58 and `P` in 0 .. `MAXW - 1` (10_state.md R25, R24). -/
def CountersLegal (s : State) : Prop := s.rnd.toNat ≤ 58 ∧ s.p.toNat < s.cap.toNat

/-- The three memories are in canonical form and list no cell outside their spaces (10_state.md R38). -/
def MemoryLegal (s : State) : Prop :=
  s.buf.wf = true ∧ s.buf.below (4 * s.cap.toNat) = true ∧
  s.v.wf = true ∧ s.v.below s.cap.toNat = true ∧
  s.kbuf.wf = true ∧ s.kbuf.below 16 = true

/-- The word array is not empty and fits (60_exceptions.md R266, R267). -/
def ArrayFits (s : State) : Prop := 1 ≤ s.wlen.toNat ∧ s.wlen.toNat ≤ s.cap.toNat

/-- The engine may be at place `e`: its checks have passed, and at a word update a round runs and `P` is in the
array (43_cipher_engine.md R205, R206, R209). -/
def EngineFits (e : EnginePhase) (s : State) : Prop :=
  ArrayFits s ∧ (e = .word → s.rnd ≠ 0 ∧ s.p.toNat < s.wlen.toNat)

/-- `ENCRYPT`'s tests have passed (44_facade_commands.md R221). -/
def EncryptFits (s : State) : Prop := 0 < s.blen.toNat ∧ dataWords s + 1 ≤ s.cap.toNat

/-- `DECRYPT`'s tests have passed (44_facade_commands.md R225). -/
def DecryptFits (s : State) : Prop :=
  0 < s.blen.toNat ∧ s.blen.toNat % 4 = 0 ∧ s.blen.toNat / 4 ≤ s.cap.toNat

/-- `CMD` holds the command `i`. -/
def Running (i : Instr) (s : State) : Prop := decode s.cmd = .ok i

/-- `PHASE` is a place in the schedule of the command that `CMD` holds (43_cipher_engine.md R205,
44_facade_commands.md R230). -/
def ScheduleLegal (s : State) : Prop :=
  match s.phase with
  | .idle      => True
  | .run       => True
  | .engine e  => (Running .encw s ∨ Running .decw s) ∧ EngineFits e s
  | .fCheck    => Running .encrypt s ∨ Running .decrypt s
  | .fKey      => (Running .encrypt s ∧ EncryptFits s) ∨ (Running .decrypt s ∧ DecryptFits s)
  | .fPack     => (Running .encrypt s ∧ EncryptFits s) ∨ (Running .decrypt s ∧ DecryptFits s)
  | .fEngine e => (Running .encrypt s ∨ Running .decrypt s) ∧ EngineFits e s
  | .fUnpack   => (Running .encrypt s ∨ Running .decrypt s) ∧ ArrayFits s

/-- The legal states of the block: the invariant of every step, host access and reset. -/
def Inv (s : State) : Prop :=
  CapLegal s ∧ StatusLegal s ∧ PhaseLegal s ∧ CountersLegal s ∧ MemoryLegal s ∧ ScheduleLegal s

/-- The place of the engine inside `ENCW` or `ENCRYPT`, `DECW` or `DECRYPT`, if it is at one. -/
def enginePlace (s : State) : Option EnginePhase :=
  match s.phase with
  | .engine e  => some e
  | .fEngine e => some e
  | .idle | .run | .fCheck | .fKey | .fPack | .fUnpack => none

/-- While an encryption runs: `SUM` is `r * DELTA` in round `r` (43_cipher_engine.md R186) and `Z` is the word before
the one to be updated (R184). -/
def EncScheduled (e : EnginePhase) (s : State) : Prop :=
  match e with
  | .load  => True
  | .round =>
    s.rnd.toNat ≤ roundCount s.wlen.toNat ∧
    s.sum = BitVec.ofNat 32 (roundCount s.wlen.toNat - s.rnd.toNat) * delta ∧ s.z = vAt s (s.wlen.toNat - 1)
  | .word  =>
    s.rnd.toNat ≤ roundCount s.wlen.toNat ∧
    s.sum = BitVec.ofNat 32 (roundCount s.wlen.toNat - s.rnd.toNat + 1) * delta ∧
    s.z = vAt s (ringPrev s.wlen.toNat s.p.toNat)

/-- While a decryption runs: `SUM` is `RND * DELTA` (43_cipher_engine.md R198, R200) and `Y` is the word after the
one to be updated (R196). -/
def DecScheduled (e : EnginePhase) (s : State) : Prop :=
  match e with
  | .load  => True
  | .round => s.rnd.toNat ≤ roundCount s.wlen.toNat ∧ s.sum = s.rnd * delta ∧ s.y = vAt s 0
  | .word  =>
    s.rnd.toNat ≤ roundCount s.wlen.toNat ∧ s.sum = s.rnd * delta ∧
    s.y = vAt s (ringNext s.wlen.toNat s.p.toNat)

/-- The sum schedule and the carried neighbour, at every place of the engine. -/
def EngineScheduled (s : State) : Prop :=
  ∀ e, enginePlace s = some e →
    (Running .encw s ∨ Running .encrypt s → EncScheduled e s) ∧
    (Running .decw s ∨ Running .decrypt s → DecScheduled e s)

/-- The closed form of a packed word (40_word_packer.md R123, 41_key_loader.md R151): the sum over `t` in 0 .. 3 with
`4j+t < n` of `b(4j+t) * 2^(8t)`. -/
def packedWord (b : Nat → Byte) (n j : Nat) : Nat :=
  ((List.range 4).map (fun t => if 4 * j + t < n then (b (4 * j + t)).toNat * 2 ^ (8 * t) else 0)).sum

/-- Byte `i` of a word array: bits `8*(i & 3) + 7` down to `8*(i & 3)` of word `i >> 2` (40_word_packer.md R131). -/
def arrayByte (w : Nat → Word) (i : Nat) : Byte := (w (i / 4)).extractLsb' (8 * (i % 4)) 8

/-- The key registers that the key bytes in `KBUF` give (41_key_loader.md R151, closed form). -/
def keyWords (s : State) : KeyFile :=
  let w (j : Nat) : Word := BitVec.ofNat 32 (packedWord (kbufAt s) (min s.klen.toNat 16) j)
  ⟨w 0, w 1, w 2, w 3⟩

end Sys2Proof.Machine
end

