-- ==== Sys2Proof/Certificates/Slice0/Obligations.lean ====
section
/-! DEFINITION. The statements for the provers. Status words are written as 95_test_vectors.md writes them:
`0x2` done with `OK`, `0x12` `CORRUPT`, `0x22` `SHAPE`, `0x32` `CAPACITY`, `0x42` `ZEROLEN`, `0x52` `ILLCMD`. A statement
that `t = { s with … }` is a frame: every field it does not name is as in `s`. -/

open Sys2Proof Sys2Proof.Machine

/-! ## Reset, the invariant, and the step -/

/-- 10_state.md R50, 70_reset_and_hazards.md R290, R291: what a reset leaves, from idle or busy, in the state it
specifies. (The memories list nothing, which is how the model leaves their contents unspecified: log 5.) -/
def Obligations.ResetLeavesControlStateZero : Prop :=
  ∀ s t : State, t = State.reset ∨ t = resetEvent s →
    t.cmd = 0 ∧ t.status = 0 ∧ t.blen = 0 ∧ t.wlen = 0 ∧ t.klen = 0 ∧ t.sum = 0 ∧ t.rnd = 0 ∧ t.p = 0 ∧
    t.phase = .idle ∧ t.cap.toNat = Config.maxw ∧ 2 ≤ Config.maxw ∧ Config.maxw ≤ 2 ^ 30 - 1 ∧
    t.buf = [] ∧ t.v = [] ∧ t.kbuf = []

/-- Every reset state is a legal state. -/
def Obligations.ResetStateLegal : Prop := Inv State.reset ∧ ∀ s : State, Inv (resetEvent s)

/-- From every legal state the core has a step, and it leads to a legal state: nothing is stuck
(93_implementation_defined.md), the memories stay canonical and inside their spaces, `STATUS` stays legal, `PHASE` is
idle exactly when `BUSY` is 0, `RND` and `P` stay in range, and `PHASE` stays in the running command's schedule. -/
def Obligations.StepKeepsLegalStates : Prop :=
  ∀ s : State, Inv s → ∃ t, step s = .next t ∧ Inv t

/-- The same of the step-level machine. -/
def Obligations.FineStepKeepsLegalStates : Prop :=
  ∀ s : State, Inv s → ∃ t, stepFine s = .next t ∧ Inv t

/-- Every host access that the model answers leads to a legal state. -/
def Obligations.HostAccessKeepsLegalStates : Prop :=
  ∀ (s : State) (a : HostAction) (r : State × HostValue), Inv s → hostAct a s = .next r → Inv r.1

/-- 43_cipher_engine.md R184, R186, R196, R198: at every place of the engine `SUM` follows the schedule and the
carried neighbour is the word it stands for, kept by every step of either machine. -/
def Obligations.StepKeepsEngineSchedule : Prop :=
  ∀ s t : State, Inv s → EngineScheduled s → step s = .next t ∨ stepFine s = .next t → EngineScheduled t

/-- When `BUSY` is 1 and a command is issued, the step is the meaning of the command that `CMD` decodes to, with
nothing around it (there is no program counter to move, 10_state.md R28). -/
def Obligations.StepRunsDecodedCommand : Prop :=
  ∀ (s : State) (i : Instr), busy s = true → s.phase = .run → decode s.cmd = .ok i → step s = exec i s

/-- 70_reset_and_hazards.md R290, 00_scope.md R13: an idle block executes nothing. R13 gives the core no step while
idle; that the step function then answers the same state is the model's choice (log 7). -/
def Obligations.IdleBlockExecutesNothing : Prop :=
  ∀ s : State, busy s = false → step s = .next s ∧ stepFine s = .next s

/-- 30_encoding.md R91: a write of `CMD` while idle issues any word; while busy it is refused. -/
def Obligations.WriteOfCmdIssues : Prop :=
  ∀ (s : State) (w : Word),
    (busy s = false → writeReg 0 w s = .next { s with cmd := w, status := 0x1, phase := .run }) ∧
    (busy s = true → writeReg 0 w s = .refused .commandWhileBusy)

/-! ## Decoding -/

/-- The ten words of 30_encoding.md R92's table, decoded. -/
def Obligations.TableWordsDecode : Prop :=
  decode 0x00000000 = .ok .nop ∧ decode 0x00000001 = .ok .keyld ∧
  decode 0x00000002 = .ok .pack ∧ decode 0x00000012 = .ok .packl ∧
  decode 0x00000003 = .ok .unpack ∧ decode 0x00000013 = .ok .unpackl ∧
  decode 0x00000004 = .ok .encw ∧ decode 0x00000005 = .ok .decw ∧
  decode 0x00000006 = .ok .encrypt ∧ decode 0x00000007 = .ok .decrypt

/-- 30_encoding.md R92: over all 2^32 words, a word decodes to a command exactly when it is that command's word. -/
def Obligations.DecodeAndEncodeAgree : Prop :=
  ∀ (w : Word) (i : Instr), decode w = .ok i ↔ w = encode i

/-- 30_encoding.md R95: exactly the listed words are illegal; one is issued like any other, completes at once with
`ILLCMD`, and changes only `CMD` and `STATUS`, and no word outside the list does. -/
def Obligations.IllegalWordsRaiseIllcmd : Prop :=
  ∀ (s : State) (w : Word), busy s = false →
    let listed : Prop := w &&& 0xFFFFFFE0 ≠ 0 ∨ (8 ≤ w.toNat ∧ w.toNat ≤ 15) ∨ w = 0x10 ∨ w = 0x11 ∨
      (0x14 ≤ w.toNat ∧ w.toNat ≤ 0x1F)
    (listed → ∃ t, writeReg 0 w s = .next t ∧ busy t = true ∧ done t = false ∧ errField t = 0 ∧
      step t = .next { s with cmd := w, status := 0x52, phase := .idle }) ∧
    (¬ listed → ∃ i : Instr, w = encode i ∧ decode w = .ok i)

/-! ## NOP and the key loader -/

/-- 44_facade_commands.md R235: `NOP`, issued and run, changes nothing but `STATUS` (and `CMD` at issue). -/
def Obligations.NopChangesOnlyStatus : Prop :=
  decode 0x00000000 = .ok .nop ∧
  ∀ s : State, exec .nop s = .next { s with status := 0x2, phase := .idle } ∧
    (busy s = false → ∃ t, writeReg 0 0x00000000 s = .next t ∧
      step t = .next { s with cmd := 0, status := 0x2, phase := .idle })

/-- 41_key_loader.md R151: `KEYLD` writes `K` with the closed form and nothing else but `STATUS`; it has no error. -/
def Obligations.KeyldLoadsKeyWords : Prop :=
  decode 0x00000001 = .ok .keyld ∧
  ∀ s : State, exec .keyld s = .next { s with k := keyWords s, status := 0x2, phase := .idle }

/-- 41_key_loader.md R152: a key shorter than 16 bytes loads as the same key zero-padded to 16; an empty key loads
four zero words. -/
def Obligations.KeyldPadsWithZeros : Prop :=
  ∀ s u : State, s.klen.toNat < 16 → u.klen = 16 →
    (∀ i, i < 16 → kbufAt u i = if i < s.klen.toNat then kbufAt s i else 0) →
    ∃ t r, exec .keyld s = .next t ∧ exec .keyld u = .next r ∧ t.k = r.k ∧
      (s.klen = 0 → t.k = ⟨0, 0, 0, 0⟩)

/-- 41_key_loader.md R153: a key longer than 16 bytes loads as its first 16 bytes, whether `KLEN` holds the true
length or 16. -/
def Obligations.KeyldUsesFirstSixteenBytes : Prop :=
  ∀ s u : State, 16 ≤ s.klen.toNat → u.klen = 16 → (∀ i, i < 16 → kbufAt u i = kbufAt s i) →
    ∃ t r, exec .keyld s = .next t ∧ exec .keyld u = .next r ∧ t.k = r.k

/-! ## The word packer -/

/-- 40_word_packer.md R121, R123: `PACK`, its result in closed form over every cell of `V`, its error and its
frame. -/
def Obligations.PackPacksBytes : Prop :=
  decode 0x00000002 = .ok .pack ∧
  ∀ s : State,
    let nw := (s.blen.toNat + 3) / 4
    (s.cap.toNat < nw → exec .pack s = .next { s with status := 0x32, phase := .idle }) ∧
    (nw ≤ s.cap.toNat → ∃ t, exec .pack s = .next t ∧
      t = { s with v := t.v, wlen := BitVec.ofNat 32 nw, status := 0x2, phase := .idle } ∧
      ∀ j, vAt t j = if j < nw then BitVec.ofNat 32 (packedWord (bufAt s) s.blen.toNat j) else vAt s j)

/-- 40_word_packer.md R125: `PACKL`, as `PACK` with `V[nw] = BLEN` and one more word. -/
def Obligations.PacklPacksBytesAndLength : Prop :=
  decode 0x00000012 = .ok .packl ∧
  ∀ s : State,
    let nw := (s.blen.toNat + 3) / 4
    (s.cap.toNat < nw + 1 → exec .packl s = .next { s with status := 0x32, phase := .idle }) ∧
    (nw + 1 ≤ s.cap.toNat → ∃ t, exec .packl s = .next t ∧
      t = { s with v := t.v, wlen := BitVec.ofNat 32 (nw + 1), status := 0x2, phase := .idle } ∧
      ∀ j, vAt t j =
        if j < nw then BitVec.ofNat 32 (packedWord (bufAt s) s.blen.toNat j)
        else if j = nw then s.blen else vAt s j)

/-- 40_word_packer.md R130, R131: `UNPACK`, its bytes over every cell of `BUF`, its error and its frame; `BLEN` is
`4 * WLEN` as a number for every legal capacity (R132). -/
def Obligations.UnpackUnpacksWords : Prop :=
  decode 0x00000003 = .ok .unpack ∧
  ∀ s : State,
    (s.cap.toNat < s.wlen.toNat → exec .unpack s = .next { s with status := 0x32, phase := .idle }) ∧
    (s.wlen.toNat ≤ s.cap.toNat → ∃ t, exec .unpack s = .next t ∧
      t = { s with buf := t.buf, blen := BitVec.ofNat 32 (4 * s.wlen.toNat), status := 0x2, phase := .idle } ∧
      (CapLegal s → t.blen.toNat = 4 * s.wlen.toNat) ∧
      ∀ i, bufAt t i = if i < 4 * s.wlen.toNat then arrayByte (vAt s) i else bufAt s i)

/-- 40_word_packer.md R134, R135, R137: `UNPACKL`: `ZEROLEN`, then `CAPACITY`, then `CORRUPT` unless
`nb - 3 ≤ m ≤ nb` over the integers, else exactly `m` bytes. -/
def Obligations.UnpacklChecksEmbeddedLength : Prop :=
  decode 0x00000013 = .ok .unpackl ∧
  ∀ s : State,
    let nb : Int := 4 * ((s.wlen.toNat : Int) - 1)
    let m := (vAt s (s.wlen.toNat - 1)).toNat
    (s.wlen.toNat = 0 → exec .unpackl s = .next { s with status := 0x42, phase := .idle }) ∧
    (1 ≤ s.wlen.toNat → s.cap.toNat < s.wlen.toNat →
      exec .unpackl s = .next { s with status := 0x32, phase := .idle }) ∧
    (1 ≤ s.wlen.toNat → s.wlen.toNat ≤ s.cap.toNat → (m : Int) < nb - 3 ∨ nb < (m : Int) →
      exec .unpackl s = .next { s with status := 0x12, phase := .idle }) ∧
    (1 ≤ s.wlen.toNat → s.wlen.toNat ≤ s.cap.toNat → nb - 3 ≤ (m : Int) → (m : Int) ≤ nb →
      ∃ t, exec .unpackl s = .next t ∧
        t = { s with buf := t.buf, blen := vAt s (s.wlen.toNat - 1), status := 0x2, phase := .idle } ∧
        ∀ i, bufAt t i = if i < m then arrayByte (vAt s) i else bufAt s i)

/-- 40_word_packer.md R139: `PACKL` then `UNPACKL` gives the bytes back; `PACK` then `UNPACK` gives them back followed
by zero bytes; `UNPACK` then `PACK` gives the words back. -/
def Obligations.PackerRoundTrips : Prop :=
  ∀ s : State,
    let nw := (s.blen.toNat + 3) / 4
    (nw + 1 ≤ s.cap.toNat → ∃ t u, exec .packl s = .next t ∧ exec .unpackl t = .next u ∧
      u.status = 0x2 ∧ u.blen = s.blen ∧ ∀ i, i < s.blen.toNat → bufAt u i = bufAt s i) ∧
    (CapLegal s → nw ≤ s.cap.toNat → ∃ t u, exec .pack s = .next t ∧ exec .unpack t = .next u ∧
      u.status = 0x2 ∧ u.blen.toNat = 4 * nw ∧
      ∀ i, i < 4 * nw → bufAt u i = if i < s.blen.toNat then bufAt s i else 0) ∧
    (CapLegal s → s.wlen.toNat ≤ s.cap.toNat → ∃ t u, exec .unpack s = .next t ∧ exec .pack t = .next u ∧
      u.status = 0x2 ∧ u.wlen = s.wlen ∧ ∀ j, j < s.wlen.toNat → vAt u j = vAt s j)

/-- 40_word_packer.md R120: the four packer commands never read or write `K`, `KBUF`, `KLEN` or the engine registers:
whatever those hold, the outcome is the same and they are left as they were. -/
def Obligations.PackersIgnoreKeyAndEngine : Prop :=
  ∀ (i : Instr), i = .pack ∨ i = .packl ∨ i = .unpack ∨ i = .unpackl →
    ∀ (s : State) (k : KeyFile) (kb : Memory Byte) (kl a r p y z : Word), ∃ t, exec i s = .next t ∧
      exec i { s with k := k, kbuf := kb, klen := kl, sum := a, rnd := r, p := p, y := y, z := z } =
        .next { t with k := k, kbuf := kb, klen := kl, sum := a, rnd := r, p := p, y := y, z := z } ∧
      t.k = s.k ∧ t.kbuf = s.kbuf ∧ t.klen = s.klen ∧ t.sum = s.sum ∧ t.rnd = s.rnd ∧ t.p = s.p ∧ t.y = s.y ∧
      t.z = s.z

/-- 40_word_packer.md R126: the length that `PACKL` embeds always satisfies the check that `UNPACKL` makes, and R135:
the accepted lengths are the integers `max(0, nb - 3) .. nb`. -/
def Obligations.EmbeddedLengthBound : Prop :=
  (∀ nb m : Nat, lengthAccepted nb m = true ↔ max 0 ((nb : Int) - 3) ≤ (m : Int) ∧ (m : Int) ≤ (nb : Int)) ∧
  ∀ s : State, lengthAccepted (4 * dataWords s) s.blen.toNat = true

/-! ## The mixing function and the engine -/

/-- 42_mixing_function.md R165 to R168: `MX` in the arithmetic of 00_scope.md R8: right shifts are floors, left shifts
and additions are modulo `2^32`, and the key word is the one that `(p & 3) ^ e` selects. -/
def Obligations.MixingFunctionArithmetic : Prop :=
  ∀ (s y z p : Word) (e : BitVec 2) (k : KeyFile), ∃ idx : Fin 4,
    idx.val = (p.toNat % 4) ^^^ e.toNat ∧
    (mx s y z p e k).toNat =
      ((((z.toNat / 32) ^^^ (4 * y.toNat % 2 ^ 32)) + ((y.toNat / 8) ^^^ (16 * z.toNat % 2 ^ 32))) % 2 ^ 32) ^^^
      (((s.toNat ^^^ y.toNat) + ((k.get idx).toNat ^^^ z.toNat)) % 2 ^ 32)

/-- 43_cipher_engine.md R182: the complete table of the round count, over every `len ≥ 1`. -/
def Obligations.RoundCountTable : Prop :=
  ∀ len : Nat, 1 ≤ len → 6 ≤ roundCount len ∧ roundCount len ≤ 58 ∧
    roundCount len =
      if len = 1 then 58 else if len = 2 then 32 else if len = 3 then 23 else if len = 4 then 19
      else if len = 5 then 16 else if len = 6 then 14 else if len = 7 then 13 else if len = 8 then 12
      else if len ≤ 10 then 11 else if len ≤ 13 then 10 else if len ≤ 17 then 9 else if len ≤ 26 then 8
      else if len ≤ 52 then 7 else 6

/-- 43_cipher_engine.md R200: the source's exit test of the decryption loop, `SUM` = 0, and this spec's, `RND` = 0,
agree at every `E_ROUND` of a running `DECW` or `DECRYPT`; and the step there goes on to another round exactly when
`SUM` is not 0. -/
def Obligations.ExitTestsAgree : Prop :=
  ∀ s : State, Inv s → EngineScheduled s → Running .decw s ∨ Running .decrypt s → enginePlace s = some .round →
    (s.sum = 0 ↔ s.rnd = 0) ∧
    ∃ t, step s = .next t ∧ (enginePlace t = some .word ↔ s.sum ≠ 0) ∧ (enginePlace t = none ↔ s.sum = 0)

/-- 43_cipher_engine.md R189, R190: a completed `ENCW`: the engine registers it leaves, and its frame; and its two
errors. `oneWord r` is the word of a one-word array after `r` rounds, so that `Y` is what it held before the last update.
The words of longer arrays are what the step-level machine computes (`EngineStepsReachCommandResult`). -/
def Obligations.EncwLeavesEngineRegisters : Prop :=
  decode 0x00000004 = .ok .encw ∧
  ∀ s : State,
    let len := s.wlen.toNat
    let oneWord (rounds : Nat) : Word := forUp (fun r w =>
      let sum := BitVec.ofNat 32 (r + 1) * delta
      w + mx sum w w 0 (roundIndex sum) s.k) rounds (vAt s 0)
    (len = 0 → exec .encw s = .next { s with status := 0x42, phase := .idle }) ∧
    (1 ≤ len → s.cap.toNat < len → exec .encw s = .next { s with status := 0x32, phase := .idle }) ∧
    (1 ≤ len → len ≤ s.cap.toNat → ∃ t, exec .encw s = .next t ∧
      t = { s with v := t.v, sum := BitVec.ofNat 32 ((6 + 52 / len) * 0x9E3779B9), rnd := 0,
                   p := BitVec.ofNat 32 (len - 1), y := t.y, z := vAt t (len - 1), status := 0x2, phase := .idle } ∧
      (∀ j, len ≤ j → vAt t j = vAt s j) ∧
      (2 ≤ len → t.y = vAt t 0) ∧
      (len = 1 → t.y = oneWord 57 ∧ vAt t 0 = oneWord 58))

/-- 43_cipher_engine.md R201: a completed `DECW`: the engine registers it leaves, and its frame; and its two
errors. `oneWord r` is the word of a one-word array after `r` rounds. -/
def Obligations.DecwLeavesEngineRegisters : Prop :=
  decode 0x00000005 = .ok .decw ∧
  ∀ s : State,
    let len := s.wlen.toNat
    let oneWord (rounds : Nat) : Word := forUp (fun r w =>
      let sum := BitVec.ofNat 32 (58 - r) * delta
      w - mx sum w w 0 (roundIndex sum) s.k) rounds (vAt s 0)
    (len = 0 → exec .decw s = .next { s with status := 0x42, phase := .idle }) ∧
    (1 ≤ len → s.cap.toNat < len → exec .decw s = .next { s with status := 0x32, phase := .idle }) ∧
    (1 ≤ len → len ≤ s.cap.toNat → ∃ t, exec .decw s = .next t ∧
      t = { s with v := t.v, sum := 0, rnd := 0, p := 0, y := vAt t 0, z := t.z, status := 0x2, phase := .idle } ∧
      (∀ j, len ≤ j → vAt t j = vAt s j) ∧
      (2 ≤ len → t.z = vAt t (len - 1)) ∧
      (len = 1 → t.z = oneWord 57 ∧ vAt t 0 = oneWord 58))

/-- 43_cipher_engine.md R206: each row of the step table of `ENCW`, with its action written out. -/
def Obligations.EncwStepTable : Prop :=
  ∀ s : State, busy s = true → decode s.cmd = .ok .encw → ArrayFits s →
    let len := s.wlen.toNat
    (s.phase = .engine .load →
      step s = .next { s with rnd := BitVec.ofNat 32 (6 + 52 / len), sum := 0, z := vAt s (len - 1),
                              phase := .engine .round }) ∧
    (s.phase = .engine .round → s.rnd ≠ 0 →
      step s = .next { s with sum := s.sum + delta, p := 0, phase := .engine .word }) ∧
    (s.phase = .engine .round → s.rnd = 0 → step s = .next { s with status := 0x2, phase := .idle }) ∧
    (s.phase = .engine .word → s.p.toNat < len →
      let y := vAt s ((s.p.toNat + 1) % len)
      let w := vAt s s.p.toNat + mx s.sum y s.z s.p ((s.sum >>> 2).setWidth 2) s.k
      (s.p.toNat < len - 1 → step s = .next { setV s.p.toNat w s with
        y := y, z := w, p := s.p + 1, phase := .engine .word }) ∧
      (s.p.toNat = len - 1 → step s = .next { setV s.p.toNat w s with
        y := y, z := w, rnd := s.rnd - 1, phase := .engine .round }))

/-- 43_cipher_engine.md R209: each row of the step table of `DECW`, with its action written out. -/
def Obligations.DecwStepTable : Prop :=
  ∀ s : State, busy s = true → decode s.cmd = .ok .decw → ArrayFits s →
    let len := s.wlen.toNat
    (s.phase = .engine .load →
      step s = .next { s with rnd := BitVec.ofNat 32 (6 + 52 / len),
                              sum := BitVec.ofNat 32 ((6 + 52 / len) * 0x9E3779B9), y := vAt s 0,
                              phase := .engine .round }) ∧
    (s.phase = .engine .round → s.rnd ≠ 0 →
      step s = .next { s with p := BitVec.ofNat 32 (len - 1), phase := .engine .word }) ∧
    (s.phase = .engine .round → s.rnd = 0 → step s = .next { s with status := 0x2, phase := .idle }) ∧
    (s.phase = .engine .word → s.p.toNat < len →
      let z := vAt s ((s.p.toNat + len - 1) % len)
      let w := vAt s s.p.toNat - mx s.sum s.y z s.p ((s.sum >>> 2).setWidth 2) s.k
      (0 < s.p.toNat → step s = .next { setV s.p.toNat w s with
        z := z, y := w, p := s.p - 1, phase := .engine .word }) ∧
      (s.p.toNat = 0 → step s = .next { setV s.p.toNat w s with
        z := z, y := w, sum := s.sum - delta, rnd := s.rnd - 1, phase := .engine .round }))

/-- 43_cipher_engine.md R212: the step-level machine of `ENCW` and of `DECW` reaches idle after exactly
`2 + q * (1 + len)` steps, and the state it reaches is the one the big-step rule gives. -/
def Obligations.EngineStepsReachCommandResult : Prop :=
  ∀ (s : State) (i : Instr), i = .encw ∨ i = .decw → busy s = true → decode s.cmd = .ok i →
    s.phase = .engine .load → 1 ≤ s.wlen.toNat → s.wlen.toNat ≤ s.cap.toNat →
    let n := 2 + (6 + 52 / s.wlen.toNat) * (1 + s.wlen.toNat)
    ∃ t, exec i s = .next t ∧ Host.Core.run core n s = .next t ∧
      ∀ j, j < n → ∃ u : State, Host.Core.run core j s = .next u ∧ busy u = true

/-- 44_facade_commands.md R230: the phases of a composite command reach the state its big-step rule gives. From
`F_CHECK`, when a test ends the command (`BLEN` = 0, `SHAPE`, `CAPACITY`) that takes the one step; else each body is one
step but the engine's. That the body of the packer and of the key loader is one step, which R230 permits, and so the
count, is the model's choice (log 19). -/
def Obligations.CompositeStepsReachCommandResult : Prop :=
  ∀ (s : State) (i : Instr), busy s = true → decode s.cmd = .ok i → s.phase = .fCheck →
    ((i = .encrypt ∧ ¬ EncryptFits s) ∨ (i = .decrypt ∧ ¬ DecryptFits s) →
      ∃ t, exec i s = .next t ∧ step s = .next t ∧ busy t = false) ∧
    ∀ len : Nat,
      (i = .encrypt ∧ EncryptFits s ∧ len = dataWords s + 1) ∨
        (i = .decrypt ∧ DecryptFits s ∧ len = s.blen.toNat / 4) →
      let n := 3 + (2 + (6 + 52 / len) * (1 + len)) + 1
      ∃ t, exec i s = .next t ∧ Host.Core.run core n s = .next t ∧
        ∀ j, j < n → ∃ u : State, Host.Core.run core j s = .next u ∧ busy u = true

/-- 43_cipher_engine.md R202: for two words or more `DECW` undoes `ENCW` and `ENCW` undoes `DECW`, for every key and
array; for one word they are not inverses. -/
def Obligations.EncwAndDecwAreInverse : Prop :=
  (∀ s : State, 2 ≤ s.wlen.toNat → s.wlen.toNat ≤ s.cap.toNat →
    (∃ t u, exec .encw s = .next t ∧ exec .decw t = .next u ∧ ∀ j, vAt u j = vAt s j) ∧
    (∃ t u, exec .decw s = .next t ∧ exec .encw t = .next u ∧ ∀ j, vAt u j = vAt s j)) ∧
  ∃ s t u : State, s.wlen = 1 ∧ s.k = ⟨0, 0, 0, 0⟩ ∧ vAt s 0 = 0 ∧ exec .encw s = .next t ∧
    vAt t 0 = 0xACC927B6 ∧ exec .decw t = .next u ∧ vAt u 0 = 0x9825C7F5

/-- 10_state.md R27: no engine register is read before the same command has written it: `ENCW` and `DECW` give the
same state whatever the engine registers held. -/
def Obligations.EngineRegistersNotReadBeforeWritten : Prop :=
  ∀ (s : State) (i : Instr) (a y z p r : Word), i = .encw ∨ i = .decw →
    1 ≤ s.wlen.toNat → s.wlen.toNat ≤ s.cap.toNat →
    ∃ t, exec i s = .next t ∧ exec i { s with sum := a, y := y, z := z, p := p, rnd := r } = .next t

/-- 30_encoding.md R94, 43_cipher_engine.md R189: `ENCW` and `DECW` neither read nor write `BUF`, `BLEN`, `KBUF`,
`KLEN`. -/
def Obligations.EngineIgnoresByteSide : Prop :=
  ∀ (s : State) (i : Instr) (b kb : Memory Byte) (bl kl : Word), i = .encw ∨ i = .decw →
    ∃ t, exec i s = .next t ∧
      exec i { s with buf := b, kbuf := kb, blen := bl, klen := kl } =
        .next { t with buf := b, kbuf := kb, blen := bl, klen := kl } ∧
      t.buf = s.buf ∧ t.kbuf = s.kbuf ∧ t.blen = s.blen ∧ t.klen = s.klen

/-! ## The composite commands -/

/-- 44_facade_commands.md R223: with `BLEN` = 0 both composite commands complete with `OK` and change nothing but
`STATUS`. -/
def Obligations.EmptyBufferIsIdentity : Prop :=
  ∀ (s : State) (i : Instr), i = .encrypt ∨ i = .decrypt → s.blen = 0 →
    exec i s = .next { s with status := 0x2, phase := .idle }

/-- 44_facade_commands.md R226: a non-zero `BLEN` that is not a multiple of 4 ends `DECRYPT` in `SHAPE` before
anything is written; the primitive `PACK` has no shape check. -/
def Obligations.DecryptRejectsBadShape : Prop :=
  ∀ s : State,
    (s.blen ≠ 0 → s.blen.toNat % 4 ≠ 0 → exec .decrypt s = .next { s with status := 0x22, phase := .idle }) ∧
    (∀ t, exec .decrypt s = .next t → t.status = 0x22 → s.blen ≠ 0 ∧ s.blen.toNat % 4 ≠ 0) ∧
    (∀ t, exec .pack s = .next t → t.status ≠ 0x22)

/-- 44_facade_commands.md R221, R224: `ENCRYPT` with a non-empty buffer runs the bodies of `KEYLD`, `PACKL`, `ENCW` and
`UNPACK`; the state it leaves, the ciphertext's length and bytes, its error, its frame. -/
def Obligations.EncryptRunsItsBodies : Prop :=
  decode 0x00000006 = .ok .encrypt ∧
  ∀ s : State,
    let nw := (s.blen.toNat + 3) / 4
    (s.blen = 0 → exec .encrypt s = .next { s with status := 0x2, phase := .idle }) ∧
    (s.blen ≠ 0 → s.cap.toNat < nw + 1 → exec .encrypt s = .next { s with status := 0x32, phase := .idle }) ∧
    (s.blen ≠ 0 → nw + 1 ≤ s.cap.toNat → ∃ a b c t,
      exec .keyld s = .next a ∧ exec .packl a = .next b ∧ exec .encw b = .next c ∧ exec .unpack c = .next t ∧
      exec .encrypt s = .next t ∧
      t = { s with k := keyWords s, wlen := BitVec.ofNat 32 (nw + 1), v := c.v, buf := t.buf,
                   blen := BitVec.ofNat 32 (4 * (nw + 1)),
                   sum := BitVec.ofNat 32 ((6 + 52 / (nw + 1)) * 0x9E3779B9), rnd := 0, p := BitVec.ofNat 32 nw,
                   y := vAt t 0, z := vAt t nw, status := 0x2, phase := .idle } ∧
      (CapLegal s → t.blen.toNat = 4 * ((s.blen.toNat + 3) / 4 + 1) ∧
        t.blen.toNat = 4 * ((s.blen.toNat + 4 + 3) / 4)) ∧
      (∀ j, nw + 1 ≤ j → vAt t j = vAt s j) ∧
      ∀ i, bufAt t i = if i < 4 * (nw + 1) then arrayByte (vAt t) i else bufAt s i)

/-- 44_facade_commands.md R225, R227, R229: `DECRYPT` with a non-zero multiple of 4 within capacity runs the bodies of
`KEYLD`, `PACK`, `DECW` and `UNPACKL`; the state it leaves on success and on `CORRUPT`; its errors, in order. -/
def Obligations.DecryptRunsItsBodies : Prop :=
  decode 0x00000007 = .ok .decrypt ∧
  ∀ s : State,
    let len := s.blen.toNat / 4
    (s.blen = 0 → exec .decrypt s = .next { s with status := 0x2, phase := .idle }) ∧
    (s.blen ≠ 0 → s.blen.toNat % 4 ≠ 0 → exec .decrypt s = .next { s with status := 0x22, phase := .idle }) ∧
    (s.blen ≠ 0 → s.blen.toNat % 4 = 0 → s.cap.toNat < len →
      exec .decrypt s = .next { s with status := 0x32, phase := .idle }) ∧
    (s.blen ≠ 0 → s.blen.toNat % 4 = 0 → len ≤ s.cap.toNat → ∃ a b c t,
      exec .keyld s = .next a ∧ exec .pack a = .next b ∧ exec .decw b = .next c ∧ exec .unpackl c = .next t ∧
      exec .decrypt s = .next t ∧
      c = { s with k := keyWords s, wlen := BitVec.ofNat 32 len, v := c.v, sum := 0, rnd := 0, p := 0,
                   y := vAt c 0, z := c.z, status := 0x2, phase := .idle } ∧
      (2 ≤ len → c.z = vAt c (len - 1)) ∧
      let m := (vAt c (len - 1)).toNat
      ((m + 3 < 4 * (len - 1) ∨ 4 * (len - 1) < m) → t = { c with status := 0x12 }) ∧
      (4 * (len - 1) ≤ m + 3 → m ≤ 4 * (len - 1) →
        t = { c with buf := t.buf, blen := vAt c (len - 1) } ∧
        ∀ i, bufAt t i = if i < m then arrayByte (vAt c) i else bufAt s i))

/-- 44_facade_commands.md R222: `ENCRYPT` with a non-empty buffer has the effect of the host script
`RUN KEYLD; RUN PACKL; RUN ENCW; RUN UNPACK` on every piece of state except `CMD`. -/
def Obligations.EncryptIsItsScript : Prop :=
  ∀ s : State, busy s = false → EncryptFits s → ∃ t vals vals',
    runScript (runCommand .encrypt) s = .next (t, vals) ∧ t.cmd = 0x00000006 ∧
    runScript (runCommand .keyld ++ runCommand .packl ++ runCommand .encw ++ runCommand .unpack) s =
      .next ({ t with cmd := 0x00000003 }, vals')

/-- 44_facade_commands.md R227: `DECRYPT` with a non-zero multiple of 4 within capacity has the effect of the host
script `RUN KEYLD; RUN PACK; RUN DECW; RUN UNPACKL` on every piece of state except `CMD`. -/
def Obligations.DecryptIsItsScript : Prop :=
  ∀ s : State, busy s = false → DecryptFits s → ∃ t vals vals',
    runScript (runCommand .decrypt) s = .next (t, vals) ∧ t.cmd = 0x00000007 ∧
    runScript (runCommand .keyld ++ runCommand .pack ++ runCommand .decw ++ runCommand .unpackl) s =
      .next ({ t with cmd := 0x00000013 }, vals')

/-- 44_facade_commands.md R228 (a): `DECRYPT` after `ENCRYPT` gives back every byte buffer from 0 to
`4 * (MAXW - 1)` bytes, for every key. -/
def Obligations.DecryptUndoesEncrypt : Prop :=
  ∀ s : State, CapLegal s → s.blen.toNat ≤ 4 * (s.cap.toNat - 1) → ∃ t u,
    exec .encrypt s = .next t ∧ exec .decrypt t = .next u ∧ t.status = 0x2 ∧ u.status = 0x2 ∧
    u.blen = s.blen ∧ ∀ i, i < s.blen.toNat → bufAt u i = bufAt s i

/-- 30_encoding.md R94, 44_facade_commands.md R220: what the composite commands answer (`STATUS`, `BLEN` and the bytes
of the buffer) depends only on the capacity, the buffer's bytes and the first `min(KLEN, 16)` key bytes: on no old
content of `V`, `WLEN`, `K`, the engine registers, or cells beyond the lengths. -/
def Obligations.CompositesReadOnlyTheirOperands : Prop :=
  ∀ (s u : State) (i : Instr), i = .encrypt ∨ i = .decrypt → s.cap = u.cap → s.blen = u.blen →
    (∀ j, j < s.blen.toNat → bufAt s j = bufAt u j) →
    min s.klen.toNat 16 = min u.klen.toNat 16 →
    (∀ j, j < min s.klen.toNat 16 → kbufAt s j = kbufAt u j) →
    ∃ t r, exec i s = .next t ∧ exec i u = .next r ∧ t.status = r.status ∧ t.blen = r.blen ∧
      ∀ j, j < t.blen.toNat → bufAt t j = bufAt r j

/-- 44_facade_commands.md R231, 41_key_loader.md R152, R153: two keys that load the same `K` are the same key to the
composite commands. -/
def Obligations.KeysWithSameWordsAreSameKey : Prop :=
  ∀ (s : State) (i : Instr) (kb : Memory Byte) (kl : Word), i = .encrypt ∨ i = .decrypt →
    keyWords { s with kbuf := kb, klen := kl } = keyWords s →
    ∃ t, exec i s = .next t ∧ exec i { s with kbuf := kb, klen := kl } = .next { t with kbuf := kb, klen := kl }

/-! ## Errors and frames over all commands -/

/-- 60_exceptions.md R266: `CAPACITY`, raised before the command writes anything, under the condition of each of the
eight commands. -/
def Obligations.CapacityRaisedBeforeAnyWrite : Prop :=
  ∀ (s : State) (i : Instr),
    (i = .pack ∧ s.cap.toNat < (s.blen.toNat + 3) / 4) ∨
    (i = .packl ∧ s.cap.toNat < (s.blen.toNat + 3) / 4 + 1) ∨
    (i = .encrypt ∧ s.blen ≠ 0 ∧ s.cap.toNat < (s.blen.toNat + 3) / 4 + 1) ∨
    ((i = .unpack ∨ i = .unpackl ∨ i = .encw ∨ i = .decw) ∧ s.cap.toNat < s.wlen.toNat) ∨
    (i = .decrypt ∧ s.blen ≠ 0 ∧ s.blen.toNat % 4 = 0 ∧ s.cap.toNat < s.blen.toNat / 4) ↔
    exec i s = .next { s with status := 0x32, phase := .idle }

/-- 60_exceptions.md R267: `ZEROLEN`, raised before the command writes anything, by `ENCW`, `DECW` and `UNPACKL` when
`WLEN` = 0; no other command raises it. -/
def Obligations.ZerolenRaisedBeforeAnyWrite : Prop :=
  ∀ (s : State) (i : Instr),
    ((i = .encw ∨ i = .decw ∨ i = .unpackl) ∧ s.wlen = 0 →
      exec i s = .next { s with status := 0x42, phase := .idle }) ∧
    (∀ t, exec i s = .next t → t.status = 0x42 → (i = .encw ∨ i = .decw ∨ i = .unpackl) ∧ s.wlen = 0)

/-- 60_exceptions.md R260, R262: every command, from every state, completes: idle, done, not busy, and with one of the
result codes that R260 lists for it. -/
def Obligations.EveryCommandCompletes : Prop :=
  ∀ (s : State) (i : Instr), ∃ t, exec i s = .next t ∧ t.phase = .idle ∧ busy t = false ∧ done t = true ∧
    match i with
    | .nop     => t.status = 0x2
    | .keyld   => t.status = 0x2
    | .pack    => t.status = 0x2 ∨ t.status = 0x32
    | .packl   => t.status = 0x2 ∨ t.status = 0x32
    | .unpack  => t.status = 0x2 ∨ t.status = 0x32
    | .unpackl => t.status = 0x2 ∨ t.status = 0x12 ∨ t.status = 0x32 ∨ t.status = 0x42
    | .encw    => t.status = 0x2 ∨ t.status = 0x32 ∨ t.status = 0x42
    | .decw    => t.status = 0x2 ∨ t.status = 0x32 ∨ t.status = 0x42
    | .encrypt => t.status = 0x2 ∨ t.status = 0x32
    | .decrypt => t.status = 0x2 ∨ t.status = 0x12 ∨ t.status = 0x22 ∨ t.status = 0x32

/-- 60_exceptions.md R271: after every error the data state is as at issue, but for `CORRUPT` out of `DECRYPT`, after
which `BUF`, `BLEN`, `KBUF`, `KLEN` are as at issue and the rest is as after the `KEYLD`, `PACK` and `DECW` bodies. -/
def Obligations.ErrorsLeaveDataState : Prop :=
  (∀ s : State, busy s = true → s.phase = .run → (∀ i, decode s.cmd ≠ .ok i) →
    step s = .next { s with status := 0x52, phase := .idle }) ∧
  ∀ (s t : State) (i : Instr), exec i s = .next t → t.status ≠ 0x2 →
    (¬ (i = .decrypt ∧ t.status = 0x12) → t = { s with status := t.status, phase := .idle }) ∧
    (i = .decrypt ∧ t.status = 0x12 → ∃ a b c, exec .keyld s = .next a ∧ exec .pack a = .next b ∧
      exec .decw b = .next c ∧ t = { c with status := 0x12 } ∧
      t.buf = s.buf ∧ t.blen = s.blen ∧ t.kbuf = s.kbuf ∧ t.klen = s.klen)

/-- 10_state.md R30, R35, R38, R29: no command changes `CMD`, `CAP`, `KLEN` or `KBUF`; only a command of the table
writes each of the others. -/
def Obligations.CommandsWriteOnlyTheirState : Prop :=
  ∀ (s t : State) (i : Instr), exec i s = .next t →
    t.cmd = s.cmd ∧ t.cap = s.cap ∧ t.klen = s.klen ∧ t.kbuf = s.kbuf ∧ t.resets = s.resets ∧
    (t.blen ≠ s.blen ∨ t.buf ≠ s.buf → i = .unpack ∨ i = .unpackl ∨ i = .encrypt ∨ i = .decrypt) ∧
    (t.wlen ≠ s.wlen → i = .pack ∨ i = .packl ∨ i = .encrypt ∨ i = .decrypt) ∧
    (t.k ≠ s.k → i = .keyld ∨ i = .encrypt ∨ i = .decrypt) ∧
    (t.v ≠ s.v → i = .pack ∨ i = .packl ∨ i = .encw ∨ i = .decw ∨ i = .encrypt ∨ i = .decrypt) ∧
    (t.sum ≠ s.sum ∨ t.rnd ≠ s.rnd ∨ t.p ≠ s.p ∨ t.y ≠ s.y ∨ t.z ≠ s.z →
      i = .encw ∨ i = .decw ∨ i = .encrypt ∨ i = .decrypt)

/-! ## Host accesses -/

/-- 45_host_access.md R240, 10_state.md R29: what a read of each register number returns while idle, and of `STATUS` at
any time, changing no state; while busy every other read is refused. -/
def Obligations.RegisterReads : Prop :=
  ∀ s : State,
    (readReg 1 s = .next (readStatus s)) ∧
    (∀ n w, readReg n s = .next w → hostAct (.readReg n) s = .next (s, .word w)) ∧
    (busy s = false →
      readReg 0 s = .next s.cmd ∧ readReg 2 s = .next s.blen ∧ readReg 3 s = .next s.wlen ∧
      readReg 4 s = .next s.klen ∧ readReg 5 s = .next s.cap ∧ readReg 6 s = .next s.sum ∧
      readReg 7 s = .next s.rnd ∧ readReg 8 s = .next s.p ∧ readReg 16 s = .next s.k.k0 ∧
      readReg 17 s = .next s.k.k1 ∧ readReg 18 s = .next s.k.k2 ∧ readReg 19 s = .next s.k.k3) ∧
    (busy s = true → ∀ n, n ≠ 1 → ∃ r, readReg n s = .refused r)

/-- 10_state.md R31: `STATUS` as read: `BUSY` is bit 0, `DONE` bit 1, `ERR` bits 7:4, and every other bit reads 0. -/
def Obligations.StatusFieldsRead : Prop :=
  ∀ s : State, (readStatus s).getLsbD 0 = busy s ∧ (readStatus s).getLsbD 1 = done s ∧
    (readStatus s).extractLsb' 4 4 = errField s ∧
    (readStatus s).extractLsb' 2 2 = 0 ∧ (readStatus s).extractLsb' 8 24 = 0

/-- 45_host_access.md R241: what a write to each register number does while idle: the lengths and `K` take the value
whole, `CMD` issues, the read-only registers ignore it; while busy every write is refused. -/
def Obligations.RegisterWrites : Prop :=
  ∀ (s : State) (w : Word),
    (busy s = true → ∀ n, ∃ r, writeReg n w s = .refused r) ∧
    (busy s = false →
      writeReg 0 w s = .next (issue w s) ∧
      writeReg 2 w s = .next { s with blen := w } ∧
      writeReg 3 w s = .next { s with wlen := w } ∧
      writeReg 4 w s = .next { s with klen := w } ∧
      (∀ n, n = 1 ∨ n = 5 ∨ n = 6 ∨ n = 7 ∨ n = 8 → writeReg n w s = .next s) ∧
      writeReg 16 w s = .next { s with k := { s.k with k0 := w } } ∧
      writeReg 17 w s = .next { s with k := { s.k with k1 := w } } ∧
      writeReg 18 w s = .next { s with k := { s.k with k2 := w } } ∧
      writeReg 19 w s = .next { s with k := { s.k with k3 := w } })

/-- 45_host_access.md R242 to R245: while idle, every cell of `BUF`, `KBUF` and `V` can be read and written; a read
changes nothing and returns the cell; a write changes that cell and nothing else; while busy every one is refused (70_reset_and_hazards.md R300), an index
out of range too as an access while busy, an order that is the model's choice (log 10). -/
def Obligations.MemoryAccesses : Prop :=
  ∀ (s : State) (i : Nat) (b : Byte) (w : Word),
    (busy s = true → ∀ sp : ByteSpace,
      readByte sp i s = .refused .accessWhileBusy ∧ writeByte sp i b s = .refused .accessWhileBusy ∧
      readWord i s = .refused .accessWhileBusy ∧ writeWord i w s = .refused .accessWhileBusy) ∧
    (busy s = false → i < 4 * s.cap.toNat →
      hostAct (.readByte .buf i) s = .next (s, .byte (bufAt s i)) ∧
      ∃ t, writeByte .buf i b s = .next t ∧ t = { s with buf := t.buf } ∧
        ∀ j, bufAt t j = if j = i then b else bufAt s j) ∧
    (busy s = false → i < 16 →
      hostAct (.readByte .kbuf i) s = .next (s, .byte (kbufAt s i)) ∧
      ∃ t, writeByte .kbuf i b s = .next t ∧ t = { s with kbuf := t.kbuf } ∧
        ∀ j, kbufAt t j = if j = i then b else kbufAt s j) ∧
    (busy s = false → i < s.cap.toNat →
      hostAct (.readWord i) s = .next (s, .word (vAt s i)) ∧
      ∃ t, writeWord i w s = .next t ∧ t = { s with v := t.v } ∧
        ∀ j, vAt t j = if j = i then w else vAt s j)

/-- 45_host_access.md R247, R248 and 70_reset_and_hazards.md R300: the accesses that the spec gives no meaning are
refused: reserved register numbers, indices out of range, and while busy everything but a read of `STATUS` (which
`WAIT` repeats). That a reserved number is named as such while busy too is the model's choice of order (log 10). -/
def Obligations.UndefinedAccessesRefused : Prop :=
  ∀ s : State,
    (∀ (n : Nat) (w : Word), (9 ≤ n ∧ n ≤ 15) ∨ 20 ≤ n →
      readReg n s = .refused (.reservedRegister n) ∧ writeReg n w s = .refused (.reservedRegister n)) ∧
    (∀ (i : Nat) (b : Byte) (w : Word), busy s = false →
      (4 * s.cap.toNat ≤ i → readByte .buf i s = .refused (.indexOutOfRange i) ∧
        writeByte .buf i b s = .refused (.indexOutOfRange i)) ∧
      (16 ≤ i → readByte .kbuf i s = .refused (.indexOutOfRange i) ∧
        writeByte .kbuf i b s = .refused (.indexOutOfRange i)) ∧
      (s.cap.toNat ≤ i → readWord i s = .refused (.indexOutOfRange i) ∧
        writeWord i w s = .refused (.indexOutOfRange i))) ∧
    (∀ a : HostAction, busy s = true → a ≠ .readReg 1 → a ≠ .wait → ∃ r, hostAct a s = .refused r)

/-- 45_host_access.md R249: from every legal state a wait ends, in a legal idle state; from a busy one `DONE` is then
1, and an issued command has done exactly its one step; from an idle one nothing changes. The read that ends it
returns `STATUS`. That a wait is the core's steps and then one read is the model's choice (log 14), and so is that an
issued command is one step (log 1). -/
def Obligations.WaitEnds : Prop :=
  ∀ s : State, Inv s → ∃ t, Machine.wait s = .next (t, readStatus t) ∧ busy t = false ∧ Inv t ∧
    (busy s = true → done t = true) ∧ (busy s = false → t = s) ∧ (s.phase = .run → step s = .next t)

/-- 30_encoding.md R98: `RUN mnemonic` issues the command, runs it, and reads the `STATUS` it leaves. -/
def Obligations.RunCommandRunsIt : Prop :=
  ∀ (s : State) (i : Instr), busy s = false → ∃ t,
    exec i { s with cmd := encode i, status := 0x1, phase := .run } = .next t ∧
    runScript (runCommand i) s = .next (t, [.none, .word t.status])

/-- 30_encoding.md R98: what the loading pseudo-operations leave: the bytes or words from index 0 and the true length,
for a key only its first 16 bytes. (`KLEN` = 16 for a key whose length does not fit 32 bits is the model's choice among
R98's two values: log 22.) -/
def Obligations.LoadScriptsLoad : Prop :=
  ∀ s : State, busy s = false →
    (∀ bs : List Byte, bs.length ≤ 4 * s.cap.toNat → ∃ t vals, runScript (ldbuf bs) s = .next (t, vals) ∧
      t = { s with buf := t.buf, blen := BitVec.ofNat 32 bs.length } ∧
      ∀ i, bufAt t i = bs[i]?.getD (bufAt s i)) ∧
    (∀ bs : List Byte, ∃ t vals, runScript (ldkey bs) s = .next (t, vals) ∧
      t = { s with kbuf := t.kbuf, klen := BitVec.ofNat 32 (if bs.length < 2 ^ 32 then bs.length else 16) } ∧
      ∀ i, kbufAt t i = (bs.take 16)[i]?.getD (kbufAt s i)) ∧
    (∀ ws : List Word, ws.length ≤ s.cap.toNat → ∃ t vals, runScript (ldv ws) s = .next (t, vals) ∧
      t = { s with v := t.v, wlen := BitVec.ofNat 32 ws.length } ∧
      ∀ i, vAt t i = ws[i]?.getD (vAt s i))

/-! ## The step level from issue -/

/-- 43_cipher_engine.md R205, R212, 44_facade_commands.md R221, R225, R230: from every issued command the step-level
machine reaches the state its big-step rule gives, errors included, and is busy before that. An illegal word, a failed
check of `ENCW` or `DECW`, and every command with no schedule take one step; `ENCW` and `DECW` go to `E_INIT` once their
checks have passed; the composite commands go to `F_CHECK`, where a failed test ends them. That dispatch is a step of
its own, which R212 does not count, is the model's choice (log 19). -/
def Obligations.FineStepsReachCommandResult : Prop :=
  (∀ s : State, busy s = true → s.phase = .run → (∀ i, decode s.cmd ≠ .ok i) →
    stepFine s = .next { s with status := 0x52, phase := .idle }) ∧
  ∀ (s : State) (i : Instr), busy s = true → s.phase = .run → decode s.cmd = .ok i →
    let engine (len : Nat) := 2 + (6 + 52 / len) * (1 + len)
    let composite (len : Nat) := 3 + engine len + 1
    let n : Nat := match i with
      | .nop | .keyld | .pack | .packl | .unpack | .unpackl => 1
      | .encw | .decw =>
        1 + if 1 ≤ s.wlen.toNat ∧ s.wlen.toNat ≤ s.cap.toNat then engine s.wlen.toNat else 0
      | .encrypt =>
        1 + if 0 < s.blen.toNat ∧ dataWords s + 1 ≤ s.cap.toNat then composite (dataWords s + 1) else 1
      | .decrypt =>
        1 + if 0 < s.blen.toNat ∧ s.blen.toNat % 4 = 0 ∧ s.blen.toNat / 4 ≤ s.cap.toNat then
          composite (s.blen.toNat / 4) else 1
    (i = .encw ∨ i = .decw → ArrayFits s → stepFine s = .next { s with phase := .engine .load }) ∧
    (i = .encrypt ∨ i = .decrypt → stepFine s = .next { s with phase := .fCheck }) ∧
    ∃ t, exec i s = .next t ∧ busy t = false ∧ Host.Core.run fineCore n s = .next t ∧
      ∀ j, j < n → ∃ u : State, Host.Core.run fineCore j s = .next u ∧ busy u = true
end

