-- ==== Sys2Proof/Laws/State.lean ====
section
/-! SUPPORT. One lemma per field per update of the state, so that no proof unfolds a record update. -/

namespace Sys2Proof.Machine

@[simp] theorem setBuf_sum (i : Nat) (b : Byte) (s : State) : (setBuf i b s).sum = s.sum := rfl
@[simp] theorem setBuf_y (i : Nat) (b : Byte) (s : State) : (setBuf i b s).y = s.y := rfl
@[simp] theorem setBuf_z (i : Nat) (b : Byte) (s : State) : (setBuf i b s).z = s.z := rfl
@[simp] theorem setBuf_p (i : Nat) (b : Byte) (s : State) : (setBuf i b s).p = s.p := rfl
@[simp] theorem setBuf_rnd (i : Nat) (b : Byte) (s : State) : (setBuf i b s).rnd = s.rnd := rfl
@[simp] theorem setBuf_k (i : Nat) (b : Byte) (s : State) : (setBuf i b s).k = s.k := rfl
@[simp] theorem setBuf_cmd (i : Nat) (b : Byte) (s : State) : (setBuf i b s).cmd = s.cmd := rfl
@[simp] theorem setBuf_status (i : Nat) (b : Byte) (s : State) : (setBuf i b s).status = s.status := rfl
@[simp] theorem setBuf_blen (i : Nat) (b : Byte) (s : State) : (setBuf i b s).blen = s.blen := rfl
@[simp] theorem setBuf_wlen (i : Nat) (b : Byte) (s : State) : (setBuf i b s).wlen = s.wlen := rfl
@[simp] theorem setBuf_klen (i : Nat) (b : Byte) (s : State) : (setBuf i b s).klen = s.klen := rfl
@[simp] theorem setBuf_cap (i : Nat) (b : Byte) (s : State) : (setBuf i b s).cap = s.cap := rfl
@[simp] theorem setBuf_buf (i : Nat) (b : Byte) (s : State) : (setBuf i b s).buf = Memory.store s.buf i b := rfl
@[simp] theorem setBuf_v (i : Nat) (b : Byte) (s : State) : (setBuf i b s).v = s.v := rfl
@[simp] theorem setBuf_kbuf (i : Nat) (b : Byte) (s : State) : (setBuf i b s).kbuf = s.kbuf := rfl
@[simp] theorem setBuf_phase (i : Nat) (b : Byte) (s : State) : (setBuf i b s).phase = s.phase := rfl
@[simp] theorem setBuf_resets (i : Nat) (b : Byte) (s : State) : (setBuf i b s).resets = s.resets := rfl

@[simp] theorem setKbuf_sum (i : Nat) (b : Byte) (s : State) : (setKbuf i b s).sum = s.sum := rfl
@[simp] theorem setKbuf_y (i : Nat) (b : Byte) (s : State) : (setKbuf i b s).y = s.y := rfl
@[simp] theorem setKbuf_z (i : Nat) (b : Byte) (s : State) : (setKbuf i b s).z = s.z := rfl
@[simp] theorem setKbuf_p (i : Nat) (b : Byte) (s : State) : (setKbuf i b s).p = s.p := rfl
@[simp] theorem setKbuf_rnd (i : Nat) (b : Byte) (s : State) : (setKbuf i b s).rnd = s.rnd := rfl
@[simp] theorem setKbuf_k (i : Nat) (b : Byte) (s : State) : (setKbuf i b s).k = s.k := rfl
@[simp] theorem setKbuf_cmd (i : Nat) (b : Byte) (s : State) : (setKbuf i b s).cmd = s.cmd := rfl
@[simp] theorem setKbuf_status (i : Nat) (b : Byte) (s : State) : (setKbuf i b s).status = s.status := rfl
@[simp] theorem setKbuf_blen (i : Nat) (b : Byte) (s : State) : (setKbuf i b s).blen = s.blen := rfl
@[simp] theorem setKbuf_wlen (i : Nat) (b : Byte) (s : State) : (setKbuf i b s).wlen = s.wlen := rfl
@[simp] theorem setKbuf_klen (i : Nat) (b : Byte) (s : State) : (setKbuf i b s).klen = s.klen := rfl
@[simp] theorem setKbuf_cap (i : Nat) (b : Byte) (s : State) : (setKbuf i b s).cap = s.cap := rfl
@[simp] theorem setKbuf_buf (i : Nat) (b : Byte) (s : State) : (setKbuf i b s).buf = s.buf := rfl
@[simp] theorem setKbuf_v (i : Nat) (b : Byte) (s : State) : (setKbuf i b s).v = s.v := rfl
@[simp] theorem setKbuf_kbuf (i : Nat) (b : Byte) (s : State) : (setKbuf i b s).kbuf = Memory.store s.kbuf i b := rfl
@[simp] theorem setKbuf_phase (i : Nat) (b : Byte) (s : State) : (setKbuf i b s).phase = s.phase := rfl
@[simp] theorem setKbuf_resets (i : Nat) (b : Byte) (s : State) : (setKbuf i b s).resets = s.resets := rfl

@[simp] theorem setV_sum (i : Nat) (w : Word) (s : State) : (setV i w s).sum = s.sum := rfl
@[simp] theorem setV_y (i : Nat) (w : Word) (s : State) : (setV i w s).y = s.y := rfl
@[simp] theorem setV_z (i : Nat) (w : Word) (s : State) : (setV i w s).z = s.z := rfl
@[simp] theorem setV_p (i : Nat) (w : Word) (s : State) : (setV i w s).p = s.p := rfl
@[simp] theorem setV_rnd (i : Nat) (w : Word) (s : State) : (setV i w s).rnd = s.rnd := rfl
@[simp] theorem setV_k (i : Nat) (w : Word) (s : State) : (setV i w s).k = s.k := rfl
@[simp] theorem setV_cmd (i : Nat) (w : Word) (s : State) : (setV i w s).cmd = s.cmd := rfl
@[simp] theorem setV_status (i : Nat) (w : Word) (s : State) : (setV i w s).status = s.status := rfl
@[simp] theorem setV_blen (i : Nat) (w : Word) (s : State) : (setV i w s).blen = s.blen := rfl
@[simp] theorem setV_wlen (i : Nat) (w : Word) (s : State) : (setV i w s).wlen = s.wlen := rfl
@[simp] theorem setV_klen (i : Nat) (w : Word) (s : State) : (setV i w s).klen = s.klen := rfl
@[simp] theorem setV_cap (i : Nat) (w : Word) (s : State) : (setV i w s).cap = s.cap := rfl
@[simp] theorem setV_buf (i : Nat) (w : Word) (s : State) : (setV i w s).buf = s.buf := rfl
@[simp] theorem setV_v (i : Nat) (w : Word) (s : State) : (setV i w s).v = Memory.store s.v i w := rfl
@[simp] theorem setV_kbuf (i : Nat) (w : Word) (s : State) : (setV i w s).kbuf = s.kbuf := rfl
@[simp] theorem setV_phase (i : Nat) (w : Word) (s : State) : (setV i w s).phase = s.phase := rfl
@[simp] theorem setV_resets (i : Nat) (w : Word) (s : State) : (setV i w s).resets = s.resets := rfl

@[simp] theorem setK_sum (j : Fin 4) (w : Word) (s : State) : (setK j w s).sum = s.sum := rfl
@[simp] theorem setK_y (j : Fin 4) (w : Word) (s : State) : (setK j w s).y = s.y := rfl
@[simp] theorem setK_z (j : Fin 4) (w : Word) (s : State) : (setK j w s).z = s.z := rfl
@[simp] theorem setK_p (j : Fin 4) (w : Word) (s : State) : (setK j w s).p = s.p := rfl
@[simp] theorem setK_rnd (j : Fin 4) (w : Word) (s : State) : (setK j w s).rnd = s.rnd := rfl
@[simp] theorem setK_k (j : Fin 4) (w : Word) (s : State) : (setK j w s).k = s.k.set j w := rfl
@[simp] theorem setK_cmd (j : Fin 4) (w : Word) (s : State) : (setK j w s).cmd = s.cmd := rfl
@[simp] theorem setK_status (j : Fin 4) (w : Word) (s : State) : (setK j w s).status = s.status := rfl
@[simp] theorem setK_blen (j : Fin 4) (w : Word) (s : State) : (setK j w s).blen = s.blen := rfl
@[simp] theorem setK_wlen (j : Fin 4) (w : Word) (s : State) : (setK j w s).wlen = s.wlen := rfl
@[simp] theorem setK_klen (j : Fin 4) (w : Word) (s : State) : (setK j w s).klen = s.klen := rfl
@[simp] theorem setK_cap (j : Fin 4) (w : Word) (s : State) : (setK j w s).cap = s.cap := rfl
@[simp] theorem setK_buf (j : Fin 4) (w : Word) (s : State) : (setK j w s).buf = s.buf := rfl
@[simp] theorem setK_v (j : Fin 4) (w : Word) (s : State) : (setK j w s).v = s.v := rfl
@[simp] theorem setK_kbuf (j : Fin 4) (w : Word) (s : State) : (setK j w s).kbuf = s.kbuf := rfl
@[simp] theorem setK_phase (j : Fin 4) (w : Word) (s : State) : (setK j w s).phase = s.phase := rfl
@[simp] theorem setK_resets (j : Fin 4) (w : Word) (s : State) : (setK j w s).resets = s.resets := rfl

@[simp] theorem issue_sum (w : Word) (s : State) : (issue w s).sum = s.sum := rfl
@[simp] theorem issue_y (w : Word) (s : State) : (issue w s).y = s.y := rfl
@[simp] theorem issue_z (w : Word) (s : State) : (issue w s).z = s.z := rfl
@[simp] theorem issue_p (w : Word) (s : State) : (issue w s).p = s.p := rfl
@[simp] theorem issue_rnd (w : Word) (s : State) : (issue w s).rnd = s.rnd := rfl
@[simp] theorem issue_k (w : Word) (s : State) : (issue w s).k = s.k := rfl
@[simp] theorem issue_cmd (w : Word) (s : State) : (issue w s).cmd = w := rfl
@[simp] theorem issue_status (w : Word) (s : State) : (issue w s).status = issuedStatus := rfl
@[simp] theorem issue_blen (w : Word) (s : State) : (issue w s).blen = s.blen := rfl
@[simp] theorem issue_wlen (w : Word) (s : State) : (issue w s).wlen = s.wlen := rfl
@[simp] theorem issue_klen (w : Word) (s : State) : (issue w s).klen = s.klen := rfl
@[simp] theorem issue_cap (w : Word) (s : State) : (issue w s).cap = s.cap := rfl
@[simp] theorem issue_buf (w : Word) (s : State) : (issue w s).buf = s.buf := rfl
@[simp] theorem issue_v (w : Word) (s : State) : (issue w s).v = s.v := rfl
@[simp] theorem issue_kbuf (w : Word) (s : State) : (issue w s).kbuf = s.kbuf := rfl
@[simp] theorem issue_phase (w : Word) (s : State) : (issue w s).phase = .run := rfl
@[simp] theorem issue_resets (w : Word) (s : State) : (issue w s).resets = s.resets := rfl

@[simp] theorem complete_sum (e : ErrCode) (s : State) : (complete e s).sum = s.sum := rfl
@[simp] theorem complete_y (e : ErrCode) (s : State) : (complete e s).y = s.y := rfl
@[simp] theorem complete_z (e : ErrCode) (s : State) : (complete e s).z = s.z := rfl
@[simp] theorem complete_p (e : ErrCode) (s : State) : (complete e s).p = s.p := rfl
@[simp] theorem complete_rnd (e : ErrCode) (s : State) : (complete e s).rnd = s.rnd := rfl
@[simp] theorem complete_k (e : ErrCode) (s : State) : (complete e s).k = s.k := rfl
@[simp] theorem complete_cmd (e : ErrCode) (s : State) : (complete e s).cmd = s.cmd := rfl
@[simp] theorem complete_status (e : ErrCode) (s : State) : (complete e s).status = completedStatus e := rfl
@[simp] theorem complete_blen (e : ErrCode) (s : State) : (complete e s).blen = s.blen := rfl
@[simp] theorem complete_wlen (e : ErrCode) (s : State) : (complete e s).wlen = s.wlen := rfl
@[simp] theorem complete_klen (e : ErrCode) (s : State) : (complete e s).klen = s.klen := rfl
@[simp] theorem complete_cap (e : ErrCode) (s : State) : (complete e s).cap = s.cap := rfl
@[simp] theorem complete_buf (e : ErrCode) (s : State) : (complete e s).buf = s.buf := rfl
@[simp] theorem complete_v (e : ErrCode) (s : State) : (complete e s).v = s.v := rfl
@[simp] theorem complete_kbuf (e : ErrCode) (s : State) : (complete e s).kbuf = s.kbuf := rfl
@[simp] theorem complete_phase (e : ErrCode) (s : State) : (complete e s).phase = .idle := rfl
@[simp] theorem complete_resets (e : ErrCode) (s : State) : (complete e s).resets = s.resets := rfl

/-- Taking an error is completion with its code (60_exceptions.md R262). -/
@[simp] theorem raise_eq_complete (e : ErrCode) (s : State) : raise e s = complete e s := rfl

@[simp] theorem andThen_next {α β : Type} (a : α) (f : α → Host.Outcome β Fault Refusal) :
    andThen (.next a) f = f a := rfl

@[simp] theorem andThen_fault {α β : Type} (r : Fault) (f : α → Host.Outcome β Fault Refusal) :
    andThen (.fault r) f = .fault r := rfl

@[simp] theorem andThen_refused {α β : Type} (r : Refusal) (f : α → Host.Outcome β Fault Refusal) :
    andThen (.refused r) f = .refused r := rfl

/-- A completed action answered a next state at both of its parts. -/
theorem andThen_eq_next {α β : Type} {r : Host.Outcome α Fault Refusal} {f : α → Host.Outcome β Fault Refusal}
    {b : β} (h : andThen r f = .next b) : ∃ a, r = .next a ∧ f a = .next b := by
  cases r with
  | next a => exact ⟨a, rfl, h⟩
  | fault _ => simp at h
  | refused _ => simp at h

end Sys2Proof.Machine
end

