-- ==== Sys2Proof/Laws/Memory.lean ====
section
/-! SUPPORT. The laws of the memories: a read after a write to the same cell gives the value written, a write leaves
every other cell alone, and every write keeps the canonical form. -/

namespace Sys2Proof.Machine

variable {α : Type}

@[simp] theorem cell?_nil (a : Nat) : Memory.cell? ([] : Memory α) a = none := rfl

/-- What a cell holds after a write of any cell. -/
theorem cell?_store (m : Memory α) (a b : Nat) (x : α) :
    Memory.cell? (Memory.store m a x) b = if b = a then some x else Memory.cell? m b := by
  induction m with
  | nil => simp [Memory.store, Memory.cell?]
  | cons c m ih =>
    obtain ⟨d, y⟩ := c
    simp only [Memory.store]
    split
    · simp [Memory.cell?]
    · split
      · rename_i _ h
        subst h
        by_cases hb : b = a <;> simp [Memory.cell?, hb]
      · rename_i h1 h2
        by_cases hb : b = d
        · have : b ≠ a := by omega
          simp [Memory.cell?, hb]
          omega
        · simp [Memory.cell?, hb, ih]

/-- A property of all addresses survives a write of an address that has it. -/
theorem all_store (P : Nat → Bool) (m : Memory α) (a : Nat) (x : α) (h : m.all (fun c => P c.1) = true)
    (ha : P a = true) : (Memory.store m a x).all (fun c => P c.1) = true := by
  induction m with
  | nil => simp [Memory.store, ha]
  | cons c m ih =>
    obtain ⟨d, y⟩ := c
    simp only [List.all_cons, Bool.and_eq_true] at h
    simp only [Memory.store]
    split
    · simp [ha, h.1, h.2]
    · split
      · simp [ha, h.2]
      · simp [h.1, ih h.2]

/-- A write inside a space lists no cell outside it. -/
theorem below_store (m : Memory α) (a n : Nat) (x : α) (h : m.below n = true) (ha : a < n) :
    (Memory.store m a x).below n = true :=
  all_store (fun b => decide (b < n)) m a x h (by simpa using ha)

/-- Every write keeps the canonical form. -/
theorem wf_store (m : Memory α) (a : Nat) (x : α) (h : m.wf = true) : (Memory.store m a x).wf = true := by
  induction m with
  | nil => simp [Memory.store, Memory.wf]
  | cons c m ih =>
    obtain ⟨d, y⟩ := c
    simp only [Memory.wf, Bool.and_eq_true] at h
    simp only [Memory.store]
    split
    · rename_i hlt
      simp only [Memory.wf, Bool.and_eq_true, List.all_cons, List.all_eq_true, decide_eq_true_eq] at h ⊢
      exact ⟨⟨hlt, fun e he => Nat.lt_trans hlt (h.1 e he)⟩, h.1, h.2⟩
    · split
      · rename_i _ heq
        subst heq
        simpa [Memory.wf] using h
      · rename_i h1 h2
        simp only [Memory.wf, Bool.and_eq_true]
        exact ⟨all_store (fun b => decide (d < b)) m a x h.1 (by simp; omega), ih h.2⟩

@[simp] theorem wf_nil : Memory.wf ([] : Memory α) = true := rfl

@[simp] theorem below_nil (n : Nat) : Memory.below ([] : Memory α) n = true := rfl

/-- `BUF` after a write of `BUF[i]`. -/
theorem bufAt_setBuf (i j : Nat) (b : Byte) (s : State) :
    bufAt (setBuf i b s) j = if j = i then b else bufAt s j := by
  unfold bufAt
  rw [setBuf_buf, setBuf_resets, cell?_store]
  split <;> rfl

/-- `KBUF` after a write of `KBUF[i]`. -/
theorem kbufAt_setKbuf (i j : Nat) (b : Byte) (s : State) :
    kbufAt (setKbuf i b s) j = if j = i then b else kbufAt s j := by
  unfold kbufAt
  rw [setKbuf_kbuf, setKbuf_resets, cell?_store]
  split <;> rfl

/-- `V` after a write of `V[i]`. -/
theorem vAt_setV (i j : Nat) (w : Word) (s : State) :
    vAt (setV i w s) j = if j = i then w else vAt s j := by
  unfold vAt
  rw [setV_v, setV_resets, cell?_store]
  split <;> rfl

/-- A read of `BUF` sees only `BUF` (and the reset that left its unwritten cells). -/
theorem bufAt_congr {s t : State} (h : t.buf = s.buf) (hr : t.resets = s.resets) (i : Nat) :
    bufAt t i = bufAt s i := by simp [bufAt, h, hr]

/-- A read of `KBUF` sees only `KBUF`. -/
theorem kbufAt_congr {s t : State} (h : t.kbuf = s.kbuf) (hr : t.resets = s.resets) (i : Nat) :
    kbufAt t i = kbufAt s i := by simp [kbufAt, h, hr]

/-- A read of `V` sees only `V`. -/
theorem vAt_congr {s t : State} (h : t.v = s.v) (hr : t.resets = s.resets) (i : Nat) :
    vAt t i = vAt s i := by simp [vAt, h, hr]

/-- `K` after a write of `K[i]`. -/
theorem KeyFile.get_set (k : KeyFile) (i j : Fin 4) (w : Word) :
    (k.set i w).get j = if j = i then w else k.get j := by
  fin_cases i <;> fin_cases j <;> rfl

end Sys2Proof.Machine
end

