-- ==== Sys2Proof/Laws/Loops.lean ====
section
/-! SUPPORT. The loops of the pseudocode: what a loop keeps, said once. -/

namespace Sys2Proof.Machine

variable {σ β : Type}

@[simp] theorem forUp_zero (f : Nat → σ → σ) (s : σ) : forUp f 0 s = s := rfl

@[simp] theorem forUp_succ (f : Nat → σ → σ) (n : Nat) (s : σ) : forUp f (n + 1) s = f n (forUp f n s) := rfl

@[simp] theorem forDown_zero (f : Nat → σ → σ) (s : σ) : forDown f 0 s = s := rfl

@[simp] theorem forDown_succ (f : Nat → σ → σ) (n : Nat) (s : σ) :
    forDown f (n + 1) s = forDown f n (f n s) := rfl

/-- A rising loop reaches `P n` when it starts at `P 0` and iteration `i` leads from `P i` to `P (i + 1)`. -/
theorem forUp_inv {f : Nat → σ → σ} (P : Nat → σ → Prop) {n : Nat} {s : σ} (h0 : P 0 s)
    (hstep : ∀ i t, i < n → P i t → P (i + 1) (f i t)) : P n (forUp f n s) := by
  induction n with
  | zero => exact h0
  | succ n ih => exact hstep n _ (Nat.lt_succ_self n) (ih fun i t hi => hstep i t (Nat.lt_succ_of_lt hi))

/-- A falling loop reaches `P 0` when it starts at `P n` and iteration `i` leads from `P (i + 1)` to `P i`. -/
theorem forDown_inv {f : Nat → σ → σ} (P : Nat → σ → Prop) {n : Nat} {s : σ} (h0 : P n s)
    (hstep : ∀ i t, i < n → P (i + 1) t → P i (f i t)) : P 0 (forDown f n s) := by
  induction n generalizing s with
  | zero => exact h0
  | succ n ih =>
    exact ih (hstep n s (Nat.lt_succ_self n) h0) fun i t hi => hstep i t (Nat.lt_succ_of_lt hi)

/-- What no iteration of a rising loop changes, the loop leaves unchanged. -/
theorem forUp_keeps {f : Nat → σ → σ} (g : σ → β) (h : ∀ i t, g (f i t) = g t) (n : Nat) (s : σ) :
    g (forUp f n s) = g s :=
  forUp_inv (fun _ t => g t = g s) rfl fun i t _ ht => (h i t).trans ht

/-- What no iteration of a falling loop changes, the loop leaves unchanged. -/
theorem forDown_keeps {f : Nat → σ → σ} (g : σ → β) (h : ∀ i t, g (f i t) = g t) (n : Nat) (s : σ) :
    g (forDown f n s) = g s :=
  forDown_inv (fun _ t => g t = g s) rfl fun i t _ ht => (h i t).trans ht

end Sys2Proof.Machine
end

