-- ==== Sys2Proof/Laws/Bodies.lean ====
section
/-! SUPPORT. What each command body may write, said once per body: the body's result is the state it started from
with only the named fields replaced (30_encoding.md R94). -/

namespace Sys2Proof.Machine

/-- The packing loops write `V` and nothing else. -/
theorem packWords_frame (s : State) : packWords s = { s with v := (packWords s).v } := by
  unfold packWords
  refine forUp_inv (fun _ (t : State) => t = { s with v := t.v }) ?_ ?_
  · exact forUp_inv (fun _ (t : State) => t = { s with v := t.v }) rfl fun _ t _ h => by rw [h]; rfl
  · intro _ t _ h
    rw [h]
    rfl

/-- The body of `PACK` writes `V` and `WLEN`. -/
theorem packBody_frame (s : State) :
    packBody s = { s with v := (packBody s).v, wlen := BitVec.ofNat 32 (dataWords s) } := by
  unfold packBody
  rw [packWords_frame s]

/-- The body of `PACKL` writes `V` and `WLEN`. -/
theorem packlBody_frame (s : State) :
    packlBody s = { s with v := (packlBody s).v, wlen := BitVec.ofNat 32 (dataWords s + 1) } := by
  unfold packlBody
  rw [packWords_frame s]
  rfl

/-- The unpacking loop writes `BUF`, and `BLEN` takes the number of bytes. -/
theorem unpackBytes_frame (n : Nat) (s : State) :
    unpackBytes n s = { s with buf := (unpackBytes n s).buf, blen := BitVec.ofNat 32 n } := by
  have h : forUp unpackByte n s = { s with buf := (forUp unpackByte n s).buf } :=
    forUp_inv (fun _ (t : State) => t = { s with buf := t.buf }) rfl fun _ t _ h => by rw [h]; rfl
  unfold unpackBytes
  rw [h]

/-- The body of `KEYLD` writes `K`. -/
theorem keyBody_frame (s : State) : keyBody s = { s with k := (keyBody s).k } := by
  unfold keyBody
  exact forUp_inv (fun _ (t : State) => t = { s with k := t.k }) rfl fun _ t _ h => by rw [h]; rfl

/-- A word update of `ENCW` writes `V`, `P`, `Y` and `Z`. -/
theorem encUpdate_frame (p : Nat) (s : State) :
    encUpdate p s = { s with
      v := (encUpdate p s).v, p := BitVec.ofNat 32 p, y := vAt s (ringNext s.wlen.toNat p), z := (encUpdate p s).z } :=
  rfl

/-- A word update of `DECW` writes `V`, `P`, `Y` and `Z`. -/
theorem decUpdate_frame (p : Nat) (s : State) :
    decUpdate p s = { s with
      v := (decUpdate p s).v, p := BitVec.ofNat 32 p, z := vAt s (ringPrev s.wlen.toNat p), y := (decUpdate p s).y } :=
  rfl

/-- What the engine may write: `V` and its own registers (43_cipher_engine.md R189). -/
def EngineWrote (s t : State) : Prop :=
  t = { s with v := t.v, sum := t.sum, rnd := t.rnd, p := t.p, y := t.y, z := t.z }

theorem EngineWrote.refl (s : State) : EngineWrote s s := rfl

theorem EngineWrote.trans {s t u : State} (h₁ : EngineWrote s t) (h₂ : EngineWrote t u) : EngineWrote s u := by
  unfold EngineWrote at *
  rw [h₂, h₁]

/-- Setting `SUM` and `RND` writes only what the engine may write. -/
theorem engineWrote_counters (s : State) (a b : Word) : EngineWrote s { s with sum := a, rnd := b } := rfl

/-- A ring pass of `ENCW` writes only what the engine may write. -/
theorem encPass_wrote (n : Nat) (s : State) : EngineWrote s (forUp encUpdate n s) :=
  forUp_inv (fun _ t => EngineWrote s t) (EngineWrote.refl s) fun _ _ _ h => h.trans rfl

/-- A ring pass of `DECW` writes only what the engine may write. -/
theorem decPass_wrote (n : Nat) (s : State) : EngineWrote s (forDown decUpdate n s) :=
  forDown_inv (fun _ t => EngineWrote s t) (EngineWrote.refl s) fun _ _ _ h => h.trans rfl

/-- A round of `ENCW` (43_cipher_engine.md R183), unfolded once. -/
theorem encRound_eq (s : State) :
    encRound s =
      { forUp encUpdate s.wlen.toNat { s with sum := s.sum + delta } with
        rnd := (forUp encUpdate s.wlen.toNat { s with sum := s.sum + delta }).rnd - 1 } := rfl

/-- A round of `DECW` (43_cipher_engine.md R195), unfolded once. -/
theorem decRound_eq (s : State) :
    decRound s =
      { forDown decUpdate s.wlen.toNat s with
        sum := (forDown decUpdate s.wlen.toNat s).sum - delta, rnd := (forDown decUpdate s.wlen.toNat s).rnd - 1 } := rfl

/-- Advancing `SUM` writes only what the engine may write. -/
theorem engineWrote_sum (s : State) (a : Word) : EngineWrote s { s with sum := a } := rfl

/-- A round of `ENCW` writes only what the engine may write. -/
theorem encRound_wrote (s : State) : EngineWrote s (encRound s) := by
  have h : EngineWrote s (forUp encUpdate s.wlen.toNat { s with sum := s.sum + delta }) :=
    (engineWrote_sum s (s.sum + delta)).trans (encPass_wrote s.wlen.toNat { s with sum := s.sum + delta })
  rw [encRound_eq]
  exact h.trans (engineWrote_counters _ _ _)

/-- A round of `DECW` writes only what the engine may write. -/
theorem decRound_wrote (s : State) : EngineWrote s (decRound s) := by
  rw [decRound_eq]
  exact (decPass_wrote s.wlen.toNat s).trans (engineWrote_counters _ _ _)

/-- The body of `ENCW` writes only what the engine may write. -/
theorem encBody_wrote (s : State) : EngineWrote s (encBody s) :=
  forUp_inv (fun _ t => EngineWrote s t) rfl fun _ t _ h => h.trans (encRound_wrote t)

/-- The loads of `DECW` write only what the engine may write. -/
theorem decLoad_wrote (s : State) : EngineWrote s (decLoad s) := by
  have h (q a b : Word) : EngineWrote s { s with rnd := q, sum := a, y := b } := rfl
  exact h _ _ _

/-- The body of `DECW` writes only what the engine may write. -/
theorem decBody_wrote (s : State) : EngineWrote s (decBody s) :=
  forUp_inv (fun _ t => EngineWrote s t) (decLoad_wrote s) fun _ t _ h => h.trans (decRound_wrote t)

end Sys2Proof.Machine
end

