-- ==== Sys2Proof/Laws/Flags.lean ====
section
/-! SUPPORT. What issue and completion leave in `STATUS` (10_state.md R31), field by field, and that a reset's memories
are in canonical form. -/

namespace Sys2Proof.Machine

/-- `BUSY` is a field of `STATUS` alone. -/
theorem busy_congr {s t : State} (h : t.status = s.status) : busy t = busy s := by unfold busy; rw [h]

@[simp] theorem busy_issue (w : Word) (s : State) : busy (issue w s) = true := by
  unfold busy; rw [issue_status]; decide

@[simp] theorem done_issue (w : Word) (s : State) : done (issue w s) = false := by
  unfold done; rw [issue_status]; decide

@[simp] theorem errField_issue (w : Word) (s : State) : errField (issue w s) = 0 := by
  unfold errField; rw [issue_status]; decide

@[simp] theorem busy_complete (e : ErrCode) (s : State) : busy (complete e s) = false := by
  unfold busy; rw [complete_status]; cases e <;> decide

@[simp] theorem done_complete (e : ErrCode) (s : State) : done (complete e s) = true := by
  unfold done; rw [complete_status]; cases e <;> decide

@[simp] theorem errField_complete (e : ErrCode) (s : State) : errField (complete e s) = errNumber e := by
  unfold errField; rw [complete_status]; cases e <;> decide

/-- `STATUS` after a completion reads as it stands: no reserved bit is set. -/
@[simp] theorem readStatus_complete (e : ErrCode) (s : State) :
    readStatus (complete e s) = completedStatus e := by
  unfold readStatus; rw [complete_status]; cases e <;> decide

/-- Different result codes give different `STATUS` words (60_exceptions.md R260). -/
theorem completedStatus_injective {e f : ErrCode} (h : completedStatus e = completedStatus f) : e = f := by
  revert h; cases e <;> cases f <;> decide

/-- A completed state has a legal `STATUS` and `PHASE`, and is at no place of a schedule. -/
theorem complete_legal (e : ErrCode) (s : State) :
    StatusLegal (complete e s) ∧ PhaseLegal (complete e s) ∧ ScheduleLegal (complete e s) := by
  refine ⟨⟨?_, ?_, ?_, ?_⟩, ?_, ?_⟩
  · rw [complete_status]; cases e <;> decide
  · rw [errField_complete]; cases e <;> decide
  · simp
  · simp
  · simp [PhaseLegal]
  · simp [ScheduleLegal]

/-- A reset lists no memory cell, so its memories are in canonical form and inside their spaces. -/
theorem reset_memories_legal (n : Nat) : MemoryLegal (State.afterReset n) := ⟨rfl, rfl, rfl, rfl, rfl, rfl⟩

end Sys2Proof.Machine
end

