-- ==== Sys2Proof/Laws/PerInstr.lean ====
section
/-! SUPPORT. Statements about every command as syntax, one lemma per constructor. -/

/-- The command is well formed and its word leaves the reserved bits 31:5 zero (30_encoding.md R90). -/
def Sys2Proof.Laws.ReservedBitsZero.Statement (i : Sys2Proof.Instr) : Prop :=
  i.wf = true ∧ Sys2Proof.encode i >>> 5 = 0

theorem Sys2Proof.Laws.ReservedBitsZero.nop : Sys2Proof.Laws.ReservedBitsZero.Statement .nop := ⟨rfl, rfl⟩
theorem Sys2Proof.Laws.ReservedBitsZero.keyld : Sys2Proof.Laws.ReservedBitsZero.Statement .keyld := ⟨rfl, rfl⟩
theorem Sys2Proof.Laws.ReservedBitsZero.pack : Sys2Proof.Laws.ReservedBitsZero.Statement .pack := ⟨rfl, rfl⟩
theorem Sys2Proof.Laws.ReservedBitsZero.packl : Sys2Proof.Laws.ReservedBitsZero.Statement .packl := ⟨rfl, rfl⟩
theorem Sys2Proof.Laws.ReservedBitsZero.unpack : Sys2Proof.Laws.ReservedBitsZero.Statement .unpack := ⟨rfl, rfl⟩
theorem Sys2Proof.Laws.ReservedBitsZero.unpackl : Sys2Proof.Laws.ReservedBitsZero.Statement .unpackl := ⟨rfl, rfl⟩
theorem Sys2Proof.Laws.ReservedBitsZero.encw : Sys2Proof.Laws.ReservedBitsZero.Statement .encw := ⟨rfl, rfl⟩
theorem Sys2Proof.Laws.ReservedBitsZero.decw : Sys2Proof.Laws.ReservedBitsZero.Statement .decw := ⟨rfl, rfl⟩
theorem Sys2Proof.Laws.ReservedBitsZero.encrypt : Sys2Proof.Laws.ReservedBitsZero.Statement .encrypt := ⟨rfl, rfl⟩
theorem Sys2Proof.Laws.ReservedBitsZero.decrypt : Sys2Proof.Laws.ReservedBitsZero.Statement .decrypt := ⟨rfl, rfl⟩
end

