-- ==== Sys2Proof/Laws/Sequencer.lean ====
section
/-! SUPPORT. What the two cores do at each kind of place, said once (43_cipher_engine.md R205, 44_facade_commands.md
R230): an issued command, a place of a schedule, the checks before a schedule. -/

namespace Sys2Proof.Machine

theorem step_of_run {s : State} (hb : busy s = true) (hp : s.phase = .run) : step s = runIssued s := by
  simp [step, coreStep, hb, hp]

theorem stepFine_of_run {s : State} (hb : busy s = true) (hp : s.phase = .run) : stepFine s = startFine s := by
  simp [stepFine, hb, hp]

/-- Away from `RUN` both cores take the step of the schedule. -/
theorem step_of_place {s : State} (hb : busy s = true) (hp : s.phase ≠ .run) : step s = microStep s := by
  unfold step coreStep
  rw [if_pos hb]
  split
  · exact absurd ‹_› hp
  · rfl

theorem stepFine_of_place {s : State} (hb : busy s = true) (hp : s.phase ≠ .run) : stepFine s = step s := by
  rw [step_of_place hb hp]
  unfold stepFine
  rw [if_pos hb]
  split
  · exact absurd ‹_› hp
  · rfl

theorem microStep_encw {s : State} (h : Running .encw s) : microStep s = encwStep s := by
  rw [microStep, show decode s.cmd = .ok .encw from h]

theorem microStep_decw {s : State} (h : Running .decw s) : microStep s = decwStep s := by
  rw [microStep, show decode s.cmd = .ok .decw from h]

theorem microStep_encrypt {s : State} (h : Running .encrypt s) : microStep s = encryptStep s := by
  rw [microStep, show decode s.cmd = .ok .encrypt from h]

theorem microStep_decrypt {s : State} (h : Running .decrypt s) : microStep s = decryptStep s := by
  rw [microStep, show decode s.cmd = .ok .decrypt from h]

/-- The engine is entered exactly when the array fits. -/
theorem enterEngine_of_fits {s : State} (h : ArrayFits s) : enterEngine s = { s with phase := .engine .load } := by
  unfold enterEngine
  rw [if_neg (by have := h.1; omega), if_neg (by have := h.2; omega)]

theorem encryptCheck_of_fits {s : State} (h : EncryptFits s) : encryptCheck s = { s with phase := .fKey } := by
  unfold encryptCheck
  rw [if_neg (by have := h.1; omega), if_neg (by have := h.2; omega)]

theorem decryptCheck_of_fits {s : State} (h : DecryptFits s) : decryptCheck s = { s with phase := .fKey } := by
  unfold decryptCheck
  rw [if_neg (by have := h.1; omega), if_neg (by have := h.2.1; omega), if_neg (by have := h.2.2; omega)]

/-- A failed check before a schedule is the whole command: `F_CHECK` of `ENCRYPT`. -/
theorem encryptCheck_ended {s : State} (h : ¬ EncryptFits s) : execEncrypt s = .next (encryptCheck s) := by
  unfold execEncrypt encryptCheck
  unfold EncryptFits at h
  split
  · rfl
  · rw [if_pos (by omega), if_pos (by omega)]

/-- The same for `F_CHECK` of `DECRYPT`. -/
theorem decryptCheck_ended {s : State} (h : ¬ DecryptFits s) : execDecrypt s = .next (decryptCheck s) := by
  unfold execDecrypt decryptCheck
  unfold DecryptFits at h
  split
  · rfl
  · split
    · rfl
    · rw [if_pos (by omega), if_pos (by omega)]

/-- A run is a step and the rest of the run. -/
theorem run_succ (M : Host.Core) {s t : M.State} (n : Nat) (h : M.step s = .next t) :
    M.run (n + 1) s = M.run n t := by
  rw [Host.Core.run, h]

theorem fineRun_succ {s t : State} (n : Nat) (h : stepFine s = .next t) :
    Host.Core.run fineCore (n + 1) s = Host.Core.run fineCore n t := run_succ fineCore n h

theorem coreRun_succ {s t : State} (n : Nat) (h : step s = .next t) :
    Host.Core.run core (n + 1) s = Host.Core.run core n t := run_succ core n h

end Sys2Proof.Machine
end

