-- ==== Sys2Proof/Tests/Slice0.lean ====
section
/-! SUPPORT. The model's own tests: values from 95_test_vectors.md and the rules' examples, ill-formed terms for each
check of WellFormed, and for each statement with hypotheses a concrete state that meets them. -/

namespace Sys2Proof.Machine.Tests

/-- An idle block with four words of capacity (`MAXW` = 4, as 95_test_vectors.md section 9) and a zero key. -/
def demo : State := { State.reset with y := 0, z := 0, k := ⟨0, 0, 0, 0⟩, cap := 4 }

/-- Consecutive cells from `i`. -/
def cellsFrom {α : Type} : Nat → List α → Memory α
  | _, [] => []
  | i, x :: xs => (i, x) :: cellsFrom (i + 1) xs

def bytes (bs : List Byte) (s : State) : State :=
  { s with buf := cellsFrom 0 bs, blen := BitVec.ofNat 32 bs.length }

def words (ws : List Word) (s : State) : State :=
  { s with v := cellsFrom 0 ws, wlen := BitVec.ofNat 32 ws.length }

def key (bs : List Byte) (s : State) : State :=
  { s with kbuf := cellsFrom 0 bs, klen := BitVec.ofNat 32 bs.length }

def after (r : Host.Outcome State Fault Refusal) : State :=
  match r with
  | .next t => t
  | .fault _ => demo
  | .refused _ => demo

def bufOf (s : State) : List Byte := (List.range s.blen.toNat).map (bufAt s)

def vOf (s : State) : List Word := (List.range s.wlen.toNat).map (vAt s)

/-- The ASCII key "1234567890". -/
def digits : List Byte := [0x31, 0x32, 0x33, 0x34, 0x35, 0x36, 0x37, 0x38, 0x39, 0x30]

def k1 : KeyFile := ⟨0x11111111, 0x22222222, 0x33333333, 0x44444444⟩

/-! ## WellFormed and Decode -/

theorem test_wf_refuses_reserved_bit : (FormatC.wf ⟨1, 0, 4⟩) = false := by decide
theorem test_wf_refuses_opcode_8 : (FormatC.wf ⟨0, 0, 8⟩) = false := by decide
theorem test_wf_refuses_length_flag_on_encw : (FormatC.wf ⟨0, 1, 4⟩) = false := by decide
theorem test_wf_accepts_every_command (i : Instr) : i.wf = true := by cases i <;> decide

/-- Words written out bit by bit from 30_encoding.md R90 and R92: 27 reserved bits, `L`, `OP`. -/
theorem test_decode_nop_keyld :
    decode 0b000000000000000000000000000_0_0000#32 = .ok .nop ∧
    decode 0b000000000000000000000000000_0_0001#32 = .ok .keyld := ⟨rfl, rfl⟩
theorem test_decode_packer :
    decode 0b000000000000000000000000000_0_0010#32 = .ok .pack ∧
    decode 0b000000000000000000000000000_1_0010#32 = .ok .packl ∧
    decode 0b000000000000000000000000000_0_0011#32 = .ok .unpack ∧
    decode 0b000000000000000000000000000_1_0011#32 = .ok .unpackl := ⟨rfl, rfl, rfl, rfl⟩
theorem test_decode_engine :
    decode 0b000000000000000000000000000_0_0100#32 = .ok .encw ∧
    decode 0b000000000000000000000000000_0_0101#32 = .ok .decw := ⟨rfl, rfl⟩
theorem test_decode_composite :
    decode 0b000000000000000000000000000_0_0110#32 = .ok .encrypt ∧
    decode 0b000000000000000000000000000_0_0111#32 = .ok .decrypt := ⟨rfl, rfl⟩

/-- 95_test_vectors.md section 9: illegal words, each for its own reason. -/
theorem test_decode_rejects_by_name :
    decode 0x00000008 = .error .opcode ∧ decode 0x0000000F = .error .opcode ∧
    decode 0x00000010 = .error .lengthFlag ∧ decode 0x00000014 = .error .lengthFlag ∧
    decode 0x0000001F = .error .opcode ∧
    decode 0x00000024 = .error .reservedBits ∧ decode 0x80000006 = .error .reservedBits := by
  exact ⟨rfl, rfl, rfl, rfl, rfl, rfl, rfl⟩

theorem test_table_word : decodeTableWord 32 0x12 = some .packl ∧ decodeTableWord 32 0x10 = none := ⟨rfl, rfl⟩

/-- From reset, each row of the opcode table runs as the first command. -/
theorem test_every_command_runs_from_reset (i : Instr) :
    ∃ t, step (State.reset.withFetchWord 32 (encode i).toNat) = .next t := by
  cases i <;> exact ⟨_, rfl⟩

/-! ## Values of 95_test_vectors.md -/

/-- Rows 3, 8, 9 and 15 of section 3. -/
theorem test_mx_rows :
    mx 0x9E3779B9 0xFFFFFFFF 0xFFFFFFFF 0 2 ⟨0, 0, 0, 0⟩ = 0xB9C88657 ∧
    mx 0 0 0x80000000 0 0 ⟨0, 0, 0, 0⟩ = 0x84000000 ∧
    mx 0x3C6EF372 0x12345678 0x9ABCDEF0 7 0 k1 = 0xF8C31B58 ∧
    mx 0x1715609D 0 0xFFFFFFFF 6 3 k1 = 0xF30CC195 := by decide +kernel

/-- 42_mixing_function.md R168: the table of the key index, row by row. -/
theorem test_key_index_table :
    (List.range 4).map (fun p => (List.range 4).map fun e => (keyIndex (BitVec.ofNat 32 p) (BitVec.ofNat 2 e)).val) =
      [[0, 1, 2, 3], [1, 0, 3, 2], [2, 3, 0, 1], [3, 2, 1, 0]] := by decide +kernel

/-- 44_facade_commands.md R235: `NOP` clears `ERR`. -/
theorem test_nop : (after (exec .nop { demo with status := 0x52 })).status = 0x2 := by decide +kernel

/-- Section 5: the key "1234567890"; cells at and above `KLEN` are not read. -/
theorem test_keyld :
    (after (exec .keyld { key (digits ++ [0xff, 0xff, 0xff, 0xff, 0xff, 0xff]) demo with klen := 10 })).k =
      ⟨0x34333231, 0x38373635, 0x00003039, 0x00000000⟩ := by decide +kernel

/-- Section 5: a `KLEN` above 16 uses the first 16 bytes. -/
theorem test_keyld_long :
    (after (exec .keyld { key [1, 2, 3, 4, 5, 6, 7, 8, 9, 10, 11, 12, 13, 14, 15, 16] demo with klen := 32 })).k =
      ⟨0x04030201, 0x08070605, 0x0C0B0A09, 0x100F0E0D⟩ := by decide +kernel

/-- Section 5: zero extension, zero fill whatever `V` held, least significant byte first. -/
theorem test_pack :
    let s := bytes [0xff, 0x80, 0x01, 0x00, 0x7f] (words [0xFFFFFFFF, 0xFFFFFFFF, 0xFFFFFFFF] demo)
    let t := after (exec .pack s)
    vOf t = [0x000180FF, 0x0000007F] ∧ vAt t 2 = 0xFFFFFFFF ∧ t.status = 0x2 := by decide +kernel

/-- Section 9: `PACK` at the capacity edge, `MAXW` = 4. -/
theorem test_pack_capacity :
    (after (exec .pack { demo with blen := 17 })).status = 0x32 ∧
    (after (exec .pack { demo with blen := 16 })).wlen = 4 := by decide +kernel

/-- Section 5: `PACKL` of five bytes; of none. -/
theorem test_packl :
    vOf (after (exec .packl (bytes [0x61, 0x62, 0x63, 0x64, 0x65] demo))) =
      [0x64636261, 0x00000065, 0x00000005] ∧
    vOf (after (exec .packl demo)) = [0x00000000] := by decide +kernel

/-- Section 9: `PACKL` with `BLEN` = 13 and `MAXW` = 4. -/
theorem test_packl_capacity : (after (exec .packl { demo with blen := 13 })).status = 0x32 := by decide +kernel

/-- Section 5: `UNPACK`; section 9: a length far over the capacity. -/
theorem test_unpack :
    bufOf (after (exec .unpack (words [0x04030201, 0x000000FF] demo))) = [1, 2, 3, 4, 0xff, 0, 0, 0] ∧
    (after (exec .unpack { demo with wlen := 0xFFFFFFFF })).status = 0x32 := by decide +kernel

/-- Section 5: a tampered length that passes the bound. -/
theorem test_unpackl_accepts :
    bufOf (after (exec .unpackl (words [0x64636261, 0x00000065, 0x00000006] demo))) =
      [0x61, 0x62, 0x63, 0x64, 0x65, 0x00] ∧
    (after (exec .unpackl (words [0x00000000] demo))).status = 0x2 := by decide +kernel

/-- Section 5: `m` above `nb`, below `nb - 3`, and the value a 32-bit subtraction would accept. -/
theorem test_unpackl_rejects :
    (after (exec .unpackl (words [0x64636261, 0x00000065, 0x00000009] demo))).status = 0x12 ∧
    (after (exec .unpackl (words [0x64636261, 0x00000065, 0x00000004] demo))).status = 0x12 ∧
    (after (exec .unpackl (words [0xFFFFFFFD] demo))).status = 0x12 := by decide +kernel

/-- Section 4, E5: three words under `K1`, with the engine registers after it. -/
theorem test_encw :
    let t := after (exec .encw { words [1, 2, 3] demo with k := k1 })
    vOf t = [0x63418DB4, 0xCFFE30CD, 0x51472BDE] ∧ t.sum = 0x36FBEF9F ∧ t.rnd = 0 ∧ t.p = 2 := by decide +kernel

/-- Section 4: one word; `Y` is what `V[0]` held before the last update. -/
theorem test_encw_one_word :
    let t := after (exec .encw (words [0] demo))
    vOf t = [0xACC927B6] ∧ t.y = 0xCE58A046 ∧ t.z = 0xACC927B6 := by decide +kernel

/-- Section 4, E6 and E3. -/
theorem test_decw :
    vOf (after (exec .decw { words [0x63418DB4, 0xCFFE30CD, 0x51472BDE] demo with k := k1 })) = [1, 2, 3] ∧
    vOf (after (exec .decw (words [0, 0] demo))) = [0x2C0215E9, 0x18F7E575] := by decide +kernel

/-- Section 4: one word, which `DECW` does not restore. -/
theorem test_decw_one_word :
    let t := after (exec .decw (words [0xACC927B6] demo))
    vOf t = [0x9825C7F5] ∧ t.z = 0x7C7FB9BE ∧ t.sum = 0 := by decide +kernel

/-- Section 6: "a" under the key "1234567890". -/
theorem test_encrypt :
    let t := after (exec .encrypt (bytes [0x61] (key digits demo)))
    bufOf t = [0xd6, 0x7d, 0x2d, 0x20, 0xde, 0x04, 0x6c, 0xaa] ∧ t.y = 0x202D7DD6 ∧ t.z = 0xAA6C04DE := by
  decide +kernel

/-- Section 9: `MAXW` = 4, twelve bytes fit and thirteen do not. -/
theorem test_encrypt_capacity :
    vOf (after (exec .encrypt (bytes [0, 1, 2, 3, 4, 5, 6, 7, 8, 9, 10, 11] (key digits demo)))) =
      [0xC83B941A, 0x27011766, 0x2D4DE572, 0x72336FFF] ∧
    (after (exec .encrypt { demo with blen := 13 })).status = 0x32 := by decide +kernel

/-- 44_facade_commands.md R225's example, and the ciphertext bytes left beyond `BLEN` (70_reset_and_hazards.md R303). -/
theorem test_decrypt :
    let t := after (exec .decrypt (bytes [0x96, 0x1d, 0xe0, 0x61, 0x19, 0xec, 0x65, 0xc5] demo))
    bufOf t = [0x61] ∧ bufAt t 1 = 0x1d ∧ t.status = 0x2 ∧ vOf t = [0x61, 1] := by decide +kernel

/-- Section 7, first row: a wrong key ends in `CORRUPT`, with `BUF` and `BLEN` unchanged. -/
theorem test_decrypt_corrupt :
    let s := bytes [0x96, 0x1d, 0xe0, 0x61, 0x19, 0xec, 0x65, 0xc5] (key [0x01] demo)
    let t := after (exec .decrypt s)
    t.status = 0x12 ∧ vOf t = [0x0A43918E, 0x13A5B311] ∧ t.buf = s.buf ∧ t.blen = 8 := by decide +kernel

/-- Section 4: the third line of the step-level run of E5, from `E_WORD` at `P` = 0. -/
theorem test_encw_word_step :
    let s := { words [1, 2, 3] demo with
      k := k1, cmd := 4, status := 1, phase := .engine .word, rnd := 23, sum := 0x9E3779B9, z := 3 }
    let t := after (step s)
    vOf t = [0xD16AACD4, 2, 3] ∧ t.y = 2 ∧ t.z = 0xD16AACD4 ∧ t.p = 1 ∧ t.rnd = 23 ∧
      t.phase = .engine .word := by decide +kernel

/-- Section 10, program 3, lines 1 to 4: errors, and the commands after them. -/
theorem test_host_script_errors :
    (match runScript (runCommand .encw ++ runCommand .nop ++ [.writeReg 0 0x8, .wait, .readReg 0]) demo with
     | .next r => r.2
     | .fault _ => []
     | .refused _ => []) =
      [.none, .word 0x42, .none, .word 0x2, .none, .word 0x52, .word 0x8] := by decide +kernel

/-- Section 10, program 4, lines 1 to 4. -/
theorem test_host_script_packer :
    (match runScript (ldbuf [0x61, 0x62, 0x63, 0x64, 0x65] ++ runCommand .packl ++ [.writeWord 2 9] ++
        runCommand .unpackl ++ [.readReg 2, .readByte .buf 4]) demo with
     | .next r => r.2.drop 9
     | .fault _ => []
     | .refused _ => []) = [.none, .word 0x12, .word 5, .byte 0x65] := by decide +kernel

end Sys2Proof.Machine.Tests
end

