-- ==== Sys2Proof/Tests/Witnesses.lean ====
section
/-! SUPPORT. For each statement of Certificates/Slice0/Obligations.lean with hypotheses, a concrete state and operands
that meet them, for each clause at a boundary of its range. `MAXW` is 4 in these states. -/

namespace Sys2Proof.Machine.Tests

/-! ## States -/

/-- `demo` with the command `i` issued. -/
def issued (i : Instr) (s : State) : State := issue (encode i) s

/-- `demo` at a place of the schedule of the running command `i`. -/
def at_ (i : Instr) (ph : Phase) (s : State) : State := { issued i s with phase := ph }

/-- Two words, in the last word update of a round of `ENCW`: `P` = `len - 1`, the last round. -/
def encWordLast : State :=
  { at_ .encw (.engine .word) (words [5, 6] demo) with
    p := 1, rnd := 1, sum := BitVec.ofNat 32 32 * delta, z := 5 }

/-- Two words, in the first word update of a round of `ENCW`. -/
def encWordFirst : State :=
  { at_ .encw (.engine .word) (words [5, 6] demo) with
    p := 0, rnd := 32, sum := BitVec.ofNat 32 1 * delta, z := 6 }

/-- Two words, between rounds of `ENCW`, before the first and after the last. -/
def encRoundFirst : State :=
  { at_ .encw (.engine .round) (words [5, 6] demo) with rnd := 32, sum := 0, z := 6 }
def encRoundLast : State :=
  { at_ .encw (.engine .round) (words [5, 6] demo) with rnd := 0, sum := BitVec.ofNat 32 32 * delta, z := 6 }

/-- Two words, in the first word update of a round of `DECW`, in the last, and between rounds. -/
def decWordFirst : State :=
  { at_ .decw (.engine .word) (words [5, 6] demo) with p := 1, rnd := 32, sum := 32 * delta, y := 5 }
def decWordLast : State :=
  { at_ .decw (.engine .word) (words [5, 6] demo) with p := 0, rnd := 1, sum := 1 * delta, y := 6 }
def decRoundFirst : State :=
  { at_ .decw (.engine .round) (words [5, 6] demo) with rnd := 32, sum := 32 * delta, y := 5 }
def decRoundLast : State := at_ .decw (.engine .round) (words [0, 6] demo)

/-- Sixteen bytes: the whole of `BUF` when `MAXW` is 4. -/
def full : State := bytes [0, 1, 2, 3, 4, 5, 6, 7, 8, 9, 10, 11, 12, 13, 14, 15] demo

/-- Twelve bytes: the most that `ENCRYPT` takes when `MAXW` is 4. -/
def twelve : State := bytes [0, 1, 2, 3, 4, 5, 6, 7, 8, 9, 10, 11] (key digits demo)

/-! ## The invariant -/

/-- A state is legal when its parts check out; the schedule part is left to its place. -/
theorem inv_of_parts {s : State} (hc : CapLegal s) (hs : StatusLegal s) (hp : PhaseLegal s) (hn : CountersLegal s)
    (hm : MemoryLegal s) (hl : ScheduleLegal s) : Inv s := ⟨hc, hs, hp, hn, hm, hl⟩

theorem test_witness_inv_idle : Inv demo ∧ Inv twelve :=
  ⟨inv_of_parts (by unfold CapLegal; decide) (by unfold StatusLegal; decide) (by unfold PhaseLegal; decide)
    (by unfold CountersLegal; decide) (by unfold MemoryLegal; decide) trivial,
   inv_of_parts (by unfold CapLegal; decide) (by unfold StatusLegal; decide) (by unfold PhaseLegal; decide)
    (by unfold CountersLegal; decide) (by unfold MemoryLegal; decide) trivial⟩

theorem test_witness_inv_run : Inv (issued .encrypt twelve) :=
  inv_of_parts (by unfold CapLegal; decide) (by unfold StatusLegal; decide) (by unfold PhaseLegal; decide)
    (by unfold CountersLegal; decide) (by unfold MemoryLegal; decide) trivial

theorem test_witness_inv_encw_word : Inv encWordFirst ∧ Inv encWordLast :=
  ⟨inv_of_parts (by unfold CapLegal; decide) (by unfold StatusLegal; decide) (by unfold PhaseLegal; decide)
    (by unfold CountersLegal; decide) (by unfold MemoryLegal; decide)
    ⟨.inl rfl, by unfold ArrayFits; decide, fun _ => by decide⟩,
   inv_of_parts (by unfold CapLegal; decide) (by unfold StatusLegal; decide) (by unfold PhaseLegal; decide)
    (by unfold CountersLegal; decide) (by unfold MemoryLegal; decide)
    ⟨.inl rfl, by unfold ArrayFits; decide, fun _ => by decide⟩⟩

theorem test_witness_inv_decw_word : Inv decWordFirst ∧ Inv decWordLast :=
  ⟨inv_of_parts (by unfold CapLegal; decide) (by unfold StatusLegal; decide) (by unfold PhaseLegal; decide)
    (by unfold CountersLegal; decide) (by unfold MemoryLegal; decide)
    ⟨.inr rfl, by unfold ArrayFits; decide, fun _ => by decide⟩,
   inv_of_parts (by unfold CapLegal; decide) (by unfold StatusLegal; decide) (by unfold PhaseLegal; decide)
    (by unfold CountersLegal; decide) (by unfold MemoryLegal; decide)
    ⟨.inr rfl, by unfold ArrayFits; decide, fun _ => by decide⟩⟩

theorem test_witness_inv_composite :
    Inv (at_ .encrypt .fCheck twelve) ∧ Inv (at_ .encrypt .fPack twelve) ∧ Inv (at_ .decrypt .fKey full) ∧
    Inv (at_ .decrypt .fUnpack (words [0] demo)) :=
  ⟨inv_of_parts (by unfold CapLegal; decide) (by unfold StatusLegal; decide) (by unfold PhaseLegal; decide)
    (by unfold CountersLegal; decide) (by unfold MemoryLegal; decide) (.inl rfl),
   inv_of_parts (by unfold CapLegal; decide) (by unfold StatusLegal; decide) (by unfold PhaseLegal; decide)
    (by unfold CountersLegal; decide) (by unfold MemoryLegal; decide) (.inl ⟨rfl, by unfold EncryptFits; decide⟩),
   inv_of_parts (by unfold CapLegal; decide) (by unfold StatusLegal; decide) (by unfold PhaseLegal; decide)
    (by unfold CountersLegal; decide) (by unfold MemoryLegal; decide) (.inr ⟨rfl, by unfold DecryptFits; decide⟩),
   inv_of_parts (by unfold CapLegal; decide) (by unfold StatusLegal; decide) (by unfold PhaseLegal; decide)
    (by unfold CountersLegal; decide) (by unfold MemoryLegal; decide) ⟨.inr rfl, by unfold ArrayFits; decide⟩⟩

/-- HostAccessKeepsLegalStates: a legal state and an access that is answered. -/
theorem test_witness_host_access : Inv demo ∧ ∃ r, hostAct (.writeByte .buf 15 7) demo = .next r :=
  ⟨test_witness_inv_idle.1, _, rfl⟩

/-- StepKeepsEngineSchedule: legal, scheduled states at the word updates, with a next state. -/
theorem test_witness_engine_schedule_encw :
    Inv encWordLast ∧ EngineScheduled encWordLast ∧ ∃ t, step encWordLast = .next t := by
  refine ⟨test_witness_inv_encw_word.2, ?_, _, rfl⟩
  intro e he
  obtain rfl : e = .word := by
    injection he with h
    exact h.symm
  exact ⟨fun _ => ⟨by decide, by decide, by decide⟩, fun h => by
    rcases h with h | h <;> exact absurd h (by unfold Running; rw [show decode encWordLast.cmd = .ok .encw from rfl]; simp)⟩

theorem test_witness_engine_schedule_decw :
    Inv decWordFirst ∧ EngineScheduled decWordFirst ∧ ∃ t, step decWordFirst = .next t := by
  refine ⟨test_witness_inv_decw_word.1, ?_, _, rfl⟩
  intro e he
  obtain rfl : e = .word := by
    injection he with h
    exact h.symm
  exact ⟨fun h => by
    rcases h with h | h <;> exact absurd h (by unfold Running; rw [show decode decWordFirst.cmd = .ok .decw from rfl]; simp),
    fun _ => ⟨by decide, by decide, by decide⟩⟩

/-- ExitTestsAgree: `E_ROUND` of a running decryption, with rounds left and with none. -/
theorem test_witness_exit_tests :
    (Inv decRoundFirst ∧ EngineScheduled decRoundFirst ∧ Running .decw decRoundFirst ∧
      enginePlace decRoundFirst = some .round ∧ decRoundFirst.sum ≠ 0) ∧
    (Inv decRoundLast ∧ EngineScheduled decRoundLast ∧ Running .decw decRoundLast ∧
      enginePlace decRoundLast = some .round ∧ decRoundLast.sum = 0) := by
  have scheduled {s : State} (hr : Running .decw s) (he : enginePlace s = some .round) (hd : DecScheduled .round s) :
      EngineScheduled s := by
    intro e h
    obtain rfl : EnginePhase.round = e := by rw [he] at h; injection h
    refine ⟨fun h => ?_, fun _ => hd⟩
    unfold Running at hr h
    rw [hr] at h
    simp at h
  refine ⟨⟨inv_of_parts (by unfold CapLegal; decide) (by unfold StatusLegal; decide) (by unfold PhaseLegal; decide)
      (by unfold CountersLegal; decide) (by unfold MemoryLegal; decide) ⟨.inr rfl, by unfold ArrayFits; decide, nofun⟩,
      scheduled rfl rfl ⟨by decide, by decide, by decide⟩, rfl, rfl, by decide⟩,
    inv_of_parts (by unfold CapLegal; decide) (by unfold StatusLegal; decide) (by unfold PhaseLegal; decide)
      (by unfold CountersLegal; decide) (by unfold MemoryLegal; decide) ⟨.inr rfl, by unfold ArrayFits; decide, nofun⟩,
      scheduled rfl rfl ⟨by decide, by decide, by decide⟩, rfl, rfl, by decide⟩

/-! ## Steps and decoding -/

/-- StepRunsDecodedCommand. -/
theorem test_witness_step_runs :
    busy (issued .pack full) = true ∧ (issued .pack full).phase = .run ∧
    decode (issued .pack full).cmd = .ok .pack := ⟨rfl, rfl, rfl⟩

/-- IdleBlockExecutesNothing, the idle clauses, and WriteOfCmdIssues' busy one. -/
theorem test_witness_idle_and_busy : busy demo = false ∧ busy (issued .nop demo) = true := ⟨rfl, rfl⟩

/-- IllegalWordsRaiseIllcmd: each part of the list at its ends, and its neighbours outside it. -/
theorem test_witness_illegal_words :
    ((0x20 : Word) &&& 0xFFFFFFE0 ≠ 0) ∧ ((0xFFFFFFFF : Word) &&& 0xFFFFFFE0 ≠ 0) ∧
    ([0x8, 0xF, 0x10, 0x11, 0x14, 0x1F, 0x20, 0xFFFFFFFF].all fun w =>
      (after (step (issue (BitVec.ofNat 32 w) demo))).status == 0x52) = true ∧
    ([0x0, 0x7, 0x12, 0x13].all fun w =>
      (after (step (issue (BitVec.ofNat 32 w) demo))).status != 0x52) = true := by decide +kernel

/-! ## Key loader and packer -/

/-- KeyldPadsWithZeros: fifteen bytes, and none. -/
theorem test_witness_key_padding :
    let s := key [1, 2, 3, 4, 5, 6, 7, 8, 9, 10, 11, 12, 13, 14, 15] demo
    let u := key [1, 2, 3, 4, 5, 6, 7, 8, 9, 10, 11, 12, 13, 14, 15, 0] demo
    let z := key [0, 0, 0, 0, 0, 0, 0, 0, 0, 0, 0, 0, 0, 0, 0, 0] demo
    s.klen.toNat < 16 ∧ u.klen = 16 ∧
    (∀ i, i < 16 → kbufAt u i = if i < s.klen.toNat then kbufAt s i else 0) ∧
    demo.klen = 0 ∧ (∀ i, i < 16 → kbufAt z i = if i < demo.klen.toNat then kbufAt demo i else 0) := by
  decide +kernel

/-- KeyldUsesFirstSixteenBytes: lengths 16 and 17. -/
theorem test_witness_key_truncation :
    let u := key [1, 2, 3, 4, 5, 6, 7, 8, 9, 10, 11, 12, 13, 14, 15, 16] demo
    let s := { u with klen := 17 }
    16 ≤ u.klen.toNat ∧ 16 ≤ s.klen.toNat ∧ u.klen = 16 ∧ ∀ i, i < 16 → kbufAt u i = kbufAt s i := by
  decide +kernel

/-- PackPacksBytes, PacklPacksBytesAndLength and the packer's capacity clauses: one byte or word too many, and the
most that fits. -/
theorem test_witness_packer_capacity :
    demo.cap.toNat < ({ demo with blen := 17 }.blen.toNat + 3) / 4 ∧ (full.blen.toNat + 3) / 4 ≤ full.cap.toNat ∧
    demo.cap.toNat < ({ demo with blen := 13 }.blen.toNat + 3) / 4 + 1 ∧
    (twelve.blen.toNat + 3) / 4 + 1 ≤ twelve.cap.toNat ∧
    demo.cap.toNat < { demo with wlen := 5 }.wlen.toNat ∧
    { demo with wlen := 4 }.wlen.toNat ≤ demo.cap.toNat ∧ CapLegal demo := by
  unfold CapLegal
  decide +kernel

/-- UnpacklChecksEmbeddedLength: the four clauses, the bound at both of its ends and just outside them, and one
word. -/
theorem test_witness_unpackl_clauses :
    demo.wlen.toNat = 0 ∧
    (vAt (words [1, 2, 4] demo) 2).toNat < 8 - 3 ∧ 8 < (vAt (words [1, 2, 9] demo) 2).toNat ∧
    8 - 3 ≤ (vAt (words [1, 2, 5] demo) 2).toNat ∧ (vAt (words [1, 2, 8] demo) 2).toNat ≤ 8 ∧
    (4 * (((words [0] demo).wlen.toNat : Int) - 1) - 3 ≤ ((vAt (words [0] demo) 0).toNat : Int)) ∧
    (((vAt (words [0] demo) 0).toNat : Int) ≤ 4 * (((words [0] demo).wlen.toNat : Int) - 1)) := by
  decide +kernel

/-! ## Engine -/

/-- EncwLeavesEngineRegisters and DecwLeavesEngineRegisters: lengths 0, 1, 2, 4 and 5 with `MAXW` = 4;
EncwAndDecwAreInverse: 2 and 4; EngineRegistersNotReadBeforeWritten: 1 and 4. -/
theorem test_witness_engine_lengths :
    demo.wlen.toNat = 0 ∧ (words [7] demo).wlen.toNat = 1 ∧ (words [7, 8] demo).wlen.toNat = 2 ∧
    (words [7, 8, 9, 10] demo).wlen.toNat = demo.cap.toNat ∧
    demo.cap.toNat < { demo with wlen := 5 }.wlen.toNat := by decide +kernel

/-- EncwStepTable: a state for each of its five rows. -/
theorem test_witness_encw_step_rows :
    let l := at_ .encw (.engine .load) (words [5, 6] demo)
    (busy l = true ∧ l.phase = .engine .load ∧ ArrayFits l) ∧
    (busy encRoundFirst = true ∧ encRoundFirst.phase = .engine .round ∧ encRoundFirst.rnd ≠ 0 ∧
      ArrayFits encRoundFirst) ∧
    (busy encRoundLast = true ∧ encRoundLast.phase = .engine .round ∧ encRoundLast.rnd = 0 ∧
      ArrayFits encRoundLast) ∧
    (busy encWordFirst = true ∧ encWordFirst.phase = .engine .word ∧
      encWordFirst.p.toNat < encWordFirst.wlen.toNat - 1 ∧ ArrayFits encWordFirst) ∧
    (busy encWordLast = true ∧ encWordLast.phase = .engine .word ∧
      encWordLast.p.toNat = encWordLast.wlen.toNat - 1 ∧ encWordLast.p.toNat < encWordLast.wlen.toNat ∧
      ArrayFits encWordLast) := by
  unfold ArrayFits
  decide +kernel

/-- DecwStepTable: a state for each of its five rows. -/
theorem test_witness_decw_step_rows :
    let l := at_ .decw (.engine .load) (words [5, 6] demo)
    (busy l = true ∧ l.phase = .engine .load ∧ ArrayFits l) ∧
    (busy decRoundFirst = true ∧ decRoundFirst.phase = .engine .round ∧ decRoundFirst.rnd ≠ 0 ∧
      ArrayFits decRoundFirst) ∧
    (busy decRoundLast = true ∧ decRoundLast.phase = .engine .round ∧ decRoundLast.rnd = 0 ∧
      ArrayFits decRoundLast) ∧
    (busy decWordFirst = true ∧ decWordFirst.phase = .engine .word ∧ 0 < decWordFirst.p.toNat ∧
      decWordFirst.p.toNat < decWordFirst.wlen.toNat ∧ ArrayFits decWordFirst) ∧
    (busy decWordLast = true ∧ decWordLast.phase = .engine .word ∧ decWordLast.p.toNat = 0 ∧
      decWordLast.p.toNat < decWordLast.wlen.toNat ∧ ArrayFits decWordLast) := by
  unfold ArrayFits
  decide +kernel

/-- The commands that the states above run. -/
theorem test_witness_step_rows_decode :
    decode encWordFirst.cmd = .ok .encw ∧ decode encRoundFirst.cmd = .ok .encw ∧
    decode decWordFirst.cmd = .ok .decw ∧ decode decRoundFirst.cmd = .ok .decw := ⟨rfl, rfl, rfl, rfl⟩

/-- EngineStepsReachCommandResult: one word and four, for each command. -/
theorem test_witness_engine_steps :
    let s := at_ .encw (.engine .load) (words [7] demo)
    let u := at_ .decw (.engine .load) (words [7, 8, 9, 10] demo)
    (busy s = true ∧ s.phase = .engine .load ∧ 1 ≤ s.wlen.toNat ∧ s.wlen.toNat ≤ s.cap.toNat) ∧
    (busy u = true ∧ u.phase = .engine .load ∧ 1 ≤ u.wlen.toNat ∧ u.wlen.toNat ≤ u.cap.toNat) := by
  decide +kernel

/-! ## Composite commands -/

/-- CompositeStepsReachCommandResult, EncryptIsItsScript, DecryptIsItsScript. -/
theorem test_witness_composite :
    EncryptFits twelve ∧ DecryptFits full ∧ busy twelve = false ∧ busy full = false ∧
    busy (at_ .encrypt .fCheck twelve) = true ∧ busy (at_ .decrypt .fCheck full) = true ∧
    EncryptFits (at_ .encrypt .fCheck twelve) ∧ DecryptFits (at_ .decrypt .fCheck full) ∧
    DecryptFits (bytes [0, 0, 0, 0] demo) := by
  unfold EncryptFits DecryptFits
  decide +kernel

theorem test_witness_composite_decode :
    decode (at_ .encrypt .fCheck twelve).cmd = .ok .encrypt ∧
    decode (at_ .decrypt .fCheck full).cmd = .ok .decrypt := ⟨rfl, rfl⟩

/-- CompositeStepsReachCommandResult, the tests of `F_CHECK` that fail: no byte, one too many, a bad shape. -/
theorem test_witness_composite_ended :
    ¬ EncryptFits (at_ .encrypt .fCheck demo) ∧ ¬ EncryptFits (at_ .encrypt .fCheck { demo with blen := 13 }) ∧
    ¬ DecryptFits (at_ .decrypt .fCheck demo) ∧ ¬ DecryptFits (at_ .decrypt .fCheck { demo with blen := 5 }) ∧
    ¬ DecryptFits (at_ .decrypt .fCheck { demo with blen := 20 }) := by
  unfold EncryptFits DecryptFits
  decide +kernel

/-- FineStepsReachCommandResult: issued commands, with their tests passed and failed at the edges of `MAXW` = 4 (an
illegal word: test_witness_illegal_running). -/
theorem test_witness_fine_steps :
    (∀ i s, busy (issued i s) = true ∧ (issued i s).phase = .run ∧ decode (issued i s).cmd = .ok i) ∧
    ArrayFits (issued .encw (words [7] demo)) ∧ ArrayFits (issued .decw (words [7, 8, 9, 10] demo)) ∧
    ¬ ArrayFits (issued .encw demo) ∧ ¬ ArrayFits (issued .decw { demo with wlen := 5 }) ∧
    EncryptFits (issued .encrypt twelve) ∧ ¬ EncryptFits (issued .encrypt { demo with blen := 13 }) ∧
    DecryptFits (issued .decrypt full) ∧ ¬ DecryptFits (issued .decrypt { demo with blen := 20 }) := by
  refine ⟨fun i s => ⟨busy_issue _ _, rfl, ?_⟩, ?_⟩
  · show decode (encode i) = .ok i
    cases i <;> rfl
  · unfold ArrayFits EncryptFits DecryptFits
    decide +kernel

/-- EmptyBufferIsIdentity, EncryptRunsItsBodies, DecryptRunsItsBodies, DecryptRejectsBadShape: their clauses on `BLEN`
at 0, 12, 13, 16, 5 and 20 with `MAXW` = 4 (the two clauses on `m`: test_decrypt and test_decrypt_corrupt). -/
theorem test_witness_composite_lengths :
    demo.blen = 0 ∧ twelve.blen ≠ 0 ∧ (twelve.blen.toNat + 3) / 4 + 1 = twelve.cap.toNat ∧
    ({ demo with blen := 13 }.blen.toNat + 3) / 4 + 1 = demo.cap.toNat + 1 ∧
    full.blen.toNat % 4 = 0 ∧ full.blen.toNat / 4 = full.cap.toNat ∧
    { demo with blen := 5 }.blen.toNat % 4 ≠ 0 ∧
    { demo with blen := 20 }.blen.toNat % 4 = 0 ∧ { demo with blen := 20 }.blen.toNat / 4 = demo.cap.toNat + 1 := by
  decide +kernel

/-- DecryptUndoesEncrypt: no byte, one, and the most that fits. -/
theorem test_witness_round_trip :
    CapLegal twelve ∧ twelve.blen.toNat = 4 * (twelve.cap.toNat - 1) ∧ demo.blen.toNat = 0 ∧
    (bytes [0x61] demo).blen.toNat ≤ 4 * (demo.cap.toNat - 1) := by
  unfold CapLegal
  decide +kernel

/-- CompositesReadOnlyTheirOperands: two states that differ in `V`, `K`, the engine registers, bytes beyond the lengths
and `KLEN` above 16. -/
theorem test_witness_same_operands :
    let s := bytes [1, 2, 3, 4] (key [1, 2, 3, 4, 5, 6, 7, 8, 9, 10, 11, 12, 13, 14, 15, 16] demo)
    let u := { s with v := [(0, 7)], k := k1, sum := 9, buf := s.buf ++ [(4, 99)], klen := 17 }
    s.cap = u.cap ∧ s.blen = u.blen ∧ (∀ j, j < s.blen.toNat → bufAt s j = bufAt u j) ∧
    min s.klen.toNat 16 = min u.klen.toNat 16 ∧ (∀ j, j < min s.klen.toNat 16 → kbufAt s j = kbufAt u j) := by
  decide +kernel

/-- KeysWithSameWordsAreSameKey: an empty key and one zero byte. -/
theorem test_witness_same_key : keyWords (key [0] demo) = keyWords demo := by decide +kernel

/-! ## Errors and host accesses -/

/-- ZerolenRaisedBeforeAnyWrite, DecryptRejectsBadShape, ErrorsLeaveDataState, CommandsWriteOnlyTheirState: outcomes
that meet their hypotheses on a next state. -/
theorem test_witness_error_outcomes :
    (∃ t, exec .encw demo = .next t ∧ t.status = 0x42) ∧
    (∃ t, exec .decrypt { demo with blen := 5 } = .next t ∧ t.status = 0x22) ∧
    (∃ t, exec .decrypt (bytes [0x61, 0x62, 0x63, 0x64] (key digits demo)) = .next t ∧ t.status = 0x12) ∧
    (∃ t, exec .pack full = .next t) :=
  ⟨⟨_, rfl, by decide +kernel⟩, ⟨_, rfl, by decide +kernel⟩, ⟨_, rfl, by decide +kernel⟩, ⟨_, rfl⟩⟩

/-- ErrorsLeaveDataState's first clause: a running illegal word. -/
theorem test_witness_illegal_running :
    busy (issue 0x24 demo) = true ∧ (issue 0x24 demo).phase = .run ∧
    ∀ i, decode (issue 0x24 demo).cmd ≠ .ok i := by
  refine ⟨rfl, rfl, fun i h => ?_⟩
  rw [show decode (issue 0x24 demo).cmd = .error .reservedBits from rfl] at h
  cases h

/-- MemoryAccesses and UndefinedAccessesRefused: the last cell of each space and the first index beyond it. -/
theorem test_witness_memory_edges :
    (15 < 4 * demo.cap.toNat ∧ 4 * demo.cap.toNat ≤ 16) ∧ (3 < demo.cap.toNat ∧ demo.cap.toNat ≤ 4) ∧
    busy demo = false ∧ busy (issued .nop demo) = true := by decide +kernel

/-- UndefinedAccessesRefused: the reserved numbers at the ends of their ranges, beside the named ones. -/
theorem test_witness_reserved_registers :
    ([9, 15, 20].map regOfNumber) = [none, none, none] ∧
    ([8, 16, 19].map regOfNumber) = [some .pos, some (.key 0), some (.key 3)] := by decide

/-- RegisterReads: an answered read, and both ends of `BUSY`. -/
theorem test_witness_register_read :
    readReg 19 demo = .next demo.k.k3 ∧ readReg 1 (issued .nop demo) = .next (readStatus (issued .nop demo)) :=
  ⟨rfl, rfl⟩

/-- LoadScriptsLoad, the length of a key at the last value that fits 32 bits and the first that does not (30_encoding.md
R98: the true length, or 16). -/
theorem test_witness_key_length : keyLengthValue (2 ^ 32 - 1) = 2 ^ 32 - 1 ∧ keyLengthValue (2 ^ 32) = 16 := by decide

/-- LoadScriptsLoad: as many bytes and words as fit, and a key of seventeen bytes. -/
theorem test_witness_load_scripts :
    (List.replicate 16 (1 : Byte)).length ≤ 4 * demo.cap.toNat ∧
    (List.replicate 4 (1 : Word)).length ≤ demo.cap.toNat ∧
    (match runScript (ldkey (List.replicate 17 7)) demo with
     | .next r => r.1.klen == 17 && kbufAt r.1 15 == 7
     | .fault _ => false
     | .refused _ => false) = true := by decide +kernel

end Sys2Proof.Machine.Tests
end

namespace Sys2Proof.Machine

/-! ## The cores while idle: the third kind of place, beside `step_of_run` and `step_of_place` -/

theorem step_of_idle {s : State} (hb : busy s = false) : step s = .next s := by
  simp [step, coreStep, hb]

theorem stepFine_of_idle {s : State} (hb : busy s = false) : stepFine s = .next s := by
  simp [stepFine, hb]

/-- Settles O8: both cores test `BUSY` before they look at `PHASE` or `CMD` (00_scope.md R13), so no legality of `s` is
needed. -/
theorem idleBlockExecutesNothing : Obligations.IdleBlockExecutesNothing := fun _ hb =>
  ⟨step_of_idle hb, stepFine_of_idle hb⟩

end Sys2Proof.Machine

namespace Sys2Proof.Machine

/-! ## What the host sees of `STATUS` -/

/-- Settles O51: `statusMask` has ones at `BUSY`, `DONE` and all of `ERR`, and zeros at the reserved bits. -/
theorem statusFieldsRead : Obligations.StatusFieldsRead := by
  intro s
  have bit (i : Nat) (hm : statusMask.getLsbD i = true) : (readStatus s).getLsbD i = s.status.getLsbD i := by
    rw [readStatus, BitVec.getLsbD_and, hm, Bool.and_true]
  have field (lo n : Nat) :
      (readStatus s).extractLsb' lo n = s.status.extractLsb' lo n &&& statusMask.extractLsb' lo n :=
    BitVec.extractLsb'_and
  have hErr : statusMask.extractLsb' 4 4 = BitVec.allOnes 4 := by decide
  have hLow : statusMask.extractLsb' 2 2 = 0 := by decide
  have hHigh : statusMask.extractLsb' 8 24 = 0 := by decide
  refine ⟨bit 0 (by decide), bit 1 (by decide), ?_, ?_, ?_⟩
  · rw [field, hErr, BitVec.and_allOnes, errField]
  · rw [field, hLow]; exact BitVec.and_zero
  · rw [field, hHigh]; exact BitVec.and_zero

/-! ## Legal states apart from `STATUS` and `PHASE`

`DataLegal` is the part of `Inv` that the bodies of the commands act on; the rest of `Inv` speaks of `STATUS`, `PHASE`
and the schedule, which the sequencer alone writes. -/

/-- The part of `Inv` that does not speak of `STATUS` and `PHASE`. -/
def DataLegal (s : State) : Prop := CapLegal s ∧ CountersLegal s ∧ MemoryLegal s

theorem DataLegal.capLegal {s : State} (h : DataLegal s) : CapLegal s := h.1

theorem Inv.data {s : State} (h : Inv s) : DataLegal s := by
  obtain ⟨hcap, -, -, hcount, hmem, -⟩ := h
  exact ⟨hcap, hcount, hmem⟩

/-- A completed command leaves a legal state when its data are legal (60_exceptions.md R262). -/
theorem inv_complete {s : State} (e : ErrCode) (h : DataLegal s) : Inv (complete e s) := by
  obtain ⟨hcap, hcount, hmem⟩ := h
  obtain ⟨hstatus, hphase, hsched⟩ := complete_legal e s
  exact ⟨hcap, hstatus, hphase, hcount, hmem, hsched⟩

/-- A move to another place of a schedule, with the command still running. -/
theorem inv_of_move {s t : State} (hs : Inv s) (hb : busy s = true) (hst : t.status = s.status) (hd : DataLegal t)
    (hp : t.phase ≠ .idle) (hl : ScheduleLegal t) : Inv t := by
  obtain ⟨-, hstatus, -, -, -, -⟩ := hs
  obtain ⟨hcap, hcount, hmem⟩ := hd
  have hbt : busy t = true := (busy_congr hst).trans hb
  refine ⟨hcap, ?_, ?_, hcount, hmem, hl⟩
  · unfold StatusLegal busy done errField at *
    rw [hst]
    exact hstatus
  · simp [PhaseLegal, hp, hbt]

/-- A write of a cell of `BUF` inside its space. -/
theorem DataLegal.setBuf {s : State} (h : DataLegal s) {i : Nat} (b : Byte) (hi : i < 4 * s.cap.toNat) :
    DataLegal (setBuf i b s) := by
  obtain ⟨hcap, hcount, hbw, hbb, hrest⟩ := h
  exact ⟨hcap, hcount, wf_store _ _ _ hbw, below_store _ _ _ _ hbb hi, hrest⟩

/-- A write of a cell of `V` inside its space. -/
theorem DataLegal.setV {s : State} (h : DataLegal s) {i : Nat} (w : Word) (hi : i < s.cap.toNat) :
    DataLegal (setV i w s) := by
  obtain ⟨hcap, hcount, hbw, hbb, hvw, hvb, hrest⟩ := h
  exact ⟨hcap, hcount, hbw, hbb, wf_store _ _ _ hvw, below_store _ _ _ _ hvb hi, hrest⟩

/-- A write of `P` inside `V`. -/
theorem DataLegal.setP {s : State} (h : DataLegal s) {p : Word} (hp : p.toNat < s.cap.toNat) :
    DataLegal { s with p := p } := by
  obtain ⟨hcap, ⟨hrnd, -⟩, hmem⟩ := h
  exact ⟨hcap, ⟨hrnd, hp⟩, hmem⟩

/-- A write of `RND` in its range; `SUM`, `Y` and `Z` may hold any word. -/
theorem DataLegal.setRnd {s : State} (h : DataLegal s) {r : Word} (hr : r.toNat ≤ 58) (a y z : Word) :
    DataLegal { s with rnd := r, sum := a, y := y, z := z } := by
  obtain ⟨hcap, ⟨-, hp⟩, hmem⟩ := h
  exact ⟨hcap, ⟨hr, hp⟩, hmem⟩

/-- A position in the array is a legal `P`. -/
theorem toNat_ofNat_lt {p n : Nat} (h : p < n) : (BitVec.ofNat 32 p).toNat < n := by
  rw [BitVec.toNat_ofNat]
  exact Nat.lt_of_le_of_lt (Nat.mod_le _ _) h

/-- While rounds are left, `RND` counts down by one. -/
theorem toNat_sub_one {r : Word} (h : r ≠ 0) : (r - 1).toNat = r.toNat - 1 := by
  bv_omega

/-! ## Reset -/

/-- A reset leaves a legal state, whatever the count of resets before it (10_state.md R50). -/
theorem inv_afterReset (n : Nat) : Inv (State.afterReset n) := by
  have hcap : (State.afterReset n).cap.toNat = Config.maxw := rfl
  have hst : (State.afterReset n).status = 0 := rfl
  have hrange := Config.maxw_range
  refine ⟨?_, ?_, ?_, ?_, reset_memories_legal n, trivial⟩
  · rw [CapLegal, hcap]
    exact hrange
  · unfold StatusLegal errField busy done
    rw [hst]
    decide
  · refine iff_of_true rfl ?_
    rw [busy, hst]
    decide
  · rw [CountersLegal, hcap]
    exact ⟨Nat.zero_le _, show 0 < Config.maxw by omega⟩

/-- Settles O1: `State.reset` and `resetEvent` are both `State.afterReset`. -/
theorem resetLeavesControlStateZero : Obligations.ResetLeavesControlStateZero := by
  obtain ⟨hlow, hhigh⟩ := Config.maxw_range
  rintro s t (rfl | rfl) <;>
    exact ⟨rfl, rfl, rfl, rfl, rfl, rfl, rfl, rfl, rfl, rfl, hlow, hhigh, rfl, rfl, rfl⟩

/-- Settles O2: the base case of the invariant, for every count of resets. -/
theorem resetStateLegal : Obligations.ResetStateLegal :=
  ⟨inv_afterReset 0, fun s => inv_afterReset (s.resets + 1)⟩

end Sys2Proof.Machine

namespace Sys2Proof.Machine

/-! ## What the bodies leave unchanged, field by field

`packBody_frame` and its like say it of the whole state; here are the fields that the later checks read. -/

@[simp] theorem keyBody_cmd (s : State) : (keyBody s).cmd = s.cmd := by rw [keyBody_frame s]
@[simp] theorem keyBody_status (s : State) : (keyBody s).status = s.status := by rw [keyBody_frame s]
@[simp] theorem keyBody_blen (s : State) : (keyBody s).blen = s.blen := by rw [keyBody_frame s]
@[simp] theorem keyBody_cap (s : State) : (keyBody s).cap = s.cap := by rw [keyBody_frame s]

@[simp] theorem packBody_cmd (s : State) : (packBody s).cmd = s.cmd := by rw [packBody_frame s]
@[simp] theorem packBody_status (s : State) : (packBody s).status = s.status := by rw [packBody_frame s]
@[simp] theorem packBody_cap (s : State) : (packBody s).cap = s.cap := by rw [packBody_frame s]
@[simp] theorem packBody_wlen (s : State) : (packBody s).wlen = BitVec.ofNat 32 (dataWords s) := by
  rw [packBody_frame s]

@[simp] theorem packlBody_cmd (s : State) : (packlBody s).cmd = s.cmd := by rw [packlBody_frame s]
@[simp] theorem packlBody_status (s : State) : (packlBody s).status = s.status := by rw [packlBody_frame s]
@[simp] theorem packlBody_cap (s : State) : (packlBody s).cap = s.cap := by rw [packlBody_frame s]
@[simp] theorem packlBody_wlen (s : State) : (packlBody s).wlen = BitVec.ofNat 32 (dataWords s + 1) := by
  rw [packlBody_frame s]

theorem encUpdate_wrote (p : Nat) (s : State) : EngineWrote s (encUpdate p s) := rfl

theorem decUpdate_wrote (p : Nat) (s : State) : EngineWrote s (decUpdate p s) := rfl

theorem EngineWrote.cmd {s t : State} (h : EngineWrote s t) : t.cmd = s.cmd := by rw [h]
theorem EngineWrote.status {s t : State} (h : EngineWrote s t) : t.status = s.status := by rw [h]
theorem EngineWrote.wlen {s t : State} (h : EngineWrote s t) : t.wlen = s.wlen := by rw [h]
theorem EngineWrote.cap {s t : State} (h : EngineWrote s t) : t.cap = s.cap := by rw [h]

/-! ## The checks, carried from body to body -/

theorem dataWords_keyBody (s : State) : dataWords (keyBody s) = dataWords s := by
  rw [dataWords, keyBody_blen, dataWords]

theorem EncryptFits.after_key {s : State} (h : EncryptFits s) : EncryptFits (keyBody s) := by
  rw [EncryptFits, dataWords_keyBody, keyBody_blen, keyBody_cap]
  exact h

theorem DecryptFits.after_key {s : State} (h : DecryptFits s) : DecryptFits (keyBody s) := by
  rw [DecryptFits, keyBody_blen, keyBody_cap]
  exact h

/-- `BLEN / 4` words of ciphertext are its `ceil(BLEN / 4)` words: there is no part of a word (R226). -/
theorem DecryptFits.dataWords_eq {s : State} (h : DecryptFits s) : dataWords s = s.blen.toNat / 4 := by
  obtain ⟨-, hmod, -⟩ := h
  unfold dataWords wordCount
  omega

theorem ArrayFits.of_wrote {s t : State} (h : ArrayFits s) (hw : EngineWrote s t) : ArrayFits t := by
  rw [ArrayFits, hw.wlen, hw.cap]
  exact h

/-- A count of words that fits `CAP` is written to `WLEN` as it is. -/
theorem toNat_ofNat_of_le_cap {s : State} (hc : CapLegal s) {n : Nat} (h : n ≤ s.cap.toNat) :
    (BitVec.ofNat 32 n).toNat = n := by
  obtain ⟨-, hhigh⟩ := hc
  rw [BitVec.toNat_ofNat, Nat.mod_eq_of_lt (by omega)]

/-- After `ENCRYPT`'s test the array that `PACKL`'s body packs fits (44_facade_commands.md R221). -/
theorem EncryptFits.arrayFits_packed {s : State} (h : EncryptFits s) (hc : CapLegal s) : ArrayFits (packlBody s) := by
  obtain ⟨-, hcap⟩ := h
  rw [ArrayFits, packlBody_wlen, packlBody_cap, toNat_ofNat_of_le_cap hc hcap]
  exact ⟨Nat.succ_pos _, hcap⟩

/-- After `DECRYPT`'s tests the array that `PACK`'s body packs fits (44_facade_commands.md R225). -/
theorem DecryptFits.arrayFits_packed {s : State} (h : DecryptFits s) (hc : CapLegal s) : ArrayFits (packBody s) := by
  have hw := h.dataWords_eq
  obtain ⟨hpos, hmod, hcap⟩ := h
  rw [ArrayFits, packBody_wlen, packBody_cap, hw, toNat_ofNat_of_le_cap hc hcap]
  omega

/-! ## The bodies keep the data legal -/

theorem DataLegal.keyBody {s : State} (h : DataLegal s) : DataLegal (keyBody s) := by
  rw [keyBody_frame s]
  exact h

/-- The packing loops write the first `ceil(BLEN / 4)` cells of `V`. -/
theorem DataLegal.packWords {s : State} (h : DataLegal s) (hw : dataWords s ≤ s.cap.toNat) :
    DataLegal (packWords s) := by
  have hbyte {i : Nat} (hi : i < s.blen.toNat) : i / 4 < dataWords s := by
    unfold dataWords wordCount
    omega
  have hcell {i : Nat} (w : Word) (hi : i < dataWords s) {t : State} (ht : DataLegal t ∧ t.cap = s.cap) :
      DataLegal (Machine.setV i w t) ∧ (Machine.setV i w t).cap = s.cap := by
    obtain ⟨hd, hcap⟩ := ht
    exact ⟨hd.setV w (by rw [hcap]; omega), hcap⟩
  have hclear := forUp_inv (fun _ t => DataLegal t ∧ t.cap = s.cap) (f := fun j t => Machine.setV j 0 t)
    (n := dataWords s) ⟨h, rfl⟩ fun _ _ hi ht => hcell 0 hi ht
  exact (forUp_inv (fun _ t => DataLegal t ∧ t.cap = s.cap) (f := packByte) hclear
    fun _ _ hi ht => hcell _ (hbyte hi) ht).1

theorem DataLegal.packBody {s : State} (h : DataLegal s) (hw : dataWords s ≤ s.cap.toNat) :
    DataLegal (packBody s) := h.packWords hw

theorem DataLegal.packlBody {s : State} (h : DataLegal s) (hw : dataWords s + 1 ≤ s.cap.toNat) :
    DataLegal (packlBody s) := by
  have hd : DataLegal (Machine.packWords s) := h.packWords (by omega)
  have hcap : (Machine.packWords s).cap = s.cap := by rw [packWords_frame s]
  exact hd.setV s.blen (i := dataWords s) (by rw [hcap]; omega)

theorem DataLegal.unpackBytes {s : State} (h : DataLegal s) {n : Nat} (hn : n ≤ 4 * s.cap.toNat) :
    DataLegal (unpackBytes n s) := by
  have hloop : DataLegal (forUp unpackByte n s) ∧ (forUp unpackByte n s).cap = s.cap :=
    forUp_inv (fun _ t => DataLegal t ∧ t.cap = s.cap) ⟨h, rfl⟩ fun _ _ hi ⟨hd, hcap⟩ =>
      ⟨hd.setBuf _ (by rw [hcap]; omega), hcap⟩
  exact hloop.1

theorem DataLegal.unpackBody {s : State} (h : DataLegal s) (hw : s.wlen.toNat ≤ s.cap.toNat) :
    DataLegal (unpackBody s) := h.unpackBytes (by omega)

/-- A word update of `ENCW` at a position of the array. -/
theorem DataLegal.encUpdate {s : State} (h : DataLegal s) {p : Nat} (hp : p < s.cap.toNat) :
    DataLegal (encUpdate p s) := (h.setP (toNat_ofNat_lt hp)).setV _ hp

/-- A word update of `DECW` at a position of the array. -/
theorem DataLegal.decUpdate {s : State} (h : DataLegal s) {p : Nat} (hp : p < s.cap.toNat) :
    DataLegal (decUpdate p s) := (h.setP (toNat_ofNat_lt hp)).setV _ hp

/-- What a ring pass keeps: the data legal, `CAP` and `RND` as they were. -/
def PassKeeps (s t : State) : Prop := DataLegal t ∧ t.cap = s.cap ∧ t.rnd = s.rnd

theorem encPass_keeps {s : State} (h : DataLegal s) {n : Nat} (hn : n ≤ s.cap.toNat) (a : Word) :
    PassKeeps s (forUp encUpdate n { s with sum := a }) :=
  forUp_inv (fun _ t => PassKeeps s t) ⟨h, rfl, rfl⟩ fun _ _ hi ⟨hd, hcap, hrnd⟩ =>
    ⟨hd.encUpdate (by rw [hcap]; omega), hcap, hrnd⟩

theorem decPass_keeps {s : State} (h : DataLegal s) {n : Nat} (hn : n ≤ s.cap.toNat) :
    PassKeeps s (forDown decUpdate n s) :=
  forDown_inv (fun _ t => PassKeeps s t) ⟨h, rfl, rfl⟩ fun _ _ hi ⟨hd, hcap, hrnd⟩ =>
    ⟨hd.decUpdate (by rw [hcap]; omega), hcap, hrnd⟩

/-- Counting down `RND` keeps it in range while rounds are left. -/
theorem DataLegal.countDown {s : State} (h : DataLegal s) (hr : s.rnd ≠ 0) (a : Word) :
    DataLegal { s with sum := a, rnd := s.rnd - 1 } := by
  have hrange : s.rnd.toNat ≤ 58 := by
    obtain ⟨-, ⟨hrnd, -⟩, -⟩ := h
    exact hrnd
  exact h.setRnd (by rw [toNat_sub_one hr]; omega) a s.y s.z

/-- What a round of either direction does with `RND`: it counts down, with the data legal. -/
def RoundKeeps (s t : State) : Prop := DataLegal t ∧ t.rnd = s.rnd - 1

theorem encRound_rnd (s : State) :
    (encRound s).rnd = (forUp encUpdate s.wlen.toNat { s with sum := s.sum + delta }).rnd - 1 := rfl

theorem decRound_rnd (s : State) : (decRound s).rnd = (forDown decUpdate s.wlen.toNat s).rnd - 1 := rfl

theorem encRound_keeps {s : State} (h : DataLegal s) (hw : s.wlen.toNat ≤ s.cap.toNat) (hr : s.rnd ≠ 0) :
    RoundKeeps s (encRound s) := by
  obtain ⟨hd, -, hrnd⟩ := encPass_keeps h hw (s.sum + delta)
  exact ⟨hd.countDown (by rw [hrnd]; exact hr) _, (encRound_rnd s).trans (congrArg (· - 1) hrnd)⟩

theorem decRound_keeps {s : State} (h : DataLegal s) (hw : s.wlen.toNat ≤ s.cap.toNat) (hr : s.rnd ≠ 0) :
    RoundKeeps s (decRound s) := by
  obtain ⟨hd, -, hrnd⟩ := decPass_keeps h hw
  exact ⟨hd.countDown (by rw [hrnd]; exact hr) _, (decRound_rnd s).trans (congrArg (· - 1) hrnd)⟩

/-- `q` is at most 58, which it is for one word (43_cipher_engine.md R182). -/
theorem roundCount_le (len : Nat) : roundCount len ≤ 58 := by
  have : 52 / len ≤ 52 := Nat.div_le_self 52 len
  unfold roundCount
  omega

theorem toNat_roundCount (len : Nat) : (BitVec.ofNat 32 (roundCount len)).toNat = roundCount len := by
  have := roundCount_le len
  rw [BitVec.toNat_ofNat, Nat.mod_eq_of_lt (by omega)]

theorem toNat_roundCount_le (len : Nat) : (BitVec.ofNat 32 (roundCount len)).toNat ≤ 58 := by
  rw [toNat_roundCount]
  exact roundCount_le len

theorem DataLegal.encLoad {s : State} (h : DataLegal s) : DataLegal (encLoad s) :=
  h.setRnd (toNat_roundCount_le _) _ _ _

theorem DataLegal.decLoad {s : State} (h : DataLegal s) : DataLegal (decLoad s) :=
  h.setRnd (toNat_roundCount_le _) _ _ _

/-- `RND` rounds of either direction, from a legal state whose array fits: each writes only what the engine may write,
and the count-down never passes 0 (10_state.md R25). -/
theorem rounds_keep {round : State → State} (hw : ∀ s, EngineWrote s (round s))
    (hk : ∀ s, DataLegal s → s.wlen.toNat ≤ s.cap.toNat → s.rnd ≠ 0 → RoundKeeps s (round s))
    {s : State} (h : DataLegal s) (hfit : s.wlen.toNat ≤ s.cap.toNat) :
    DataLegal (forUp (fun _ t => round t) s.rnd.toNat s) := by
  refine (forUp_inv (fun i t => EngineWrote s t ∧ DataLegal t ∧ t.rnd.toNat = s.rnd.toNat - i)
    ⟨EngineWrote.refl s, h, rfl⟩ fun i t hi ⟨hwrote, hd, hrnd⟩ => ?_).2.1
  have hleft : t.rnd ≠ 0 := by
    intro h0
    have : t.rnd.toNat = 0 := by rw [h0]; rfl
    omega
  obtain ⟨hd', hrnd'⟩ := hk t hd (by rw [hwrote.wlen, hwrote.cap]; exact hfit) hleft
  exact ⟨hwrote.trans (hw t), hd', by rw [hrnd', toNat_sub_one hleft, hrnd]; omega⟩

theorem encLoad_rnd (s : State) : (encLoad s).rnd = BitVec.ofNat 32 (roundCount s.wlen.toNat) := rfl

theorem decLoad_rnd (s : State) : (decLoad s).rnd = BitVec.ofNat 32 (roundCount s.wlen.toNat) := rfl

theorem DataLegal.encBody {s : State} (h : DataLegal s) (hw : s.wlen.toNat ≤ s.cap.toNat) :
    DataLegal (encBody s) := by
  have hq : (Machine.encLoad s).rnd.toNat = roundCount s.wlen.toNat := by
    rw [encLoad_rnd, toNat_roundCount]
  unfold Machine.encBody
  rw [← hq]
  exact rounds_keep encRound_wrote (fun _ => encRound_keeps) h.encLoad hw

theorem DataLegal.decBody {s : State} (h : DataLegal s) (hw : s.wlen.toNat ≤ s.cap.toNat) :
    DataLegal (decBody s) := by
  have hq : (Machine.decLoad s).rnd.toNat = roundCount s.wlen.toNat := by
    rw [decLoad_rnd, toNat_roundCount]
  unfold Machine.decBody
  rw [← hq]
  exact rounds_keep decRound_wrote (fun _ => decRound_keeps) h.decLoad
    (by rw [(decLoad_wrote s).wlen, (decLoad_wrote s).cap]; exact hw)

end Sys2Proof.Machine

namespace Sys2Proof.Machine

/-! ## What a command can do -/

/-- What `UNPACKL` after its first checks may leave: nothing written, or the embedded length accepted and that many
bytes unpacked (40_word_packer.md R134, R137). -/
def UnpacklLeaves (s u : State) : Prop :=
  u = s ∨ (embeddedLength s ≤ bytesBeforeLength s ∧ u = unpackBytes (embeddedLength s) s)

/-- What the body of the command `i` may leave when its checks have passed (30_encoding.md R94). -/
def BodyLeaves (i : Instr) (s u : State) : Prop :=
  match i with
  | .nop     => u = s
  | .keyld   => u = keyBody s
  | .pack    => dataWords s ≤ s.cap.toNat ∧ u = packBody s
  | .packl   => dataWords s + 1 ≤ s.cap.toNat ∧ u = packlBody s
  | .unpack  => s.wlen.toNat ≤ s.cap.toNat ∧ u = unpackBody s
  | .unpackl => ArrayFits s ∧ UnpacklLeaves s u
  | .encw    => ArrayFits s ∧ u = encBody s
  | .decw    => ArrayFits s ∧ u = decBody s
  | .encrypt => EncryptFits s ∧ u = unpackBody (encBody (packlBody (keyBody s)))
  | .decrypt => DecryptFits s ∧ UnpacklLeaves (decBody (packBody (keyBody s))) u

/-- The outcome `r` is a completion, with some result code, that leaves `s` or what the body of `i` leaves. -/
def Completes (i : Instr) (s : State) (r : Host.Outcome State Fault Refusal) : Prop :=
  ∃ e u, r = .next (complete e u) ∧ (u = s ∨ BodyLeaves i s u)

/-- Completion with nothing written. -/
theorem Completes.unchanged (i : Instr) (s : State) (e : ErrCode) : Completes i s (.next (complete e s)) :=
  ⟨e, s, rfl, .inl rfl⟩

/-- Completion after the body. -/
theorem Completes.of_body {i : Instr} {s u : State} (h : BodyLeaves i s u) :
    Completes i s (.next (complete .ok u)) := ⟨.ok, u, rfl, .inr h⟩

theorem unpacklFinish_leaves (s : State) : ∃ e u, unpacklFinish s = complete e u ∧ UnpacklLeaves s u := by
  unfold unpacklFinish
  split
  next h =>
    have hle : embeddedLength s ≤ bytesBeforeLength s := by
      simp only [lengthAccepted, decide_eq_true_eq] at h
      omega
    exact ⟨.ok, _, rfl, .inr ⟨hle, rfl⟩⟩
  next => exact ⟨.corrupt, s, rfl, .inl rfl⟩

/-- `UNPACKL`'s last part, alone or at the end of `DECRYPT`. -/
theorem Completes.of_unpacklFinish {i : Instr} {s v : State} (h : ∀ u, UnpacklLeaves v u → BodyLeaves i s u) :
    Completes i s (.next (unpacklFinish v)) := by
  obtain ⟨e, u, heq, hu⟩ := unpacklFinish_leaves v
  exact ⟨e, u, by rw [heq], .inr (h u hu)⟩

/-- Every command, from every state, completes; what it leaves is what it started from or what its body leaves
(60_exceptions.md R262). -/
theorem exec_completes (i : Instr) (s : State) : Completes i s (exec i s) := by
  have unchanged := Completes.unchanged i s
  cases i with
  | nop => exact unchanged .ok
  | keyld => exact .of_body rfl
  | pack =>
    show Completes _ _ (execPack s)
    unfold execPack
    split
    · exact unchanged .capacity
    · exact .of_body ⟨by omega, rfl⟩
  | packl =>
    show Completes _ _ (execPackl s)
    unfold execPackl
    split
    · exact unchanged .capacity
    · exact .of_body ⟨by omega, rfl⟩
  | unpack =>
    show Completes _ _ (execUnpack s)
    unfold execUnpack
    split
    · exact unchanged .capacity
    · exact .of_body ⟨by omega, rfl⟩
  | unpackl =>
    show Completes _ _ (execUnpackl s)
    unfold execUnpackl
    split
    · exact unchanged .zerolen
    · split
      · exact unchanged .capacity
      · exact .of_unpacklFinish fun _ hu => ⟨⟨by omega, by omega⟩, hu⟩
  | encw =>
    show Completes _ _ (execEncw s)
    unfold execEncw
    split
    · exact unchanged .zerolen
    · split
      · exact unchanged .capacity
      · exact .of_body ⟨⟨by omega, by omega⟩, rfl⟩
  | decw =>
    show Completes _ _ (execDecw s)
    unfold execDecw
    split
    · exact unchanged .zerolen
    · split
      · exact unchanged .capacity
      · exact .of_body ⟨⟨by omega, by omega⟩, rfl⟩
  | encrypt =>
    show Completes _ _ (execEncrypt s)
    unfold execEncrypt
    split
    · exact unchanged .ok
    · split
      · exact unchanged .capacity
      · exact .of_body ⟨⟨by omega, by omega⟩, rfl⟩
  | decrypt =>
    show Completes _ _ (execDecrypt s)
    unfold execDecrypt
    split
    · exact unchanged .ok
    · split
      · exact unchanged .shape
      · split
        · exact unchanged .capacity
        · exact .of_unpacklFinish fun _ hu => ⟨⟨by omega, by omega, by omega⟩, hu⟩

/-! ## Which command may write which state -/

/-- What the composite commands may write, which is all that any command may write. -/
def CompositeWrote (s t : State) : Prop :=
  t = { s with k := t.k, v := t.v, wlen := t.wlen, buf := t.buf, blen := t.blen,
               sum := t.sum, rnd := t.rnd, p := t.p, y := t.y, z := t.z }

theorem CompositeWrote.refl (s : State) : CompositeWrote s s := rfl

theorem CompositeWrote.trans {s t u : State} (h₁ : CompositeWrote s t) (h₂ : CompositeWrote t u) :
    CompositeWrote s u := by
  unfold CompositeWrote at *
  rw [h₂, h₁]

theorem keyBody_composite (s : State) : CompositeWrote s (keyBody s) := by
  rw [keyBody_frame s]
  rfl

theorem packBody_composite (s : State) : CompositeWrote s (packBody s) := by
  rw [packBody_frame s]
  rfl

theorem packlBody_composite (s : State) : CompositeWrote s (packlBody s) := by
  rw [packlBody_frame s]
  rfl

theorem unpackBytes_composite (n : Nat) (s : State) : CompositeWrote s (unpackBytes n s) := by
  rw [unpackBytes_frame n s]
  rfl

theorem EngineWrote.composite {s t : State} (h : EngineWrote s t) : CompositeWrote s t := by
  rw [h]
  rfl

theorem UnpacklLeaves.composite {s u : State} (h : UnpacklLeaves s u) : CompositeWrote s u := by
  obtain rfl | ⟨-, rfl⟩ := h
  · exact .refl u
  · exact unpackBytes_composite _ s

/-- What the command `i` may write besides `STATUS` and `PHASE` (30_encoding.md R94). -/
def CommandWrote (i : Instr) (s t : State) : Prop :=
  match i with
  | .nop => t = s
  | .keyld => t = { s with k := t.k }
  | .pack | .packl => t = { s with v := t.v, wlen := t.wlen }
  | .unpack | .unpackl => t = { s with buf := t.buf, blen := t.blen }
  | .encw | .decw => EngineWrote s t
  | .encrypt | .decrypt => CompositeWrote s t

theorem CommandWrote.refl (i : Instr) (s : State) : CommandWrote i s s := by
  cases i <;> rfl

theorem unpackBytes_wrote (n : Nat) (s : State) : CommandWrote .unpack s (unpackBytes n s) := by
  show unpackBytes n s = { s with buf := (unpackBytes n s).buf, blen := (unpackBytes n s).blen }
  rw [unpackBytes_frame n s]

theorem BodyLeaves.wrote {i : Instr} {s u : State} (h : BodyLeaves i s u) : CommandWrote i s u := by
  cases i with
  | nop => exact h
  | keyld =>
    obtain rfl := h
    exact keyBody_frame s
  | pack =>
    obtain ⟨-, rfl⟩ := h
    show packBody s = _
    rw [packBody_frame s]
  | packl =>
    obtain ⟨-, rfl⟩ := h
    show packlBody s = _
    rw [packlBody_frame s]
  | unpack =>
    obtain ⟨-, rfl⟩ := h
    exact unpackBytes_wrote _ s
  | unpackl =>
    obtain ⟨-, rfl | ⟨-, rfl⟩⟩ := h
    · rfl
    · exact unpackBytes_wrote _ s
  | encw =>
    obtain ⟨-, rfl⟩ := h
    exact encBody_wrote s
  | decw =>
    obtain ⟨-, rfl⟩ := h
    exact decBody_wrote s
  | encrypt =>
    obtain ⟨-, rfl⟩ := h
    exact (keyBody_composite s).trans <| (packlBody_composite _).trans <|
      (encBody_wrote _).composite.trans (unpackBytes_composite _ _)
  | decrypt =>
    obtain ⟨-, hu⟩ := h
    exact (keyBody_composite s).trans <| (packBody_composite _).trans <|
      (decBody_wrote _).composite.trans hu.composite

/-- A command's next state is the completion of a state in which it wrote only what it may write. -/
theorem exec_wrote {i : Instr} {s t : State} (h : exec i s = .next t) :
    ∃ e u, t = complete e u ∧ CommandWrote i s u := by
  obtain ⟨e, u, heq, hu⟩ := exec_completes i s
  rw [h] at heq
  injection heq with ht
  refine ⟨e, u, ht, ?_⟩
  obtain rfl | hbody := hu
  · exact .refl i u
  · exact hbody.wrote

/-- Settles O49: each command's own frame names every field that it may change. -/
theorem commandsWriteOnlyTheirState : Obligations.CommandsWriteOnlyTheirState := by
  intro s t i h
  obtain ⟨e, u, rfl, hu⟩ := exec_wrote h
  clear h
  cases i <;> (rw [show u = _ from hu]; simp)

/-! ## The engine registers are written before they are read -/

/-- A rising loop of at least one iteration does not see a difference that its first iteration does not see. -/
theorem forUp_of_first_eq {σ : Type} {f : Nat → σ → σ} {s t : σ} (h : f 0 s = f 0 t) {n : Nat} (hn : 0 < n) :
    forUp f n s = forUp f n t := by
  induction n with
  | zero => omega
  | succ n ih =>
    obtain rfl | hpos := Nat.eq_zero_or_pos n
    · exact h
    · exact congrArg (f n) (ih hpos)

/-- A falling loop likewise; its first iteration is the one at `n - 1`. -/
theorem forDown_of_first_eq {σ : Type} {f : Nat → σ → σ} {s t : σ} (h : ∀ i, f i s = f i t) {n : Nat} (hn : 0 < n) :
    forDown f n s = forDown f n t := by
  cases n with
  | zero => omega
  | succ n => exact congrArg (forDown f n) (h n)

theorem roundCount_pos (len : Nat) : 0 < roundCount len := by
  unfold roundCount
  exact Nat.add_pos_left (by decide) _

/-- A word update of `ENCW` writes `P` and `Y` before it reads them. -/
theorem encUpdate_eq_of_p_y (i : Nat) (s : State) (p y : Word) :
    encUpdate i { s with p := p, y := y } = encUpdate i s := rfl

/-- A word update of `DECW` writes `P` and `Z` before it reads them. -/
theorem decUpdate_eq_of_p_z (i : Nat) (s : State) (p z : Word) :
    decUpdate i { s with p := p, z := z } = decUpdate i s := rfl

theorem encRound_eq_of_p_y {s : State} (hw : 1 ≤ s.wlen.toNat) (p y : Word) :
    encRound { s with p := p, y := y } = encRound s := by
  have hpass (a : Word) : forUp encUpdate s.wlen.toNat { s with sum := a, p := p, y := y } =
      forUp encUpdate s.wlen.toNat { s with sum := a } :=
    forUp_of_first_eq (encUpdate_eq_of_p_y 0 { s with sum := a } p y) hw
  exact congrArg (fun t : State => { t with rnd := t.rnd - 1 }) (hpass (s.sum + delta))

theorem decRound_eq_of_p_z {s : State} (hw : 1 ≤ s.wlen.toNat) (p z : Word) :
    decRound { s with p := p, z := z } = decRound s := by
  have hpass : forDown decUpdate s.wlen.toNat { s with p := p, z := z } = forDown decUpdate s.wlen.toNat s :=
    forDown_of_first_eq (fun i => decUpdate_eq_of_p_z i s p z) hw
  exact congrArg (fun t : State => { t with sum := t.sum - delta, rnd := t.rnd - 1 }) hpass

/-- `ENCW` loads `RND`, `SUM` and `Z`, and its first update writes `P` and `Y` (43_cipher_engine.md R183). -/
theorem encBody_eq_of_engine {s : State} (hw : 1 ≤ s.wlen.toNat) (a y z p r : Word) :
    encBody { s with sum := a, y := y, z := z, p := p, rnd := r } = encBody s :=
  forUp_of_first_eq (f := fun _ t => encRound t) (encRound_eq_of_p_y (s := encLoad s) hw p y) (roundCount_pos _)

/-- `DECW` loads `RND`, `SUM` and `Y`, and its first update writes `P` and `Z` (43_cipher_engine.md R195). -/
theorem decBody_eq_of_engine {s : State} (hw : 1 ≤ s.wlen.toNat) (a y z p r : Word) :
    decBody { s with sum := a, y := y, z := z, p := p, rnd := r } = decBody s :=
  forUp_of_first_eq (f := fun _ t => decRound t)
    (decRound_eq_of_p_z (s := decLoad s) (by rw [(decLoad_wrote s).wlen]; exact hw) p z) (roundCount_pos _)

theorem execEncw_of_fits {s : State} (h : ArrayFits s) : exec .encw s = .next (complete .ok (encBody s)) := by
  obtain ⟨hpos, hcap⟩ := h
  show execEncw s = _
  rw [execEncw, if_neg (by omega), if_neg (by omega)]

theorem execDecw_of_fits {s : State} (h : ArrayFits s) : exec .decw s = .next (complete .ok (decBody s)) := by
  obtain ⟨hpos, hcap⟩ := h
  show execDecw s = _
  rw [execDecw, if_neg (by omega), if_neg (by omega)]

/-- Settles O34: the loads and the first word update write all five registers (10_state.md R27). -/
theorem engineRegistersNotReadBeforeWritten : Obligations.EngineRegistersNotReadBeforeWritten := by
  rintro s i a y z p r (rfl | rfl) hpos hcap
  · refine ⟨_, execEncw_of_fits ⟨hpos, hcap⟩, ?_⟩
    rw [execEncw_of_fits (s := { s with sum := a, y := y, z := z, p := p, rnd := r }) ⟨hpos, hcap⟩,
      encBody_eq_of_engine hpos]
  · refine ⟨_, execDecw_of_fits ⟨hpos, hcap⟩, ?_⟩
    rw [execDecw_of_fits (s := { s with sum := a, y := y, z := z, p := p, rnd := r }) ⟨hpos, hcap⟩,
      decBody_eq_of_engine hpos]

end Sys2Proof.Machine

namespace Sys2Proof.Machine

/-! ## The invariant at the big-step level -/

/-- The last part of `UNPACKL`, on an array that fits. -/
theorem DataLegal.unpacklLeaves {s u : State} (h : DataLegal s) (hf : ArrayFits s) (hu : UnpacklLeaves s u) :
    DataLegal u := by
  obtain rfl | ⟨hle, rfl⟩ := hu
  · exact h
  · obtain ⟨-, hcap⟩ := hf
    exact h.unpackBytes (by unfold bytesBeforeLength at hle; omega)

theorem ArrayFits.unpacklFinish_inv {s : State} (hf : ArrayFits s) (h : DataLegal s) : Inv (unpacklFinish s) := by
  obtain ⟨e, u, heq, hu⟩ := unpacklFinish_leaves s
  rw [heq]
  exact inv_complete e (h.unpacklLeaves hf hu)

theorem EncryptFits.data_packed {s : State} (hf : EncryptFits s) (h : DataLegal s) : DataLegal (packlBody s) :=
  h.packlBody hf.2

theorem DecryptFits.data_packed {s : State} (hf : DecryptFits s) (h : DataLegal s) : DataLegal (packBody s) := by
  have hw := hf.dataWords_eq
  obtain ⟨-, -, hcap⟩ := hf
  exact h.packBody (by rw [hw]; exact hcap)

theorem BodyLeaves.data {i : Instr} {s u : State} (h : BodyLeaves i s u) (hd : DataLegal s) : DataLegal u := by
  cases i with
  | nop =>
    obtain rfl := h
    exact hd
  | keyld =>
    obtain rfl := h
    exact hd.keyBody
  | pack =>
    obtain ⟨hw, rfl⟩ := h
    exact hd.packBody hw
  | packl =>
    obtain ⟨hw, rfl⟩ := h
    exact hd.packlBody hw
  | unpack =>
    obtain ⟨hw, rfl⟩ := h
    exact hd.unpackBody hw
  | unpackl =>
    obtain ⟨hf, hu⟩ := h
    exact hd.unpacklLeaves hf hu
  | encw =>
    obtain ⟨⟨-, hw⟩, rfl⟩ := h
    exact hd.encBody hw
  | decw =>
    obtain ⟨⟨-, hw⟩, rfl⟩ := h
    exact hd.decBody hw
  | encrypt =>
    obtain ⟨hf, rfl⟩ := h
    have hk := hd.keyBody
    have ha := hf.after_key.arrayFits_packed hk.capLegal
    have hb := ha.of_wrote (encBody_wrote _)
    exact ((hf.after_key.data_packed hk).encBody ha.2).unpackBody hb.2
  | decrypt =>
    obtain ⟨hf, hu⟩ := h
    have hk := hd.keyBody
    have ha := hf.after_key.arrayFits_packed hk.capLegal
    have hb := ha.of_wrote (decBody_wrote _)
    exact ((hf.after_key.data_packed hk).decBody ha.2).unpacklLeaves hb hu

/-- The outcome `r` is a next state, and a legal one. -/
def NextLegal (r : Host.Outcome State Fault Refusal) : Prop := ∃ t, r = .next t ∧ Inv t

theorem nextLegal_next {t : State} (h : Inv t) : NextLegal (.next t) := ⟨t, rfl, h⟩

/-- Every command, run as a whole, leads from legal data to a legal state. -/
theorem exec_legal (i : Instr) {s : State} (h : DataLegal s) : NextLegal (exec i s) := by
  obtain ⟨e, u, heq, hu⟩ := exec_completes i s
  refine ⟨_, heq, inv_complete e ?_⟩
  obtain rfl | hbody := hu
  · exact h
  · exact hbody.data h

theorem runIssued_legal {s : State} (h : DataLegal s) : NextLegal (runIssued s) := by
  unfold runIssued
  split
  · exact exec_legal _ h
  · exact nextLegal_next (inv_complete .illcmd h)

/-! ## The invariant at the places of the schedules -/

theorem running_congr {i : Instr} {s t : State} (hc : t.cmd = s.cmd) : Running i t ↔ Running i s := by
  rw [Running, Running, hc]

/-- What a step of the engine can do: it finishes after the last round, or it goes to a place of the engine having
written only what the engine may write (43_cipher_engine.md R206, R209). -/
def EngineMoves (place : EnginePhase → Phase) (finish : State → State) (s u : State) : Prop :=
  u = finish s ∨ ∃ e t, u = { t with phase := place e } ∧ EngineWrote s t ∧ DataLegal t ∧ EngineFits e t

/-- The engine may always go to `E_ROUND`. -/
theorem EngineMoves.to_round {place : EnginePhase → Phase} {finish : State → State} {s t : State}
    (hw : EngineWrote s t) (hd : DataLegal t) (hf : ArrayFits s) :
    EngineMoves place finish s { t with phase := place .round } :=
  .inr ⟨.round, t, rfl, hw, hd, hf.of_wrote hw, nofun⟩

/-- The engine may go to `E_WORD` at a position of the array, with `SUM` any word, while a round is left. -/
theorem EngineMoves.to_word {place : EnginePhase → Phase} {finish : State → State} {s t : State}
    (hw : EngineWrote s t) (hd : DataLegal t) (hf : ArrayFits s) (hr : t.rnd ≠ 0) {p : Word}
    (hp : p.toNat < t.wlen.toNat) (a : Word) :
    EngineMoves place finish s { t with sum := a, p := p, phase := place .word } := by
  have hwrote : EngineWrote s { t with sum := a, p := p } := hw.trans rfl
  have hft := hf.of_wrote hw
  have hdata : DataLegal { t with sum := a, p := p } := hd.setP (Nat.lt_of_lt_of_le hp hft.2)
  exact .inr ⟨.word, _, rfl, hwrote, hdata, hf.of_wrote hwrote, fun _ => ⟨hr, hp⟩⟩

theorem encEngineStep_moves (place : EnginePhase → Phase) (finish : State → State) {e : EnginePhase} {s : State}
    (hd : DataLegal s) (hf : EngineFits e s) : EngineMoves place finish s (encEngineStep place finish e s) := by
  obtain ⟨hfit, hword⟩ := hf
  cases e with
  | load => exact .to_round rfl hd.encLoad hfit
  | round =>
    show EngineMoves _ _ _ (ite _ _ _)
    split
    · exact .inl rfl
    · exact .to_word (.refl s) hd hfit ‹_› (p := 0) hfit.1 _
  | word =>
    obtain ⟨hrnd, hp⟩ := hword rfl
    have hd' : DataLegal (encUpdate s.p.toNat s) := hd.encUpdate (Nat.lt_of_lt_of_le hp hfit.2)
    show EngineMoves _ _ _ (ite _ _ _)
    split
    next hmore => exact .to_word (encUpdate_wrote _ s) hd' hfit hrnd (by show (s.p + 1).toNat < s.wlen.toNat; bv_omega) _
    next => exact .to_round ((encUpdate_wrote _ s).trans (engineWrote_counters _ _ _)) (hd'.countDown hrnd _) hfit

theorem decEngineStep_moves (place : EnginePhase → Phase) (finish : State → State) {e : EnginePhase} {s : State}
    (hd : DataLegal s) (hf : EngineFits e s) : EngineMoves place finish s (decEngineStep place finish e s) := by
  obtain ⟨hfit, hword⟩ := hf
  cases e with
  | load => exact .to_round (decLoad_wrote s) hd.decLoad hfit
  | round =>
    show EngineMoves _ _ _ (ite _ _ _)
    split
    · exact .inl rfl
    · have hlen : s.wlen.toNat - 1 < s.wlen.toNat := Nat.sub_lt hfit.1 Nat.one_pos
      exact .to_word (.refl s) hd hfit ‹_› (toNat_ofNat_lt hlen) _
  | word =>
    obtain ⟨hrnd, hp⟩ := hword rfl
    have hd' : DataLegal (decUpdate s.p.toNat s) := hd.decUpdate (Nat.lt_of_lt_of_le hp hfit.2)
    show EngineMoves _ _ _ (ite _ _ _)
    split
    next hpos => exact .to_word (decUpdate_wrote _ s) hd' hfit hrnd (by show (s.p - 1).toNat < s.wlen.toNat; bv_omega) _
    next => exact .to_round ((decUpdate_wrote _ s).trans (engineWrote_counters _ _ _)) (hd'.countDown hrnd _) hfit

/-- A step of the engine inside `ENCW` or `DECW`. -/
theorem EngineMoves.inv_engine {s u : State} (hs : Inv s) (hb : busy s = true)
    (hr : Running .encw s ∨ Running .decw s) (h : EngineMoves .engine (complete .ok) s u) : Inv u := by
  obtain rfl | ⟨e, t, rfl, hw, hd, hf⟩ := h
  · exact inv_complete .ok hs.data
  · exact inv_of_move hs hb hw.status hd nofun
      ⟨hr.imp (running_congr hw.cmd).2 (running_congr hw.cmd).2, hf⟩

/-- A step of the engine inside `ENCRYPT` or `DECRYPT`. -/
theorem EngineMoves.inv_fEngine {s u : State} (hs : Inv s) (hb : busy s = true)
    (hr : Running .encrypt s ∨ Running .decrypt s) (hfit : ArrayFits s) (h : EngineMoves .fEngine toUnpack s u) :
    Inv u := by
  obtain rfl | ⟨e, t, rfl, hw, hd, hf⟩ := h
  · exact inv_of_move hs hb rfl hs.data nofun ⟨hr, hfit⟩
  · exact inv_of_move hs hb hw.status hd nofun
      ⟨hr.imp (running_congr hw.cmd).2 (running_congr hw.cmd).2, hf⟩

end Sys2Proof.Machine

namespace Sys2Proof.Machine

/-! ## One step of either core -/

/-- `F_KEY` to `F_PACK`, for either composite command (44_facade_commands.md R230). -/
theorem inv_after_fKey {s : State} (hs : Inv s) (hb : busy s = true)
    (h : (Running .encrypt s ∧ EncryptFits s) ∨ (Running .decrypt s ∧ DecryptFits s)) :
    Inv { keyBody s with phase := .fPack } := by
  have hc : (keyBody s).cmd = s.cmd := keyBody_cmd s
  exact inv_of_move hs hb (keyBody_status s) hs.data.keyBody nofun
    (h.imp (fun ⟨hr, hf⟩ => ⟨(running_congr hc).2 hr, hf.after_key⟩)
      (fun ⟨hr, hf⟩ => ⟨(running_congr hc).2 hr, hf.after_key⟩))

/-- `F_PACK` to `F_ENGINE`, with `t` what the packer's body left. -/
theorem inv_after_fPack {s t : State} (hs : Inv s) (hb : busy s = true)
    (hr : Running .encrypt s ∨ Running .decrypt s) (hc : t.cmd = s.cmd) (hst : t.status = s.status)
    (hd : DataLegal t) (hf : ArrayFits t) : Inv { t with phase := .fEngine .load } :=
  inv_of_move hs hb hst hd nofun ⟨hr.imp (running_congr hc).2 (running_congr hc).2, hf, nofun⟩

theorem encryptCheck_inv {s : State} (hs : Inv s) (hb : busy s = true) (hr : Running .encrypt s) :
    Inv (encryptCheck s) := by
  by_cases hf : EncryptFits s
  · rw [encryptCheck_of_fits hf]
    exact inv_of_move hs hb rfl hs.data nofun (.inl ⟨hr, hf⟩)
  · obtain ⟨t, heq, ht⟩ := exec_legal .encrypt hs.data
    rw [show exec .encrypt s = .next (encryptCheck s) from encryptCheck_ended hf] at heq
    injection heq with heq
    rwa [heq]

theorem decryptCheck_inv {s : State} (hs : Inv s) (hb : busy s = true) (hr : Running .decrypt s) :
    Inv (decryptCheck s) := by
  by_cases hf : DecryptFits s
  · rw [decryptCheck_of_fits hf]
    exact inv_of_move hs hb rfl hs.data nofun (.inr ⟨hr, hf⟩)
  · obtain ⟨t, heq, ht⟩ := exec_legal .decrypt hs.data
    rw [show exec .decrypt s = .next (decryptCheck s) from decryptCheck_ended hf] at heq
    injection heq with heq
    rwa [heq]

/-- From a place of the engine inside `ENCW` or `DECW`. -/
theorem microStep_engine {s : State} (hs : Inv s) (hb : busy s = true) {e : EnginePhase} (hp : s.phase = .engine e)
    (hr : Running .encw s ∨ Running .decw s) (hf : EngineFits e s) : NextLegal (microStep s) := by
  obtain henc | hdec := hr
  · rw [microStep_encw henc]
    simp only [encwStep, hp]
    exact nextLegal_next ((encEngineStep_moves _ _ hs.data hf).inv_engine hs hb (.inl henc))
  · rw [microStep_decw hdec]
    simp only [decwStep, hp]
    exact nextLegal_next ((decEngineStep_moves _ _ hs.data hf).inv_engine hs hb (.inr hdec))

theorem microStep_fCheck {s : State} (hs : Inv s) (hb : busy s = true) (hp : s.phase = .fCheck)
    (hr : Running .encrypt s ∨ Running .decrypt s) : NextLegal (microStep s) := by
  obtain henc | hdec := hr
  · rw [microStep_encrypt henc]
    simp only [encryptStep, hp]
    exact nextLegal_next (encryptCheck_inv hs hb henc)
  · rw [microStep_decrypt hdec]
    simp only [decryptStep, hp]
    exact nextLegal_next (decryptCheck_inv hs hb hdec)

theorem microStep_fKey {s : State} (hs : Inv s) (hb : busy s = true) (hp : s.phase = .fKey)
    (h : (Running .encrypt s ∧ EncryptFits s) ∨ (Running .decrypt s ∧ DecryptFits s)) : NextLegal (microStep s) := by
  have hnext := nextLegal_next (inv_after_fKey hs hb h)
  obtain ⟨henc, -⟩ | ⟨hdec, -⟩ := h
  · rw [microStep_encrypt henc]
    simpa only [encryptStep, hp] using hnext
  · rw [microStep_decrypt hdec]
    simpa only [decryptStep, hp] using hnext

theorem microStep_fPack {s : State} (hs : Inv s) (hb : busy s = true) (hp : s.phase = .fPack)
    (h : (Running .encrypt s ∧ EncryptFits s) ∨ (Running .decrypt s ∧ DecryptFits s)) : NextLegal (microStep s) := by
  have hd := hs.data
  obtain ⟨henc, hf⟩ | ⟨hdec, hf⟩ := h
  · rw [microStep_encrypt henc]
    simp only [encryptStep, hp]
    exact nextLegal_next (inv_after_fPack hs hb (.inl henc) (packlBody_cmd s) (packlBody_status s)
      (hf.data_packed hd) (hf.arrayFits_packed hd.capLegal))
  · rw [microStep_decrypt hdec]
    simp only [decryptStep, hp]
    exact nextLegal_next (inv_after_fPack hs hb (.inr hdec) (packBody_cmd s) (packBody_status s)
      (hf.data_packed hd) (hf.arrayFits_packed hd.capLegal))

/-- From a place of the engine inside `ENCRYPT` or `DECRYPT`. -/
theorem microStep_fEngine {s : State} (hs : Inv s) (hb : busy s = true) {e : EnginePhase}
    (hp : s.phase = .fEngine e) (hr : Running .encrypt s ∨ Running .decrypt s) (hf : EngineFits e s) :
    NextLegal (microStep s) := by
  have hfit := hf.1
  obtain henc | hdec := hr
  · rw [microStep_encrypt henc]
    simp only [encryptStep, hp]
    exact nextLegal_next ((encEngineStep_moves _ _ hs.data hf).inv_fEngine hs hb (.inl henc) hfit)
  · rw [microStep_decrypt hdec]
    simp only [decryptStep, hp]
    exact nextLegal_next ((decEngineStep_moves _ _ hs.data hf).inv_fEngine hs hb (.inr hdec) hfit)

theorem microStep_fUnpack {s : State} (hs : Inv s) (hp : s.phase = .fUnpack)
    (hr : Running .encrypt s ∨ Running .decrypt s) (hf : ArrayFits s) : NextLegal (microStep s) := by
  obtain henc | hdec := hr
  · rw [microStep_encrypt henc]
    simp only [encryptStep, hp]
    exact nextLegal_next (inv_complete .ok (hs.data.unpackBody hf.2))
  · rw [microStep_decrypt hdec]
    simp only [decryptStep, hp]
    exact nextLegal_next (hf.unpacklFinish_inv hs.data)

/-- From every place of a schedule: `Inv` names the commands that may be there and what their checks have shown. -/
theorem microStep_legal {s : State} (hs : Inv s) (hb : busy s = true) (hrun : s.phase ≠ .run) :
    NextLegal (microStep s) := by
  have ⟨_, _, hphase, _, _, hsched⟩ := hs
  unfold ScheduleLegal at hsched
  split at hsched
  next hp => exact absurd (hphase.1 hp) (by simp [hb])
  next hp => exact absurd hp hrun
  next e hp => exact microStep_engine hs hb hp hsched.1 hsched.2
  next hp => exact microStep_fCheck hs hb hp hsched
  next hp => exact microStep_fKey hs hb hp hsched
  next hp => exact microStep_fPack hs hb hp hsched
  next e hp => exact microStep_fEngine hs hb hp hsched.1 hsched.2
  next hp => exact microStep_fUnpack hs hp hsched.1 hsched.2

/-- The checks of `ENCW` and `DECW` before `E_INIT` (43_cipher_engine.md R205). -/
theorem enterEngine_inv {s : State} (hs : Inv s) (hb : busy s = true) (hr : Running .encw s ∨ Running .decw s) :
    Inv (enterEngine s) := by
  have hd := hs.data
  unfold enterEngine
  split
  · exact inv_complete .zerolen hd
  · split
    · exact inv_complete .capacity hd
    · have hfit : ArrayFits s := ⟨by omega, by omega⟩
      exact inv_of_move hs hb rfl hd nofun ⟨hr, hfit, nofun⟩

/-- An issued command at the step level enters its schedule, or runs as a whole. -/
theorem startFine_legal {s : State} (hs : Inv s) (hb : busy s = true) : NextLegal (startFine s) := by
  have hd := hs.data
  unfold startFine
  split
  next h => exact nextLegal_next (enterEngine_inv hs hb (.inl h))
  next h => exact nextLegal_next (enterEngine_inv hs hb (.inr h))
  next h => exact nextLegal_next (inv_of_move hs hb rfl hd nofun (.inl h))
  next h => exact nextLegal_next (inv_of_move hs hb rfl hd nofun (.inr h))
  next => exact exec_legal .nop hd
  next => exact exec_legal .keyld hd
  next => exact exec_legal .pack hd
  next => exact exec_legal .packl hd
  next => exact exec_legal .unpack hd
  next => exact exec_legal .unpackl hd
  next => exact nextLegal_next (inv_complete .illcmd hd)

/-- Settles O3: an idle state stays, an issued command completes, and a place of a schedule leads to a legal state. -/
theorem stepKeepsLegalStates : Obligations.StepKeepsLegalStates := by
  intro s hs
  cases hb : busy s with
  | false => exact ⟨s, step_of_idle hb, hs⟩
  | true =>
    by_cases hrun : s.phase = .run
    · rw [step_of_run hb hrun]
      exact runIssued_legal hs.data
    · rw [step_of_place hb hrun]
      exact microStep_legal hs hb hrun

/-- Settles O4: away from `RUN` the two cores agree; at `RUN` the command enters its schedule. -/
theorem fineStepKeepsLegalStates : Obligations.FineStepKeepsLegalStates := by
  intro s hs
  cases hb : busy s with
  | false => exact ⟨s, stepFine_of_idle hb, hs⟩
  | true =>
    by_cases hrun : s.phase = .run
    · rw [stepFine_of_run hb hrun]
      exact startFine_legal hs hb
    · rw [stepFine_of_place hb hrun]
      exact stepKeepsLegalStates s hs

end Sys2Proof.Machine

namespace Sys2Proof

/-! ## The decoder and the encoder

A word is its three fields (30_encoding.md R90), and the words that pass the decoder's checks have the fields of a row of
R92's table. -/

theorem wordOfFields_fieldsOfWord (w : Word) : wordOfFields (fieldsOfWord w) = w := by
  show w.extractLsb' 5 27 ++ w.extractLsb' 4 1 ++ w.extractLsb' 0 4 = w
  rw [BitVec.extractLsb'_append_extractLsb'_eq_extractLsb' (by rfl),
    BitVec.extractLsb'_append_extractLsb'_eq_extractLsb' (by rfl)]
  exact BitVec.extractLsb'_eq_self

/-- A row of the table is found by its own fields. -/
theorem fields_of_commandOf {op : Nat} {l : Bool} {i : Instr} (h : commandOf op l = some i) :
    i.fields = ⟨0, BitVec.ofBool l, BitVec.ofNat 4 op⟩ := by
  unfold commandOf at h
  split at h <;> cases h <;> rfl

theorem ofBool_eq_one_self (l : BitVec 1) : BitVec.ofBool (l == 1) = l := by
  revert l; decide

/-- The three checks passed and the command's row named: the word's fields are that row's. -/
theorem fieldsOfWord_of_decode {w : Word} {i : Instr} (h : decode w = .ok i) : fieldsOfWord w = i.fields := by
  simp only [decode] at h
  split at h
  · cases h
  · split at h
    · cases h
    · split at h
      next hrsv _ _ _ hcmd =>
        cases h
        have hzero : (fieldsOfWord w).rsv = 0 := by simpa [FormatC.rsvZero] using hrsv
        rw [fields_of_commandOf hcmd, ofBool_eq_one_self, BitVec.ofNat_toNat, BitVec.setWidth_eq, ← hzero]
      · cases h

theorem decode_encode (i : Instr) : decode (encode i) = .ok i := by
  cases i <;> rfl

/-- Settles O11: the encoder puts a row's fields together, and a word that decodes to the row has those fields. -/
theorem decodeAndEncodeAgree : Obligations.DecodeAndEncodeAgree := by
  intro w i
  constructor
  · intro h
    rw [encode, ← fieldsOfWord_of_decode h, wordOfFields_fieldsOfWord]
  · rintro rfl
    exact decode_encode i

/-- Settles O10: the words of the table are the commands' own. -/
theorem tableWordsDecode : Obligations.TableWordsDecode :=
  ⟨decode_encode .nop, decode_encode .keyld, decode_encode .pack, decode_encode .packl, decode_encode .unpack,
    decode_encode .unpackl, decode_encode .encw, decode_encode .decw, decode_encode .encrypt, decode_encode .decrypt⟩

/-! ## The illegal words -/

/-- The illegal words as 30_encoding.md R95 lists them. -/
def IllegalWord (w : Word) : Prop :=
  w &&& 0xFFFFFFE0 ≠ 0 ∨ (8 ≤ w.toNat ∧ w.toNat ≤ 15) ∨ w = 0x10 ∨ w = 0x11 ∨ (0x14 ≤ w.toNat ∧ w.toNat ≤ 0x1F)

theorem not_illegalWord_encode (i : Instr) : ¬ IllegalWord (encode i) := by
  unfold IllegalWord
  cases i <;> decide

/-- Without bits 31:5 a word is its low five bits. -/
theorem setWidth_five_setWidth {w : Word} (h : w &&& 0xFFFFFFE0 = 0) : (w.setWidth 5).setWidth 32 = w := by
  refine BitVec.eq_of_getLsbD_eq fun i hi => ?_
  rw [BitVec.getLsbD_setWidth, BitVec.getLsbD_setWidth]
  by_cases h5 : i < 5
  · simp [h5, hi]
  · have hmask : ∀ j < 32, ¬ j < 5 → (0xFFFFFFE0 : Word).getLsbD j = true := by decide
    have hbit : (w &&& 0xFFFFFFE0).getLsbD i = false := by rw [h]; exact BitVec.getLsbD_zero
    rw [BitVec.getLsbD_and, hmask i hi h5, Bool.and_true] at hbit
    simp [h5, hbit]

/-- Each of the 32 words without bits 31:5 is on R95's list or decodes. -/
theorem decode_isOk_of_low (x : BitVec 5) :
    ¬ IllegalWord (x.setWidth 32) → (decode (x.setWidth 32)).isOk = true := by
  unfold IllegalWord
  revert x
  decide

theorem exists_encode_of_not_illegalWord {w : Word} (h : ¬ IllegalWord w) : ∃ i, w = encode i := by
  have hlow : w &&& 0xFFFFFFE0 = 0 := by
    by_contra hbit
    exact h (.inl hbit)
  have hw := setWidth_five_setWidth hlow
  have hok := decode_isOk_of_low (w.setWidth 5)
  rw [hw] at hok
  cases hd : decode w with
  | ok i => exact ⟨i, (decodeAndEncodeAgree w i).1 hd⟩
  | error e =>
    rw [hd] at hok
    exact absurd (hok h) Bool.false_ne_true

end Sys2Proof

namespace Sys2Proof.Machine

/-! ## Issue, the step of an issued command, and `RUN` -/

theorem issuedStatus_eq : issuedStatus = 0x1 := by decide

theorem completedStatus_illcmd : completedStatus .illcmd = 0x52 := by decide

/-- A host write to a named register of an idle block (45_host_access.md R241). -/
theorem writeReg_of_idle {number : Nat} {r : Reg} (hr : regOfNumber number = some r) {s : State}
    (hb : busy s = false) (w : Word) : writeReg number w s = .next (storeReg r w s) := by
  rw [writeReg, hr]
  exact if_neg (by simp [hb])

/-- The same of a busy block (93_implementation_defined.md U1, U2). -/
theorem writeReg_of_busy {number : Nat} {r : Reg} (hr : regOfNumber number = some r) {s : State}
    (hb : busy s = true) (w : Word) : writeReg number w s = .refused (busyRefusal r) := by
  rw [writeReg, hr]
  exact if_pos hb

theorem writeReg_cmd_of_idle {s : State} (hb : busy s = false) (w : Word) : writeReg 0 w s = .next (issue w s) :=
  writeReg_of_idle (r := .cmd) rfl hb w

/-- Settles O9: register 0 is `CMD`, whose write is the issue of R91. -/
theorem writeOfCmdIssues : Obligations.WriteOfCmdIssues := by
  intro s w
  constructor
  · intro hb
    rw [writeReg_cmd_of_idle hb, issue, issuedStatus_eq]
  · intro hb
    exact writeReg_of_busy (r := .cmd) rfl hb w

theorem runIssued_of_decode {s : State} {i : Instr} (h : decode s.cmd = .ok i) : runIssued s = exec i s := by
  rw [runIssued, h]

theorem runIssued_of_illegal {s : State} (h : ∀ i, decode s.cmd ≠ .ok i) :
    runIssued s = .next (complete .illcmd s) := by
  unfold runIssued
  split
  next i hi => exact absurd hi (h i)
  next => rfl

theorem step_issue (w : Word) (s : State) : step (issue w s) = runIssued (issue w s) :=
  step_of_run (busy_issue w s) rfl

/-- Settles O7: at `RUN` the core decodes `CMD` and does nothing else. -/
theorem stepRunsDecodedCommand : Obligations.StepRunsDecodedCommand := by
  intro s i hb hp hd
  rw [step_of_run hb hp, runIssued_of_decode hd]

theorem complete_illcmd_issue (w : Word) (s : State) :
    complete .illcmd (issue w s) = { s with cmd := w, status := 0x52, phase := .idle } := by
  rw [complete, completedStatus_illcmd]
  rfl

/-- Settles O12: R95's list is the complement of the ten words, so a listed word decodes to no command. -/
theorem illegalWordsRaiseIllcmd : Obligations.IllegalWordsRaiseIllcmd := by
  intro s w hb
  constructor
  · intro hw
    have hill : ∀ i, decode w ≠ .ok i := by
      intro i hi
      obtain rfl := (decodeAndEncodeAgree w i).1 hi
      exact not_illegalWord_encode i hw
    refine ⟨issue w s, writeReg_cmd_of_idle hb w, busy_issue w s, done_issue w s, errField_issue w s, ?_⟩
    rw [step_issue, runIssued_of_illegal (s := issue w s) hill, complete_illcmd_issue]
  · intro hw
    obtain ⟨i, rfl⟩ := exists_encode_of_not_illegalWord hw
    exact ⟨i, rfl, decode_encode i⟩

theorem runUntilIdle_of_idle {s : State} (hb : busy s = false) (n : Nat) : runUntilIdle n s = .next s := by
  cases n with
  | zero => rfl
  | succ n => rw [runUntilIdle, if_neg (by simp [hb])]

theorem exists_stepsEnough_eq_succ (s : State) : ∃ n, stepsEnough s = n + 1 :=
  ⟨_, rfl⟩

/-- A wait for a command that completes in one step (45_host_access.md R249). -/
theorem wait_of_completing_step {s : State} {e : ErrCode} {u : State} (hb : busy s = true)
    (h : step s = .next (complete e u)) : Machine.wait s = .next (complete e u, completedStatus e) := by
  obtain ⟨n, hn⟩ := exists_stepsEnough_eq_succ s
  rw [Machine.wait, hn, runUntilIdle, if_pos hb, h, andThen_next, runUntilIdle_of_idle (busy_complete e u),
    andThen_next, readStatus_complete]

theorem hostAct_writeReg {n : Nat} {w : Word} {s t : State} (h : writeReg n w s = .next t) :
    hostAct (.writeReg n w) s = .next (t, .none) := by
  rw [hostAct, h, andThen_next]

theorem runScript_cons {a : HostAction} {s t : State} {v : HostValue} (h : hostAct a s = .next (t, v))
    (rest : List HostAction) :
    runScript (a :: rest) s = andThen (runScript rest t) (fun u => .next (u.1, v :: u.2)) := by
  rw [runScript, h, andThen_next]

/-- Settles O56: the issued command completes in one step, and a completed `STATUS` reads as it stands. -/
theorem runCommandRunsIt : Obligations.RunCommandRunsIt := by
  intro s i hb
  obtain ⟨e, u, hexec, -⟩ := exec_completes i (issue (encode i) s)
  refine ⟨complete e u, ?_, ?_⟩
  · rw [← issuedStatus_eq]
    exact hexec
  · have hstep : step (issue (encode i) s) = .next (complete e u) := by
      rw [step_issue, runIssued_of_decode (s := issue (encode i) s) (decode_encode i), hexec]
    have hissue : hostAct (.writeReg 0 (encode i)) s = .next (issue (encode i) s, .none) :=
      hostAct_writeReg (writeReg_cmd_of_idle hb _)
    have hwait : hostAct .wait (issue (encode i) s) = .next (complete e u, .word (completedStatus e)) := by
      rw [hostAct, wait_of_completing_step (busy_issue _ s) hstep, andThen_next]
    rw [runCommand, runScript_cons hissue, runScript_cons hwait]
    rfl

end Sys2Proof.Machine

namespace Sys2Proof.Machine

/-! ## Scripts that write consecutive cells -/

theorem guarded_of_idle {α : Type} {i n : Nat} {s : State} (hb : busy s = false) (hi : i < n) (a : α) :
    guarded i n s a = .next a := by
  rw [guarded, if_neg (by simp [hb]), if_neg (by omega)]

theorem hostAct_writeByte {sp : ByteSpace} {i : Nat} {s : State} (hb : busy s = false) (hi : i < spaceCells sp s)
    (b : Byte) : hostAct (.writeByte sp i b) s = .next (storeByte sp i b s, .none) := by
  rw [hostAct, writeByte, guarded_of_idle hb hi, andThen_next]

theorem hostAct_writeWord {i : Nat} {s : State} (hb : busy s = false) (hi : i < s.cap.toNat) (w : Word) :
    hostAct (.writeWord i w) s = .next (setV i w s, .none) := by
  rw [hostAct, writeWord, guarded_of_idle hb hi, andThen_next]

/-- One more line at the end of a completed script. -/
theorem runScript_snoc {script : List HostAction} {a : HostAction} {s t u : State} {vals : List HostValue}
    {v : HostValue} (h : runScript script s = .next (t, vals)) (ha : hostAct a t = .next (u, v)) :
    runScript (script ++ [a]) s = .next (u, vals ++ [v]) := by
  induction script generalizing s vals with
  | nil =>
    cases h
    rw [List.nil_append, runScript_cons ha, runScript, andThen_next, List.nil_append]
  | cons b rest ih =>
    obtain ⟨⟨s', w⟩, hb, h⟩ := andThen_eq_next h
    obtain ⟨⟨t', vals'⟩, hrest, h⟩ := andThen_eq_next h
    cases h
    rw [List.cons_append, runScript_cons hb, ih hrest, andThen_next, List.cons_append]

section

variable {α : Type}

/-- One script line per cell, from cell `i` on: the form that `writeBytesFrom` and `writeWordsFrom` share. -/
def linesFrom (line : Nat → α → HostAction) : Nat → List α → List HostAction
  | _, [] => []
  | i, x :: xs => line i x :: linesFrom line (i + 1) xs

theorem writeBytesFrom_eq_linesFrom (sp : ByteSpace) (i : Nat) (bs : List Byte) :
    writeBytesFrom sp i bs = linesFrom (.writeByte sp) i bs := by
  induction bs generalizing i with
  | nil => rfl
  | cons b bs ih => rw [writeBytesFrom, linesFrom, ih]

theorem writeWordsFrom_eq_linesFrom (i : Nat) (ws : List Word) :
    writeWordsFrom i ws = linesFrom .writeWord i ws := by
  induction ws generalizing i with
  | nil => rfl
  | cons w ws ih => rw [writeWordsFrom, linesFrom, ih]

/-- The lines of a space of `n` cells, read by `read`: each completes, keeps `Frame` and writes its own cell alone. -/
def WritesCell (line : Nat → α → HostAction) (read : State → Nat → α) (Frame : State → Prop) (n : Nat) : Prop :=
  ∀ i x t, Frame t → i < n → ∃ u, hostAct (line i x) t = .next (u, .none) ∧ Frame u ∧
    ∀ j, read u j = if j = i then x else read t j

theorem writesCell_buf {s : State} (hb : busy s = false) :
    WritesCell (.writeByte .buf) bufAt (fun t => t = { s with buf := t.buf }) (4 * s.cap.toNat) := by
  intro i x t ht hi
  rw [ht]
  exact ⟨_, hostAct_writeByte (s := { s with buf := t.buf }) hb hi x, rfl, fun j => bufAt_setBuf i j x _⟩

theorem writesCell_kbuf {s : State} (hb : busy s = false) :
    WritesCell (.writeByte .kbuf) kbufAt (fun t => t = { s with kbuf := t.kbuf }) 16 := by
  intro i x t ht hi
  rw [ht]
  exact ⟨_, hostAct_writeByte (s := { s with kbuf := t.kbuf }) hb hi x, rfl, fun j => kbufAt_setKbuf i j x _⟩

theorem writesCell_v {s : State} (hb : busy s = false) :
    WritesCell .writeWord vAt (fun t => t = { s with v := t.v }) s.cap.toNat := by
  intro i x t ht hi
  rw [ht]
  exact ⟨_, hostAct_writeWord (s := { s with v := t.v }) hb hi x, rfl, fun j => vAt_setV i j x _⟩

/-- Consecutive lines leave the list's elements in the cells from `i`. -/
theorem runScript_linesFrom {line : Nat → α → HostAction} {read : State → Nat → α} {Frame : State → Prop} {n : Nat}
    (hline : WritesCell line read Frame n) (xs : List α) {i : Nat} {s : State} (hs : Frame s)
    (hfit : i + xs.length ≤ n) :
    ∃ u vals, runScript (linesFrom line i xs) s = .next (u, vals) ∧ Frame u ∧
      ∀ j, read u j = if j < i then read s j else xs[j - i]?.getD (read s j) := by
  induction xs generalizing i s with
  | nil => exact ⟨s, [], rfl, hs, fun j => by simp⟩
  | cons x xs ih =>
    rw [List.length_cons] at hfit
    obtain ⟨t, hact, ht, hread⟩ := hline i x s hs (by omega)
    obtain ⟨u, vals, hrun, hu, hcells⟩ := ih (i := i + 1) ht (by omega)
    refine ⟨u, .none :: vals, ?_, hu, fun j => ?_⟩
    · rw [linesFrom, runScript_cons hact, hrun, andThen_next]
    · rw [hcells, hread]
      obtain hlt | rfl | hgt := Nat.lt_trichotomy j i
      · simp [hlt, Nat.lt_succ_of_lt hlt, hlt.ne]
      · simp
      · have hsub : j - i = j - (i + 1) + 1 := by omega
        simp [hgt.ne', hsub, show ¬ j < i by omega, show ¬ j < i + 1 by omega]

/-- A loading pseudo-operation (30_encoding.md R98): consecutive cells from 0, then the length register. -/
theorem runScript_load {line : Nat → α → HostAction} {read : State → Nat → α} {Frame : State → Prop} {n : Nat}
    (hline : WritesCell line read Frame n) (hidle : ∀ t, Frame t → busy t = false) (xs : List α) {s : State}
    (hs : Frame s) (hfit : xs.length ≤ n) {number : Nat} {r : Reg} (hr : regOfNumber number = some r) (w : Word) :
    ∃ u vals, runScript (linesFrom line 0 xs ++ [.writeReg number w]) s = .next (storeReg r w u, vals) ∧ Frame u ∧
      ∀ j, read u j = xs[j]?.getD (read s j) := by
  obtain ⟨u, vals, hrun, hu, hcells⟩ := runScript_linesFrom hline xs (i := 0) hs (by omega)
  exact ⟨u, _, runScript_snoc hrun (hostAct_writeReg (writeReg_of_idle hr (hidle u hu) w)), hu,
    fun j => by simpa using hcells j⟩

end

/-- Settles O57: each script is lines for the cells from 0, which keep the rest, and a write of its length register. -/
theorem loadScriptsLoad : Obligations.LoadScriptsLoad := by
  intro s hb
  refine ⟨fun bs hfit => ?_, fun bs => ?_, fun ws hfit => ?_⟩
  · obtain ⟨u, vals, hrun, hframe, hcells⟩ := runScript_load (s := s) (writesCell_buf hb)
      (fun t ht => by rw [ht]; exact hb) bs rfl hfit (number := 2) rfl (BitVec.ofNat 32 bs.length)
    rw [ldbuf, writeBytesFrom_eq_linesFrom]
    exact ⟨_, vals, hrun, by rw [hframe]; rfl, hcells⟩
  · obtain ⟨u, vals, hrun, hframe, hcells⟩ := runScript_load (s := s) (writesCell_kbuf hb)
      (fun t ht => by rw [ht]; exact hb) (bs.take 16) rfl (List.length_take_le 16 bs) (number := 4) rfl
      (BitVec.ofNat 32 (keyLengthValue bs.length))
    rw [ldkey, writeBytesFrom_eq_linesFrom]
    exact ⟨_, vals, hrun, by rw [hframe]; rfl, hcells⟩
  · obtain ⟨u, vals, hrun, hframe, hcells⟩ := runScript_load (s := s) (writesCell_v hb)
      (fun t ht => by rw [ht]; exact hb) ws rfl hfit (number := 3) rfl (BitVec.ofNat 32 ws.length)
    rw [ldv, writeWordsFrom_eq_linesFrom]
    exact ⟨_, vals, hrun, by rw [hframe]; rfl, hcells⟩

end Sys2Proof.Machine

namespace Sys2Proof.Machine

/-! ## Two runs of a loop -/

/-- Rising loops from related states stay related. -/
theorem forUp_rel {σ : Type} {f g : Nat → σ → σ} (R : σ → σ → Prop) {n : Nat} {s u : σ} (h0 : R s u)
    (hstep : ∀ i s u, i < n → R s u → R (f i s) (g i u)) : R (forUp f n s) (forUp g n u) := by
  induction n with
  | zero => exact h0
  | succ n ih => exact hstep n _ _ (Nat.lt_succ_self n) (ih fun i s u hi => hstep i s u (Nat.lt_succ_of_lt hi))

/-- Falling loops likewise. -/
theorem forDown_rel {σ : Type} {f g : Nat → σ → σ} (R : σ → σ → Prop) {n : Nat} {s u : σ} (h0 : R s u)
    (hstep : ∀ i s u, i < n → R s u → R (f i s) (g i u)) : R (forDown f n s) (forDown g n u) := by
  induction n generalizing s u with
  | zero => exact h0
  | succ n ih =>
    exact ih (hstep n s u (Nat.lt_succ_self n) h0) fun i s u hi => hstep i s u (Nat.lt_succ_of_lt hi)

/-! ## ENCW and DECW without the byte side -/

/-- `s` with another byte side: `BUF`, `KBUF` and their lengths. -/
def withBytes (b kb : Memory Byte) (bl kl : Word) (s : State) : State :=
  { s with buf := b, kbuf := kb, blen := bl, klen := kl }

section

variable (b kb : Memory Byte) (bl kl : Word)

theorem encUpdate_withBytes (p : Nat) (s : State) :
    encUpdate p (withBytes b kb bl kl s) = withBytes b kb bl kl (encUpdate p s) := rfl

theorem decUpdate_withBytes (p : Nat) (s : State) :
    decUpdate p (withBytes b kb bl kl s) = withBytes b kb bl kl (decUpdate p s) := rfl

theorem encRound_withBytes (s : State) :
    encRound (withBytes b kb bl kl s) = withBytes b kb bl kl (encRound s) := by
  have hpass := forUp_rel (fun t r => r = withBytes b kb bl kl t) (n := s.wlen.toNat) (f := encUpdate)
    (g := encUpdate) (s := { s with sum := s.sum + delta }) rfl fun i t r _ h => by rw [h, encUpdate_withBytes]
  exact congrArg (fun t : State => { t with rnd := t.rnd - 1 }) hpass

theorem decRound_withBytes (s : State) :
    decRound (withBytes b kb bl kl s) = withBytes b kb bl kl (decRound s) := by
  have hpass := forDown_rel (fun t r => r = withBytes b kb bl kl t) (n := s.wlen.toNat) (f := decUpdate)
    (g := decUpdate) (s := s) rfl fun i t r _ h => by rw [h, decUpdate_withBytes]
  exact congrArg (fun t : State => { t with sum := t.sum - delta, rnd := t.rnd - 1 }) hpass

theorem encBody_withBytes (s : State) : encBody (withBytes b kb bl kl s) = withBytes b kb bl kl (encBody s) :=
  forUp_rel (fun t r => r = withBytes b kb bl kl t) (s := encLoad s) (f := fun _ t => encRound t) rfl
    fun _ t r _ h => by rw [h, encRound_withBytes]

theorem decBody_withBytes (s : State) : decBody (withBytes b kb bl kl s) = withBytes b kb bl kl (decBody s) :=
  forUp_rel (fun t r => r = withBytes b kb bl kl t) (s := decLoad s) (f := fun _ t => decRound t) rfl
    fun _ t r _ h => by rw [h, decRound_withBytes]

theorem withBytes_self (s : State) : withBytes s.buf s.kbuf s.blen s.klen s = s := rfl

/-- The checks that `ENCW` and `DECW` make before their bodies (43_cipher_engine.md R187, R199). -/
def checkedEngine (body : State → State) (s : State) : State :=
  if s.wlen.toNat = 0 then complete .zerolen s
  else if s.cap.toNat < s.wlen.toNat then complete .capacity s
  else complete .ok (body s)

theorem exec_encw_eq (s : State) : exec .encw s = .next (checkedEngine encBody s) := by
  show execEncw s = _
  unfold execEncw checkedEngine
  split
  · rfl
  · split <;> rfl

theorem exec_decw_eq (s : State) : exec .decw s = .next (checkedEngine decBody s) := by
  show execDecw s = _
  unfold execDecw checkedEngine
  split
  · rfl
  · split <;> rfl

theorem checkedEngine_withBytes {body : State → State}
    (hbody : ∀ s, body (withBytes b kb bl kl s) = withBytes b kb bl kl (body s)) (s : State) :
    checkedEngine body (withBytes b kb bl kl s) = withBytes b kb bl kl (checkedEngine body s) := by
  show (if s.wlen.toNat = 0 then _ else if s.cap.toNat < s.wlen.toNat then _ else _) = _
  unfold checkedEngine
  rw [hbody]
  split
  · rfl
  · split <;> rfl

end

/-- Settles O35: the bodies commute with a change of the byte side; with the byte side of `s` itself that says that it
is left as it was. -/
theorem engineIgnoresByteSide : Obligations.EngineIgnoresByteSide := by
  intro s i b kb bl kl hi
  obtain ⟨body, hexec, hbytes⟩ : ∃ body, (∀ s, exec i s = .next (checkedEngine body s)) ∧
      ∀ b kb bl kl s, body (withBytes b kb bl kl s) = withBytes b kb bl kl (body s) := by
    obtain rfl | rfl := hi
    · exact ⟨encBody, exec_encw_eq, encBody_withBytes⟩
    · exact ⟨decBody, exec_decw_eq, decBody_withBytes⟩
  have hown := checkedEngine_withBytes _ _ _ _ (hbytes s.buf s.kbuf s.blen s.klen) s
  rw [withBytes_self] at hown
  have hmoved := (hexec _).trans (congrArg _ (checkedEngine_withBytes b kb bl kl (hbytes b kb bl kl) s))
  refine ⟨checkedEngine body s, hexec s, hmoved, ?_⟩
  rw [hown]
  exact ⟨rfl, rfl, rfl, rfl⟩

end Sys2Proof.Machine

namespace Sys2Proof.Machine

/-! ## What each body reads -/

/-- `KEYLD` reads the first `min(KLEN, 16)` key bytes. -/
theorem keyBody_k_congr {s u : State} (hlen : keyBytes s = keyBytes u)
    (hb : ∀ j, j < keyBytes s → kbufAt s j = kbufAt u j) : (keyBody s).k = (keyBody u).k := by
  unfold keyBody
  rw [← hlen]
  refine (forUp_rel (fun t r : State => t.k = r.k ∧ ∀ j, j < keyBytes s → kbufAt t j = kbufAt r j)
    (s := { s with k := ⟨0, 0, 0, 0⟩ }) (u := { u with k := ⟨0, 0, 0, 0⟩ }) ⟨rfl, hb⟩ ?_).1
  rintro i t r hi ⟨hk, hcells⟩
  refine ⟨?_, hcells⟩
  rw [keyByte, keyByte, setK_k, setK_k, hk, hcells i hi]

/-- The loop that clears `V[0 .. n-1]`, the first of `PACK` and `PACKL` (40_word_packer.md R121). -/
theorem vAt_clearWords (n : Nat) (s : State) (j : Nat) :
    vAt (forUp (fun i t => setV i 0 t) n s) j = if j < n then 0 else vAt s j := by
  refine forUp_inv (fun n t => ∀ j, vAt t j = if j < n then 0 else vAt s j) (by simp) ?_ j
  intro i t _ h j
  rw [vAt_setV, h]
  obtain rfl | hne := eq_or_ne j i
  · simp
  · simp only [hne, if_false, show j < i + 1 ↔ j < i by omega]

theorem bufAt_clearWords (n : Nat) (s : State) (j : Nat) :
    bufAt (forUp (fun i t => setV i 0 t) n s) j = bufAt s j :=
  forUp_keeps (f := fun i t => setV i 0 t) (bufAt · j) (fun _ _ => rfl) n s

/-- The packed words depend on the bytes alone: the old words are cleared first. -/
theorem vAt_packWords_congr {s u : State} (hlen : s.blen = u.blen)
    (hb : ∀ j, j < s.blen.toNat → bufAt s j = bufAt u j) (j : Nat) (hj : j < dataWords s) :
    vAt (packWords s) j = vAt (packWords u) j := by
  have hwords : dataWords u = dataWords s := by rw [dataWords, dataWords, hlen]
  unfold packWords
  rw [hwords, ← hlen]
  refine (forUp_rel (fun t r : State => (∀ j, j < s.blen.toNat → bufAt t j = bufAt r j) ∧
    ∀ j, j < dataWords s → vAt t j = vAt r j) ⟨fun j hj => ?_, fun j hj => ?_⟩ ?_).2 j hj
  · rw [bufAt_clearWords, bufAt_clearWords, hb j hj]
  · rw [vAt_clearWords, vAt_clearWords, if_pos hj, if_pos hj]
  · rintro i t r hi ⟨hbytes, hvs⟩
    have hword : i / 4 < dataWords s := by
      unfold dataWords wordCount
      omega
    refine ⟨hbytes, fun j hj => ?_⟩
    rw [packByte, packByte, vAt_setV, vAt_setV, hbytes i hi, hvs _ hword, hvs j hj]

/-- The bytes that `UNPACK` and `UNPACKL` write (40_word_packer.md R131). -/
theorem bufAt_unpackBytes (n : Nat) (s : State) (j : Nat) :
    bufAt (unpackBytes n s) j = if j < n then extractLane (vAt s (j / 4)) j else bufAt s j := by
  refine (forUp_inv (fun n t => (∀ j, vAt t j = vAt s j) ∧
    ∀ j, bufAt t j = if j < n then extractLane (vAt s (j / 4)) j else bufAt s j) (s := s) (by simp) ?_).2 j
  rintro i t _ ⟨hv, hb⟩
  refine ⟨hv, fun j => ?_⟩
  rw [unpackByte, bufAt_setBuf, hv, hb]
  obtain rfl | hne := eq_or_ne j i
  · simp
  · simp only [hne, if_false, show j < i + 1 ↔ j < i by omega]

/-! ## The engine on equal arrays -/

/-- The same word array under the same key: what the engine reads (30_encoding.md R94). -/
def SameArray (s u : State) : Prop :=
  s.wlen = u.wlen ∧ s.k = u.k ∧ ∀ j, j < s.wlen.toNat → vAt s j = vAt u j

theorem SameArray.len {s u : State} (h : SameArray s u) : s.wlen.toNat = u.wlen.toNat := congrArg _ h.1

theorem SameArray.cell {s u : State} (h : SameArray s u) {j : Nat} (hj : j < s.wlen.toNat) : vAt s j = vAt u j := by
  obtain ⟨-, -, hv⟩ := h
  exact hv j hj

theorem SameArray.setV {s u : State} (h : SameArray s u) (i : Nat) (w : Word) :
    SameArray (setV i w s) (setV i w u) := by
  obtain ⟨hwlen, hk, hv⟩ := h
  refine ⟨hwlen, hk, fun j hj => ?_⟩
  rw [vAt_setV, vAt_setV, hv j hj]

/-- The same word array, and the same `SUM` and carried words: what a word update reads. -/
def SameEngine (s u : State) : Prop :=
  SameArray s u ∧ s.sum = u.sum ∧ s.y = u.y ∧ s.z = u.z

/-- The word that an update of `ENCW` writes to `V[p]` (43_cipher_engine.md R183). -/
def encWord (p : Nat) (s : State) : Word :=
  vAt s p + mx s.sum (vAt s (ringNext s.wlen.toNat p)) s.z (BitVec.ofNat 32 p) (roundIndex s.sum) s.k

/-- The word that an update of `DECW` writes to `V[p]` (43_cipher_engine.md R195). -/
def decWord (p : Nat) (s : State) : Word :=
  vAt s p - mx s.sum s.y (vAt s (ringPrev s.wlen.toNat p)) (BitVec.ofNat 32 p) (roundIndex s.sum) s.k

theorem encUpdate_eq (p : Nat) (s : State) :
    encUpdate p s = { setV p (encWord p s) s with
      p := BitVec.ofNat 32 p, y := vAt s (ringNext s.wlen.toNat p), z := encWord p s } := rfl

theorem decUpdate_eq (p : Nat) (s : State) :
    decUpdate p s = { setV p (decWord p s) s with
      p := BitVec.ofNat 32 p, z := vAt s (ringPrev s.wlen.toNat p), y := decWord p s } := rfl

theorem SameEngine.encUpdate {s u : State} (h : SameEngine s u) {i : Nat} (hi : i < s.wlen.toNat) :
    SameEngine (encUpdate i s) (encUpdate i u) := by
  obtain ⟨harray, hsum, hy, hz⟩ := h
  have ⟨hwlen, hk, hv⟩ := harray
  have hnext : vAt s (ringNext s.wlen.toNat i) = vAt u (ringNext s.wlen.toNat i) :=
    hv _ (Nat.mod_lt _ (Nat.zero_lt_of_lt hi))
  have hword : encWord i s = encWord i u := by
    rw [encWord, encWord, hv i hi, hnext, hsum, hz, hk, hwlen]
  rw [encUpdate_eq, encUpdate_eq, hword, hnext, hwlen]
  exact ⟨harray.setV i _, hsum, rfl, rfl⟩

theorem SameEngine.decUpdate {s u : State} (h : SameEngine s u) {i : Nat} (hi : i < s.wlen.toNat) :
    SameEngine (decUpdate i s) (decUpdate i u) := by
  obtain ⟨harray, hsum, hy, hz⟩ := h
  have ⟨hwlen, hk, hv⟩ := harray
  have hprev : vAt s (ringPrev s.wlen.toNat i) = vAt u (ringPrev s.wlen.toNat i) :=
    hv _ (Nat.mod_lt _ (Nat.zero_lt_of_lt hi))
  have hword : decWord i s = decWord i u := by
    rw [decWord, decWord, hv i hi, hprev, hsum, hy, hk, hwlen]
  rw [decUpdate_eq, decUpdate_eq, hword, hprev, hwlen]
  exact ⟨harray.setV i _, hsum, rfl, rfl⟩

/-- Setting the registers that a load or the end of a round sets. -/
theorem SameArray.set_registers {s u : State} (h : SameArray s u) {a a' y y' z z' : Word} (ha : a = a') (hy : y = y')
    (hz : z = z') (r r' : Word) :
    SameEngine { s with sum := a, y := y, z := z, rnd := r } { u with sum := a', y := y', z := z', rnd := r' } :=
  ⟨h, ha, hy, hz⟩

theorem SameEngine.encRound {s u : State} (h : SameEngine s u) : SameEngine (encRound s) (encRound u) := by
  obtain ⟨harray, hsum, hy, hz⟩ := h
  have hstart : SameEngine { s with sum := s.sum + delta } { u with sum := u.sum + delta } :=
    harray.set_registers (congrArg (· + delta) hsum) hy hz s.rnd u.rnd
  have hpass := (forUp_rel (f := Machine.encUpdate) (g := Machine.encUpdate)
    (fun t r => SameEngine t r ∧ t.wlen = s.wlen) (n := s.wlen.toNat) ⟨hstart, rfl⟩
    fun i t r hi ⟨hs, hlen⟩ => ⟨hs.encUpdate (by rw [hlen]; exact hi), hlen⟩).1
  rw [encRound_eq, encRound_eq, ← harray.len]
  obtain ⟨harray', hsum', hy', hz'⟩ := hpass
  exact harray'.set_registers hsum' hy' hz' _ _

theorem SameEngine.decRound {s u : State} (h : SameEngine s u) : SameEngine (decRound s) (decRound u) := by
  obtain ⟨harray', hsum', hy', hz'⟩ := (forDown_rel (f := Machine.decUpdate) (g := Machine.decUpdate)
    (fun t r => SameEngine t r ∧ t.wlen = s.wlen) (n := s.wlen.toNat) ⟨h, rfl⟩
    fun i t r hi ⟨hs, hlen⟩ => ⟨hs.decUpdate (by rw [hlen]; exact hi), hlen⟩).1
  rw [decRound_eq, decRound_eq, ← h.1.len]
  exact harray'.set_registers (congrArg (· - delta) hsum') hy' hz' _ _

theorem SameEngine.encBody {s u : State} (h : SameEngine s u) (hpos : 1 ≤ s.wlen.toNat) :
    SameArray (encBody s) (encBody u) := by
  obtain ⟨harray, -, hy, -⟩ := h
  have hlast : vAt s (s.wlen.toNat - 1) = vAt u (s.wlen.toNat - 1) := harray.cell (by omega)
  have hload : SameEngine (encLoad s) (encLoad u) := by
    unfold encLoad
    rw [← harray.len]
    exact harray.set_registers rfl hy hlast _ _
  unfold Machine.encBody
  rw [← harray.len]
  exact (forUp_rel SameEngine hload fun _ _ _ _ hs => hs.encRound).1

theorem SameEngine.decBody {s u : State} (h : SameEngine s u) (hpos : 1 ≤ s.wlen.toNat) :
    SameArray (decBody s) (decBody u) := by
  obtain ⟨harray, -, -, hz⟩ := h
  have hload : SameEngine (decLoad s) (decLoad u) := by
    unfold decLoad
    rw [← harray.len]
    exact harray.set_registers rfl (harray.cell hpos) hz _ _
  unfold Machine.decBody
  rw [← harray.len]
  exact (forUp_rel SameEngine hload fun _ _ _ _ hs => hs.decRound).1

/-- What the engine registers held before is not read (10_state.md R27), so equal arrays are enough. -/
theorem SameArray.encBody {s u : State} (h : SameArray s u) (hpos : 1 ≤ s.wlen.toNat) :
    SameArray (encBody s) (encBody u) := by
  rw [← encBody_eq_of_engine (s := u) (h.len ▸ hpos) s.sum s.y s.z u.p u.rnd]
  exact SameEngine.encBody ⟨h, rfl, rfl, rfl⟩ hpos

theorem SameArray.decBody {s u : State} (h : SameArray s u) (hpos : 1 ≤ s.wlen.toNat) :
    SameArray (decBody s) (decBody u) := by
  rw [← decBody_eq_of_engine (s := u) (h.len ▸ hpos) s.sum s.y s.z u.p u.rnd]
  exact SameEngine.decBody ⟨h, rfl, rfl, rfl⟩ hpos

/-! ## The composite commands on equal operands -/

/-- The same bytes in the buffer, which is what a composite command reads and answers. -/
def SameBuffer (s u : State) : Prop := s.blen = u.blen ∧ ∀ j, j < s.blen.toNat → bufAt s j = bufAt u j

/-- The operands of `ENCRYPT` and `DECRYPT` (30_encoding.md R94). -/
def SameOperands (s u : State) : Prop :=
  s.cap = u.cap ∧ SameBuffer s u ∧ keyBytes s = keyBytes u ∧ ∀ j, j < keyBytes s → kbufAt s j = kbufAt u j

/-- A body that leaves the buffer alone. -/
def KeepsBuffer (s t : State) : Prop := t.blen = s.blen ∧ ∀ j, bufAt t j = bufAt s j

theorem KeepsBuffer.trans {s t u : State} (h₁ : KeepsBuffer s t) (h₂ : KeepsBuffer t u) : KeepsBuffer s u :=
  ⟨h₂.1.trans h₁.1, fun j => (h₂.2 j).trans (h₁.2 j)⟩

theorem keyBody_keepsBuffer (s : State) : KeepsBuffer s (keyBody s) := by
  rw [keyBody_frame s]
  exact ⟨rfl, fun _ => rfl⟩

theorem packBody_keepsBuffer (s : State) : KeepsBuffer s (packBody s) := by
  rw [packBody_frame s]
  exact ⟨rfl, fun _ => rfl⟩

theorem EngineWrote.keepsBuffer {s t : State} (h : EngineWrote s t) : KeepsBuffer s t := by
  rw [h]
  exact ⟨rfl, fun _ => rfl⟩

theorem SameBuffer.of_keeps {s u t r : State} (h : SameBuffer s u) (ht : KeepsBuffer s t) (hr : KeepsBuffer u r) :
    SameBuffer t r := by
  obtain ⟨hlen, hbytes⟩ := h
  obtain ⟨htlen, ht⟩ := ht
  obtain ⟨hrlen, hr⟩ := hr
  refine ⟨by rw [htlen, hrlen, hlen], fun j hj => ?_⟩
  rw [ht, hr, hbytes j (by rwa [htlen] at hj)]

theorem SameBuffer.dataWords {s u : State} (h : SameBuffer s u) : dataWords s = dataWords u := by
  rw [Machine.dataWords, Machine.dataWords, h.1]

/-- A length written to a register never reads as more. -/
theorem toNat_ofNat_le (n : Nat) : (BitVec.ofNat 32 n).toNat ≤ n :=
  Nat.lt_succ_iff.1 (toNat_ofNat_lt n.lt_succ_self)

/-- A word array of a buffer's bytes is never too long for `WLEN`, whatever `CAP` holds. -/
theorem dataWords_le (s : State) : dataWords s ≤ 2 ^ 30 := by
  have := s.blen.isLt
  unfold dataWords wordCount
  omega

/-- What `UNPACKL` accepts fits the bytes before the length word (40_word_packer.md R135). -/
theorem le_of_lengthAccepted {nb m : Nat} (h : lengthAccepted nb m = true) : m ≤ nb := by
  simp only [lengthAccepted, decide_eq_true_eq] at h
  omega

theorem packBody_sameArray {s u : State} (hk : s.k = u.k) (h : SameBuffer s u) :
    SameArray (packBody s) (packBody u) := by
  refine ⟨by simp [h.dataWords], by rw [packBody_frame s, packBody_frame u]; exact hk, fun j hj => ?_⟩
  rw [packBody_wlen] at hj
  exact vAt_packWords_congr h.1 h.2 j (hj.trans_le (toNat_ofNat_le _))

theorem packlBody_sameArray {s u : State} (hk : s.k = u.k) (h : SameBuffer s u) :
    SameArray (packlBody s) (packlBody u) := by
  have hcell (t : State) (j : Nat) :
      vAt (packlBody t) j = if j = dataWords t then t.blen else vAt (packWords t) j := vAt_setV _ j _ _
  refine ⟨by simp [h.dataWords], by rw [packlBody_frame s, packlBody_frame u]; exact hk, fun j hj => ?_⟩
  rw [packlBody_wlen] at hj
  have hj : j < dataWords s + 1 := hj.trans_le (toNat_ofNat_le _)
  rw [hcell, hcell, ← h.dataWords, h.1]
  split
  · rfl
  · exact vAt_packWords_congr h.1 h.2 j (by omega)

theorem SameArray.unpackBytes {s u : State} (h : SameArray s u) {n : Nat} (hn : n ≤ 4 * s.wlen.toNat) :
    SameBuffer (unpackBytes n s) (unpackBytes n u) := by
  refine ⟨rfl, fun j hj => ?_⟩
  have hj : j < n := hj.trans_le (toNat_ofNat_le n)
  rw [bufAt_unpackBytes, bufAt_unpackBytes, if_pos hj, if_pos hj, h.cell (by omega)]

theorem SameArray.unpackBody {s u : State} (h : SameArray s u) : SameBuffer (unpackBody s) (unpackBody u) := by
  unfold Machine.unpackBody
  rw [← h.len]
  exact h.unpackBytes le_rfl

/-- The same answer: `STATUS` and the buffer. -/
def SameAnswer (t r : State) : Prop := t.status = r.status ∧ SameBuffer t r

theorem SameBuffer.complete {s u : State} (h : SameBuffer s u) (e : ErrCode) :
    SameAnswer (complete e s) (complete e u) := ⟨rfl, h⟩

/-- `UNPACKL`'s end reads the word array; in `CORRUPT` the buffer stays (40_word_packer.md R137). -/
theorem SameArray.unpacklFinish {s u : State} (h : SameArray s u) (hpos : 1 ≤ s.wlen.toNat) (hbuf : SameBuffer s u) :
    SameAnswer (unpacklFinish s) (unpacklFinish u) := by
  have hnb : bytesBeforeLength u = bytesBeforeLength s := by rw [bytesBeforeLength, bytesBeforeLength, h.len]
  have hm : embeddedLength u = embeddedLength s := by
    rw [embeddedLength, embeddedLength, ← h.len, h.cell (by omega)]
  unfold Machine.unpacklFinish
  rw [hnb, hm]
  split
  next hacc =>
    refine (h.unpackBytes ?_).complete .ok
    have hle := le_of_lengthAccepted hacc
    unfold bytesBeforeLength at hle
    omega
  next => exact hbuf.complete .corrupt

/-! From body to body: the key registers, the buffer, the packed array, the answer. -/

theorem SameOperands.key {s u : State} (h : SameOperands s u) : (keyBody s).k = (keyBody u).k := by
  obtain ⟨-, -, hlen, hkey⟩ := h
  exact keyBody_k_congr hlen hkey

theorem SameOperands.buffer {s u : State} (h : SameOperands s u) : SameBuffer (keyBody s) (keyBody u) := by
  obtain ⟨-, hbuf, -⟩ := h
  exact hbuf.of_keeps (keyBody_keepsBuffer s) (keyBody_keepsBuffer u)

theorem SameOperands.encrypted {s u : State} (h : SameOperands s u) :
    SameBuffer (unpackBody (encBody (packlBody (keyBody s)))) (unpackBody (encBody (packlBody (keyBody u)))) := by
  have hpos : 1 ≤ (packlBody (keyBody s)).wlen.toNat := by
    have := dataWords_le (keyBody s)
    rw [packlBody_wlen, BitVec.toNat_ofNat]
    omega
  exact ((packlBody_sameArray h.key h.buffer).encBody hpos).unpackBody

theorem SameOperands.decrypted {s u : State} (h : SameOperands s u) (hblen : s.blen.toNat ≠ 0) :
    SameAnswer (unpacklFinish (decBody (packBody (keyBody s)))) (unpacklFinish (decBody (packBody (keyBody u)))) := by
  have hpos : 1 ≤ (packBody (keyBody s)).wlen.toNat := by
    have := dataWords_le s
    have : 1 ≤ dataWords s := by
      unfold dataWords wordCount
      omega
    rw [packBody_wlen, dataWords_keyBody, BitVec.toNat_ofNat]
    omega
  have hkeeps (t : State) : KeepsBuffer t (decBody (packBody t)) :=
    (packBody_keepsBuffer t).trans (decBody_wrote _).keepsBuffer
  exact ((packBody_sameArray h.key h.buffer).decBody hpos).unpacklFinish
    (by rw [(decBody_wrote _).wlen]; exact hpos) (h.buffer.of_keeps (hkeeps _) (hkeeps _))

theorem SameOperands.execEncrypt {s u : State} (h : SameOperands s u) :
    ∃ t r, exec .encrypt s = .next t ∧ exec .encrypt u = .next r ∧ SameAnswer t r := by
  have ⟨hcap, hbuf, _⟩ := h
  show ∃ t r, Machine.execEncrypt s = .next t ∧ Machine.execEncrypt u = .next r ∧ SameAnswer t r
  unfold Machine.execEncrypt
  rw [← hbuf.1, ← hcap, ← hbuf.dataWords]
  split
  · exact ⟨_, _, rfl, rfl, hbuf.complete .ok⟩
  · split
    · exact ⟨_, _, rfl, rfl, hbuf.complete .capacity⟩
    · exact ⟨_, _, rfl, rfl, h.encrypted.complete .ok⟩

theorem SameOperands.execDecrypt {s u : State} (h : SameOperands s u) :
    ∃ t r, exec .decrypt s = .next t ∧ exec .decrypt u = .next r ∧ SameAnswer t r := by
  have ⟨hcap, hbuf, _⟩ := h
  show ∃ t r, Machine.execDecrypt s = .next t ∧ Machine.execDecrypt u = .next r ∧ SameAnswer t r
  unfold Machine.execDecrypt
  rw [← hbuf.1, ← hcap]
  split
  · exact ⟨_, _, rfl, rfl, hbuf.complete .ok⟩
  · split
    · exact ⟨_, _, rfl, rfl, hbuf.complete .shape⟩
    · split
      · exact ⟨_, _, rfl, rfl, hbuf.complete .capacity⟩
      · exact ⟨_, _, rfl, rfl, h.decrypted ‹_›⟩

/-- Settles O43: each body reads only its operands, and the buffer's bytes, the key registers and the word array carry
them from body to body. -/
theorem compositesReadOnlyTheirOperands : Obligations.CompositesReadOnlyTheirOperands := by
  intro s u i hi hcap hlen hbytes hklen hkey
  have h : SameOperands s u := ⟨hcap, ⟨hlen, hbytes⟩, hklen, hkey⟩
  obtain rfl | rfl := hi
  · exact h.execEncrypt
  · exact h.execDecrypt

end Sys2Proof.Machine

namespace Sys2Proof.Machine

/-! ## A word is its four bytes

`extractLane` reads them, `insertLane` fills one in, and `packedWord` is the word that has given ones (20_memory.md R65,
40_word_packer.md R123). -/

theorem extractLane_congr {i j : Nat} (h : i % 4 = j % 4) (w : Word) : extractLane w i = extractLane w j := by
  rw [extractLane, laneShift, h, extractLane, laneShift]

theorem extractLane_eq_extractLsb' (w : Word) (i : Nat) : extractLane w i = w.extractLsb' (8 * (i % 4)) 8 := by
  refine BitVec.eq_of_toNat_eq ?_
  rw [extractLane, laneShift, BitVec.toNat_setWidth, BitVec.toNat_and, BitVec.toNat_ushiftRight,
    BitVec.extractLsb'_toNat, Nat.mul_comm (i % 4) 8]
  exact (congrArg (· % 2 ^ 8) (Nat.and_two_pow_sub_one_eq_mod _ 8)).trans (Nat.mod_mod _ _)

theorem extractLane_eq_arrayByte (w : Nat → Word) (i : Nat) : extractLane (w (i / 4)) i = arrayByte w i :=
  extractLane_eq_extractLsb' _ i

theorem getLsbD_extractLane (w : Word) (i k : Nat) :
    (extractLane w i).getLsbD k = (decide (k < 8) && w.getLsbD (8 * (i % 4) + k)) := by
  rw [extractLane_eq_extractLsb', BitVec.getLsbD_extractLsb']

theorem eq_of_extractLane_eq {w u : Word} (h : ∀ t < 4, extractLane w t = extractLane u t) : w = u := by
  refine BitVec.eq_of_getLsbD_eq fun k hk => ?_
  have hbit := congrArg (·.getLsbD (k % 8)) (h (k / 8) (by omega))
  simp only [getLsbD_extractLane, show k % 8 < 8 by omega, decide_true, Bool.true_and] at hbit
  rwa [show 8 * (k / 8 % 4) + k % 8 = k by omega] at hbit

/-- A byte shifted to lane `i`, read at bit `r` of lane `k`: the lanes are disjoint. -/
theorem getLsbD_byte_lane (b : Byte) (i k : Nat) {r : Nat} (hr : r < 8) :
    (b.setWidth 32 <<< laneShift i).getLsbD (8 * (k % 4) + r) = (decide (k % 4 = i % 4) && b.getLsbD r) := by
  rw [BitVec.getLsbD_shiftLeft, BitVec.getLsbD_setWidth, laneShift]
  obtain hlt | heq | hgt := Nat.lt_trichotomy (k % 4) (i % 4)
  · simp [hlt.ne, show 8 * (k % 4) + r < i % 4 * 8 by omega]
  · simp [heq, show 8 * (i % 4) + r < 32 by omega, show 8 * (i % 4) + r - i % 4 * 8 = r by omega,
      show i % 4 * 8 ≤ 8 * (i % 4) + r by omega, show r < 32 by omega]
  · simp [hgt.ne', BitVec.getLsbD_of_ge b _ (show 8 ≤ 8 * (k % 4) + r - i % 4 * 8 by omega)]

/-- An insertion reaches its own lane alone. -/
theorem extractLane_insertLane (w : Word) (i k : Nat) (b : Byte) :
    extractLane (insertLane w i b) k = if k % 4 = i % 4 then extractLane w k ||| b else extractLane w k := by
  refine BitVec.eq_of_getLsbD_eq fun r hr => ?_
  rw [getLsbD_extractLane, insertLane, BitVec.getLsbD_or, getLsbD_byte_lane b i k hr]
  split
  next h =>
    rw [BitVec.getLsbD_or, getLsbD_extractLane]
    simp [h, hr]
  next h =>
    rw [getLsbD_extractLane]
    simp [h, hr]

theorem extractLane_zero (i : Nat) : extractLane 0 i = 0 := by
  simp [extractLane]

/-- Byte `i` of a buffer of `n` bytes, zero beyond the end (40_word_packer.md R123). -/
def byteOrZero (b : Nat → Byte) (n i : Nat) : Byte := if i < n then b i else 0

theorem byteOrZero_zero (b : Nat → Byte) (i : Nat) : byteOrZero b 0 i = 0 := rfl

/-- One more byte fills a place that held zero. -/
theorem byteOrZero_succ (b : Nat → Byte) (n i : Nat) :
    byteOrZero b (n + 1) i = if i = n then byteOrZero b n i ||| b n else byteOrZero b n i := by
  unfold byteOrZero
  obtain hlt | rfl | hgt := Nat.lt_trichotomy i n
  · simp [hlt, hlt.ne, Nat.lt_succ_of_lt hlt]
  · simp
  · simp [hgt.ne', show ¬ i < n by omega, show ¬ i < n + 1 by omega]

theorem packedWord_eq (b : Nat → Byte) (n j : Nat) :
    packedWord b n j = (byteOrZero b n (4 * j + 0)).toNat + (byteOrZero b n (4 * j + 1)).toNat * 2 ^ 8 +
      (byteOrZero b n (4 * j + 2)).toNat * 2 ^ 16 + (byteOrZero b n (4 * j + 3)).toNat * 2 ^ 24 := by
  simp [packedWord, byteOrZero, List.range_succ, apply_ite BitVec.toNat, ite_mul, Nat.add_assoc]

theorem packedWord_lane (b : Nat → Byte) (n j : Nat) {t : Nat} (ht : t < 4) :
    extractLane (BitVec.ofNat 32 (packedWord b n j)) t = byteOrZero b n (4 * j + t) := by
  have h0 := (byteOrZero b n (4 * j + 0)).isLt
  have h1 := (byteOrZero b n (4 * j + 1)).isLt
  have h2 := (byteOrZero b n (4 * j + 2)).isLt
  have h3 := (byteOrZero b n (4 * j + 3)).isLt
  refine BitVec.eq_of_toNat_eq ?_
  rw [extractLane_eq_extractLsb', BitVec.extractLsb'_toNat, Nat.shiftRight_eq_div_pow, BitVec.toNat_ofNat, packedWord_eq,
    Nat.mod_eq_of_lt ht]
  interval_cases t <;> omega

/-- The packed word is the one whose bytes are the buffer's. -/
theorem eq_packedWord {b : Nat → Byte} {n j : Nat} {w : Word}
    (h : ∀ t < 4, extractLane w t = byteOrZero b n (4 * j + t)) : w = BitVec.ofNat 32 (packedWord b n j) :=
  eq_of_extractLane_eq fun t ht => (h t ht).trans (packedWord_lane b n j ht).symm

end Sys2Proof.Machine

namespace Sys2Proof.Machine

/-! ## What the packer's bodies write -/

/-- `t` is `s` after `n` turns of the packing loop: `BUF` and the cells above the array are as in `s`, and a word of
the array has the first `n` bytes in their lanes and zero in the others (40_word_packer.md R121). -/
def PackedUpTo (s : State) (n : Nat) (t : State) : Prop :=
  (∀ i, bufAt t i = bufAt s i) ∧ (∀ j, dataWords s ≤ j → vAt t j = vAt s j) ∧
    ∀ j, j < dataWords s → ∀ r < 4, extractLane (vAt t j) r = byteOrZero (bufAt s) n (4 * j + r)

theorem packedUpTo_clearWords (s : State) : PackedUpTo s 0 (forUp (fun i t => setV i 0 t) (dataWords s) s) := by
  refine ⟨bufAt_clearWords _ s, fun j hj => ?_, fun j hj r _ => ?_⟩
  · rw [vAt_clearWords, if_neg (by omega)]
  · rw [vAt_clearWords, if_pos hj, extractLane_zero, byteOrZero_zero]

theorem PackedUpTo.packByte {s t : State} {n : Nat} (h : PackedUpTo s n t) (hn : n < s.blen.toNat) :
    PackedUpTo s (n + 1) (packByte n t) := by
  obtain ⟨hbuf, habove, hlanes⟩ := h
  have hword : n / 4 < dataWords s := by
    unfold dataWords wordCount
    omega
  refine ⟨hbuf, fun j hj => ?_, fun j hj r hr => ?_⟩
  · rw [Machine.packByte, vAt_setV, if_neg (by omega), habove j hj]
  · rw [Machine.packByte, vAt_setV, byteOrZero_succ, hbuf]
    split
    next hjn =>
      subst hjn
      rw [extractLane_insertLane, hlanes _ hj r hr]
      exact if_congr (by omega) rfl rfl
    next hjn => rw [if_neg (by omega), hlanes j hj r hr]

theorem packedUpTo_packWords (s : State) : PackedUpTo s s.blen.toNat (packWords s) :=
  forUp_inv (PackedUpTo s) (packedUpTo_clearWords s) fun _ _ hn h => h.packByte hn

/-- Every cell of `V` after the packing loops (40_word_packer.md R123). -/
theorem vAt_packWords (s : State) (j : Nat) :
    vAt (packWords s) j =
      if j < dataWords s then BitVec.ofNat 32 (packedWord (bufAt s) s.blen.toNat j) else vAt s j := by
  obtain ⟨-, habove, hlanes⟩ := packedUpTo_packWords s
  split
  next hj => exact eq_packedWord (hlanes j hj)
  next hj => exact habove j (by omega)

theorem vAt_packBody (s : State) (j : Nat) :
    vAt (packBody s) j =
      if j < dataWords s then BitVec.ofNat 32 (packedWord (bufAt s) s.blen.toNat j) else vAt s j :=
  vAt_packWords s j

theorem vAt_packlBody (s : State) (j : Nat) :
    vAt (packlBody s) j =
      if j < dataWords s then BitVec.ofNat 32 (packedWord (bufAt s) s.blen.toNat j)
      else if j = dataWords s then s.blen else vAt s j := by
  have hcell : vAt (packlBody s) j = if j = dataWords s then s.blen else vAt (packWords s) j := vAt_setV _ j _ _
  rw [hcell, vAt_packWords]
  obtain hlt | rfl | hgt := Nat.lt_trichotomy j (dataWords s)
  · simp [hlt, hlt.ne]
  · simp
  · simp [hgt.ne', show ¬ j < dataWords s by omega]

theorem bufAt_unpackBytes_eq_arrayByte (n : Nat) (s : State) (i : Nat) :
    bufAt (unpackBytes n s) i = if i < n then arrayByte (vAt s) i else bufAt s i := by
  rw [bufAt_unpackBytes, extractLane_eq_arrayByte]

theorem unpackBytes_blen (n : Nat) (s : State) : (unpackBytes n s).blen = BitVec.ofNat 32 n := rfl

/-! ## The outcomes of the packer's commands -/

theorem exec_pack_of_exceeds {s : State} (h : s.cap.toNat < dataWords s) :
    exec .pack s = .next (complete .capacity s) := if_pos h

theorem exec_pack_of_fits {s : State} (h : dataWords s ≤ s.cap.toNat) :
    exec .pack s = .next (complete .ok (packBody s)) := if_neg (Nat.not_lt.2 h)

theorem exec_packl_of_exceeds {s : State} (h : s.cap.toNat < dataWords s + 1) :
    exec .packl s = .next (complete .capacity s) := if_pos h

theorem exec_packl_of_fits {s : State} (h : dataWords s + 1 ≤ s.cap.toNat) :
    exec .packl s = .next (complete .ok (packlBody s)) := if_neg (Nat.not_lt.2 h)

theorem exec_unpack_of_exceeds {s : State} (h : s.cap.toNat < s.wlen.toNat) :
    exec .unpack s = .next (complete .capacity s) := if_pos h

theorem exec_unpack_of_fits {s : State} (h : s.wlen.toNat ≤ s.cap.toNat) :
    exec .unpack s = .next (complete .ok (unpackBody s)) := if_neg (Nat.not_lt.2 h)

theorem exec_unpackl_of_empty {s : State} (h : s.wlen.toNat = 0) :
    exec .unpackl s = .next (complete .zerolen s) := if_pos h

theorem exec_unpackl_of_exceeds {s : State} (hpos : 1 ≤ s.wlen.toNat) (h : s.cap.toNat < s.wlen.toNat) :
    exec .unpackl s = .next (complete .capacity s) :=
  (if_neg (Nat.pos_iff_ne_zero.1 hpos)).trans (if_pos h)

theorem exec_unpackl_of_fits {s : State} (h : ArrayFits s) : exec .unpackl s = .next (unpacklFinish s) := by
  obtain ⟨hpos, hcap⟩ := h
  exact (if_neg (Nat.pos_iff_ne_zero.1 hpos)).trans (if_neg (Nat.not_lt.2 hcap))

theorem exec_unpackl_of_accepted {s : State} (hf : ArrayFits s)
    (h : lengthAccepted (bytesBeforeLength s) (embeddedLength s) = true) :
    exec .unpackl s = .next (complete .ok (unpackBytes (embeddedLength s) s)) :=
  (exec_unpackl_of_fits hf).trans (congrArg _ (if_pos h))

theorem exec_unpackl_of_rejected {s : State} (hf : ArrayFits s)
    (h : ¬ lengthAccepted (bytesBeforeLength s) (embeddedLength s) = true) :
    exec .unpackl s = .next (complete .corrupt s) :=
  (exec_unpackl_of_fits hf).trans (congrArg _ (if_neg h))

theorem lengthAccepted_iff (nb m : Nat) :
    lengthAccepted nb m = true ↔ (nb : Int) - 3 ≤ (m : Int) ∧ (m : Int) ≤ (nb : Int) := decide_eq_true_iff

theorem lengthAccepted_blen (s : State) : lengthAccepted (4 * dataWords s) s.blen.toNat = true := by
  rw [lengthAccepted_iff, dataWords, wordCount]
  omega

/-- Settles O23: a length that is at least 0 passes the lower bound of R135 exactly when it passes `max(0, nb - 3)`. -/
theorem embeddedLengthBound : Obligations.EmbeddedLengthBound := by
  refine ⟨fun nb m => ?_, lengthAccepted_blen⟩
  rw [lengthAccepted_iff]
  omega

/-- Settles O17: the test against `CAP`, then the cells of `vAt_packBody`. -/
theorem packPacksBytes : Obligations.PackPacksBytes := by
  refine ⟨decode_encode .pack, fun s => ⟨exec_pack_of_exceeds, fun hfit => ?_⟩⟩
  refine ⟨_, exec_pack_of_fits hfit, ?_, vAt_packBody s⟩
  rw [packBody_frame s]
  rfl

/-- Settles O18: the test against `CAP`, then the cells of `vAt_packlBody`. -/
theorem packlPacksBytesAndLength : Obligations.PacklPacksBytesAndLength := by
  refine ⟨decode_encode .packl, fun s => ⟨exec_packl_of_exceeds, fun hfit => ?_⟩⟩
  refine ⟨_, exec_packl_of_fits hfit, ?_, vAt_packlBody s⟩
  rw [packlBody_frame s]
  rfl

/-- `4 * WLEN` bytes of an array that fits a legal capacity are counted by `BLEN` as they are (40_word_packer.md
R132). -/
theorem unpackBody_blen_toNat {s : State} (hc : CapLegal s) (h : s.wlen.toNat ≤ s.cap.toNat) :
    (unpackBody s).blen.toNat = 4 * s.wlen.toNat := by
  obtain ⟨-, hhigh⟩ := hc
  rw [unpackBody, unpackBytes_blen, BitVec.toNat_ofNat, Nat.mod_eq_of_lt (by omega)]

/-- Settles O19: the test against `CAP`, then the cells of `bufAt_unpackBytes`. -/
theorem unpackUnpacksWords : Obligations.UnpackUnpacksWords := by
  refine ⟨decode_encode .unpack, fun s => ⟨exec_unpack_of_exceeds, fun hfit => ?_⟩⟩
  refine ⟨_, exec_unpack_of_fits hfit, ?_, fun hc => unpackBody_blen_toNat hc hfit, bufAt_unpackBytes_eq_arrayByte _ s⟩
  rw [unpackBody, unpackBytes_frame _ s]
  rfl

/-- Settles O20: the three tests in their order, then the cells of `bufAt_unpackBytes`. -/
theorem unpacklChecksEmbeddedLength : Obligations.UnpacklChecksEmbeddedLength := by
  refine ⟨decode_encode .unpackl, fun s => ⟨exec_unpackl_of_empty, exec_unpackl_of_exceeds,
    fun hpos hcap hbad => ?_, fun hpos hcap hlow hhigh => ?_⟩⟩
  · refine exec_unpackl_of_rejected ⟨hpos, hcap⟩ ?_
    rw [lengthAccepted_iff, bytesBeforeLength, embeddedLength]
    omega
  · have hacc : lengthAccepted (bytesBeforeLength s) (embeddedLength s) = true := by
      rw [lengthAccepted_iff, bytesBeforeLength, embeddedLength]
      omega
    refine ⟨_, exec_unpackl_of_accepted ⟨hpos, hcap⟩ hacc, ?_, bufAt_unpackBytes_eq_arrayByte _ s⟩
    rw [unpackBytes_frame _ s, embeddedLength, BitVec.ofNat_toNat, BitVec.setWidth_eq]
    rfl

end Sys2Proof.Machine

namespace Sys2Proof.Machine

/-! ## The round trips -/

/-- Unpacking a packed word gives its bytes. -/
theorem arrayByte_of_packed {w : Nat → Word} {b : Nat → Byte} {n i : Nat}
    (h : w (i / 4) = BitVec.ofNat 32 (packedWord b n (i / 4))) : arrayByte w i = byteOrZero b n i := by
  rw [← extractLane_eq_arrayByte, h, extractLane_congr (Nat.mod_mod i 4).symm,
    packedWord_lane b n _ (Nat.mod_lt i (by decide)), Nat.div_add_mod]

/-- Packing the bytes of an array gives the words that are there whole. -/
theorem packedWord_of_unpacked {w : Nat → Word} {b : Nat → Byte} {n j : Nat} (h : ∀ i < n, b i = arrayByte w i)
    (hj : 4 * j + 3 < n) : BitVec.ofNat 32 (packedWord b n j) = w j := by
  refine (eq_packedWord fun t ht => ?_).symm
  have hword : (4 * j + t) / 4 = j := by omega
  rw [byteOrZero, if_pos (by omega), h _ (by omega), ← extractLane_eq_arrayByte, hword,
    extractLane_congr (show t % 4 = (4 * j + t) % 4 by omega)]

/-- `WLEN` after `PACKL` is a number of words, whatever `CAP` holds. -/
theorem packlBody_wlen_toNat (s : State) : (packlBody s).wlen.toNat = dataWords s + 1 := by
  have := dataWords_le s
  rw [packlBody_wlen, BitVec.toNat_ofNat, Nat.mod_eq_of_lt (by omega)]

theorem bytesBeforeLength_packlBody (s : State) : bytesBeforeLength (packlBody s) = 4 * dataWords s := by
  rw [bytesBeforeLength, packlBody_wlen_toNat, Nat.add_sub_cancel]

theorem embeddedLength_packlBody (s : State) : embeddedLength (packlBody s) = s.blen.toNat := by
  rw [embeddedLength, packlBody_wlen_toNat, vAt_packlBody]
  simp

/-- `PACKL`, then `UNPACKL`: the embedded length is accepted (40_word_packer.md R126), and the bytes are those packed. -/
theorem packl_unpackl {s : State} (h : dataWords s + 1 ≤ s.cap.toNat) :
    ∃ t u, exec .packl s = .next t ∧ exec .unpackl t = .next u ∧ u.status = 0x2 ∧ u.blen = s.blen ∧
      ∀ i, i < s.blen.toNat → bufAt u i = bufAt s i := by
  have hfit : ArrayFits (packlBody s) := by
    rw [ArrayFits, packlBody_wlen_toNat, packlBody_cap]
    omega
  have hacc : lengthAccepted (bytesBeforeLength (packlBody s)) (embeddedLength (packlBody s)) = true := by
    rw [bytesBeforeLength_packlBody, embeddedLength_packlBody]
    exact lengthAccepted_blen s
  have hm : embeddedLength (complete .ok (packlBody s)) = s.blen.toNat := embeddedLength_packlBody s
  refine ⟨_, _, exec_packl_of_fits h, exec_unpackl_of_accepted (s := complete .ok (packlBody s)) hfit hacc, rfl, ?_,
    fun i hi => ?_⟩
  · rw [complete_blen, unpackBytes_blen, hm, BitVec.ofNat_toNat, BitVec.setWidth_eq]
  · have hword : i / 4 < dataWords s := by
      unfold dataWords wordCount
      omega
    have hpacked := (vAt_packlBody s (i / 4)).trans (if_pos hword)
    refine (bufAt_unpackBytes_eq_arrayByte _ _ i).trans ?_
    rw [hm, if_pos hi]
    exact (arrayByte_of_packed hpacked).trans (if_pos hi)

/-- `PACK`, then `UNPACK`: the bytes packed, and the zero fill of the last word (40_word_packer.md R123). -/
theorem pack_unpack {s : State} (hc : CapLegal s) (h : dataWords s ≤ s.cap.toNat) :
    ∃ t u, exec .pack s = .next t ∧ exec .unpack t = .next u ∧ u.status = 0x2 ∧ u.blen.toNat = 4 * dataWords s ∧
      ∀ i, i < 4 * dataWords s → bufAt u i = if i < s.blen.toNat then bufAt s i else 0 := by
  have hwlen : (complete .ok (packBody s)).wlen.toNat = dataWords s := by
    rw [complete_wlen, packBody_wlen, toNat_ofNat_of_le_cap hc h]
  have hcap : (complete .ok (packBody s)).cap = s.cap := packBody_cap s
  have hfit : (complete .ok (packBody s)).wlen.toNat ≤ (complete .ok (packBody s)).cap.toNat := by
    rw [hwlen, hcap]
    exact h
  refine ⟨_, _, exec_pack_of_fits h, exec_unpack_of_fits hfit, rfl, ?_, fun i hi => ?_⟩
  · rw [complete_blen, unpackBody_blen_toNat (by rw [CapLegal, hcap]; exact hc) hfit, hwlen]
  · have hpacked := (vAt_packBody s (i / 4)).trans (if_pos (by omega))
    refine (bufAt_unpackBytes_eq_arrayByte _ _ i).trans ?_
    rw [hwlen, if_pos hi]
    exact arrayByte_of_packed hpacked

/-- `UNPACK`, then `PACK`: `BLEN` is a multiple of 4, so every word is there whole. -/
theorem unpack_pack {s : State} (hc : CapLegal s) (h : s.wlen.toNat ≤ s.cap.toNat) :
    ∃ t u, exec .unpack s = .next t ∧ exec .pack t = .next u ∧ u.status = 0x2 ∧ u.wlen = s.wlen ∧
      ∀ j, j < s.wlen.toNat → vAt u j = vAt s j := by
  have hblen : (complete .ok (unpackBody s)).blen.toNat = 4 * s.wlen.toNat := unpackBody_blen_toNat hc h
  have hwords : dataWords (complete .ok (unpackBody s)) = s.wlen.toNat := by
    rw [dataWords, hblen, wordCount]
    omega
  have hcap : (complete .ok (unpackBody s)).cap = s.cap := by
    rw [unpackBody, unpackBytes_frame _ s]
    rfl
  have hfit : dataWords (complete .ok (unpackBody s)) ≤ (complete .ok (unpackBody s)).cap.toNat := by
    rw [hwords, hcap]
    exact h
  refine ⟨_, _, exec_unpack_of_fits h, exec_pack_of_fits hfit, rfl, ?_, fun j hj => ?_⟩
  · rw [complete_wlen, packBody_wlen, hwords, BitVec.ofNat_toNat, BitVec.setWidth_eq]
  · refine (vAt_packBody _ j).trans ?_
    rw [hwords, if_pos hj, hblen]
    exact packedWord_of_unpacked (fun i hi => (bufAt_unpackBytes_eq_arrayByte _ s i).trans (if_pos hi)) (by omega)

/-- Settles O21: the three round trips, each within its capacity. -/
theorem packerRoundTrips : Obligations.PackerRoundTrips :=
  fun _ => ⟨packl_unpackl, pack_unpack, unpack_pack⟩

end Sys2Proof.Machine

namespace Sys2Proof.Machine

/-! ## The packer without the key and the engine registers -/

/-- `s` with the key side and the engine registers of `d`, which no packer command names (40_word_packer.md R120). -/
def withKeyAndEngine (d s : State) : State :=
  { s with k := d.k, kbuf := d.kbuf, klen := d.klen, sum := d.sum, rnd := d.rnd, p := d.p, y := d.y, z := d.z }

section

variable (d s : State)

theorem packWords_withKeyAndEngine : packWords (withKeyAndEngine d s) = withKeyAndEngine d (packWords s) :=
  forUp_rel (fun t r => r = withKeyAndEngine d t) (f := packByte) (n := s.blen.toNat)
    (forUp_rel (fun t r => r = withKeyAndEngine d t) (f := fun j t => setV j 0 t) rfl fun _ _ _ _ h => by rw [h]; rfl)
    fun _ _ _ _ h => by rw [h]; rfl

theorem packBody_withKeyAndEngine : packBody (withKeyAndEngine d s) = withKeyAndEngine d (packBody s) :=
  congrArg (fun t : State => { t with wlen := BitVec.ofNat 32 (dataWords s) }) (packWords_withKeyAndEngine d s)

theorem packlBody_withKeyAndEngine : packlBody (withKeyAndEngine d s) = withKeyAndEngine d (packlBody s) :=
  congrArg (fun t => { setV (dataWords s) s.blen t with wlen := BitVec.ofNat 32 (dataWords s + 1) })
    (packWords_withKeyAndEngine d s)

theorem unpackBytes_withKeyAndEngine (n : Nat) :
    unpackBytes n (withKeyAndEngine d s) = withKeyAndEngine d (unpackBytes n s) :=
  congrArg (fun t : State => { t with blen := BitVec.ofNat 32 n })
    (forUp_rel (fun t r => r = withKeyAndEngine d t) (f := unpackByte) rfl fun _ _ _ _ h => by rw [h]; rfl)

theorem unpackBody_withKeyAndEngine : unpackBody (withKeyAndEngine d s) = withKeyAndEngine d (unpackBody s) :=
  unpackBytes_withKeyAndEngine d s _

/-- The outcome of `i` from `s` with `d`'s key side and engine registers is its outcome from `s`, with those. -/
def IgnoresKeyAndEngine (i : Instr) : Prop :=
  exec i (withKeyAndEngine d s) = andThen (exec i s) fun t => .next (withKeyAndEngine d t)

theorem pack_ignoresKeyAndEngine : IgnoresKeyAndEngine d s .pack := by
  unfold IgnoresKeyAndEngine
  obtain h | h := Nat.lt_or_ge s.cap.toNat (dataWords s)
  · rw [exec_pack_of_exceeds h, exec_pack_of_exceeds (s := withKeyAndEngine d s) h]
    rfl
  · rw [exec_pack_of_fits h, exec_pack_of_fits (s := withKeyAndEngine d s) h, packBody_withKeyAndEngine]
    rfl

theorem packl_ignoresKeyAndEngine : IgnoresKeyAndEngine d s .packl := by
  unfold IgnoresKeyAndEngine
  obtain h | h := Nat.lt_or_ge s.cap.toNat (dataWords s + 1)
  · rw [exec_packl_of_exceeds h, exec_packl_of_exceeds (s := withKeyAndEngine d s) h]
    rfl
  · rw [exec_packl_of_fits h, exec_packl_of_fits (s := withKeyAndEngine d s) h, packlBody_withKeyAndEngine]
    rfl

theorem unpack_ignoresKeyAndEngine : IgnoresKeyAndEngine d s .unpack := by
  unfold IgnoresKeyAndEngine
  obtain h | h := Nat.lt_or_ge s.cap.toNat s.wlen.toNat
  · rw [exec_unpack_of_exceeds h, exec_unpack_of_exceeds (s := withKeyAndEngine d s) h]
    rfl
  · rw [exec_unpack_of_fits h, exec_unpack_of_fits (s := withKeyAndEngine d s) h, unpackBody_withKeyAndEngine]
    rfl

theorem unpackl_ignoresKeyAndEngine : IgnoresKeyAndEngine d s .unpackl := by
  unfold IgnoresKeyAndEngine
  obtain h0 | hpos := Nat.eq_zero_or_pos s.wlen.toNat
  · rw [exec_unpackl_of_empty h0, exec_unpackl_of_empty (s := withKeyAndEngine d s) h0]
    rfl
  obtain h | h := Nat.lt_or_ge s.cap.toNat s.wlen.toNat
  · rw [exec_unpackl_of_exceeds hpos h, exec_unpackl_of_exceeds (s := withKeyAndEngine d s) hpos h]
    rfl
  by_cases hacc : lengthAccepted (bytesBeforeLength s) (embeddedLength s) = true
  · rw [exec_unpackl_of_accepted ⟨hpos, h⟩ hacc, exec_unpackl_of_accepted (s := withKeyAndEngine d s) ⟨hpos, h⟩ hacc,
      unpackBytes_withKeyAndEngine]
    rfl
  · rw [exec_unpackl_of_rejected ⟨hpos, h⟩ hacc, exec_unpackl_of_rejected (s := withKeyAndEngine d s) ⟨hpos, h⟩ hacc]
    rfl

end

/-- Settles O22: the outcome moves with whatever those registers hold; with the ones of `s` itself that says that they
are left as they were. -/
theorem packersIgnoreKeyAndEngine : Obligations.PackersIgnoreKeyAndEngine := by
  intro i hi s k kb kl a r p y z
  obtain ⟨e, u, hexec, -⟩ := exec_completes i s
  have hmoved (d : State) : exec i (withKeyAndEngine d s) = .next (withKeyAndEngine d (complete e u)) := by
    have h : IgnoresKeyAndEngine d s i := by
      obtain rfl | rfl | rfl | rfl := hi
      · exact pack_ignoresKeyAndEngine d s
      · exact packl_ignoresKeyAndEngine d s
      · exact unpack_ignoresKeyAndEngine d s
      · exact unpackl_ignoresKeyAndEngine d s
    rw [h, hexec, andThen_next]
  have hown : Host.Outcome.next (complete e u) = .next (withKeyAndEngine s (complete e u)) := hexec.symm.trans (hmoved s)
  injection hown with hown
  refine ⟨complete e u, hexec,
    hmoved { s with k := k, kbuf := kb, klen := kl, sum := a, rnd := r, p := p, y := y, z := z }, ?_⟩
  rw [hown]
  exact ⟨rfl, rfl, rfl, rfl, rfl, rfl, rfl, rfl⟩

end Sys2Proof.Machine

namespace Sys2Proof.Machine

/-! ## What the key loader writes -/

theorem KeyFile.eq_of_get_eq {k l : KeyFile} (h : ∀ j, k.get j = l.get j) : k = l := by
  have h0 : k.k0 = l.k0 := h 0
  have h1 : k.k1 = l.k1 := h 1
  have h2 : k.k2 = l.k2 := h 2
  have h3 : k.k3 = l.k3 := h 3
  rw [KeyFile.mk.injEq]
  exact ⟨h0, h1, h2, h3⟩

/-- `t` is `s` after `n` turns of the key loop: `KBUF` is as in `s`, and a key register has the first `n` key bytes in
their lanes and zero in the others (41_key_loader.md R151). -/
def KeyLoadedUpTo (s : State) (n : Nat) (t : State) : Prop :=
  (∀ i, kbufAt t i = kbufAt s i) ∧
    ∀ j : Fin 4, ∀ r < 4, extractLane (t.k.get j) r = byteOrZero (kbufAt s) n (4 * j + r)

theorem keyLoadedUpTo_clearKey (s : State) : KeyLoadedUpTo s 0 { s with k := ⟨0, 0, 0, 0⟩ } := by
  refine ⟨fun _ => rfl, fun j r _ => ?_⟩
  have hzero : KeyFile.get ⟨0, 0, 0, 0⟩ j = 0 := by fin_cases j <;> rfl
  rw [hzero, extractLane_zero, byteOrZero_zero]

theorem KeyLoadedUpTo.keyByte {s t : State} {n : Nat} (h : KeyLoadedUpTo s n t) (hn : n < 16) :
    KeyLoadedUpTo s (n + 1) (keyByte n t) := by
  obtain ⟨hkbuf, hlanes⟩ := h
  have hreg (j : Fin 4) : j = Fin.ofNat 4 (n / 4) ↔ j.val = n / 4 := by
    rw [Fin.ext_iff, Fin.val_ofNat, Nat.mod_eq_of_lt (by omega)]
  refine ⟨hkbuf, fun j r hr => ?_⟩
  rw [Machine.keyByte, setK_k, KeyFile.get_set, byteOrZero_succ, hkbuf]
  split
  next hj =>
    have hval := (hreg j).1 hj
    rw [← hj, extractLane_insertLane, hlanes j r hr]
    exact if_congr (by omega) rfl rfl
  next hj =>
    have hval := mt (hreg j).2 hj
    rw [if_neg (by omega), hlanes j r hr]

theorem keyLoadedUpTo_keyBody (s : State) : KeyLoadedUpTo s (keyBytes s) (keyBody s) :=
  forUp_inv (KeyLoadedUpTo s) (keyLoadedUpTo_clearKey s) fun _ _ hi h =>
    h.keyByte (Nat.lt_of_lt_of_le hi (Nat.min_le_right _ _))

theorem keyWords_get (s : State) (j : Fin 4) :
    (keyWords s).get j = BitVec.ofNat 32 (packedWord (kbufAt s) (keyBytes s) j) := by
  fin_cases j <;> rfl

/-- The key loop gives the closed form of R151. -/
theorem keyBody_k (s : State) : (keyBody s).k = keyWords s := by
  obtain ⟨-, hlanes⟩ := keyLoadedUpTo_keyBody s
  exact KeyFile.eq_of_get_eq fun j => (eq_packedWord (hlanes j)).trans (keyWords_get s j).symm

/-- Keys that agree on the sixteen bytes, zero beyond their ends, have the same words. -/
theorem keyWords_congr {s u : State}
    (h : ∀ i < 16, byteOrZero (kbufAt s) (keyBytes s) i = byteOrZero (kbufAt u) (keyBytes u) i) :
    keyWords s = keyWords u := by
  refine KeyFile.eq_of_get_eq fun j => ?_
  rw [keyWords_get, keyWords_get]
  exact eq_packedWord fun t ht => (packedWord_lane _ _ _ ht).trans (h _ (by omega))

theorem keyWords_of_empty {s : State} (h : s.klen = 0) : keyWords s = ⟨0, 0, 0, 0⟩ := by
  have hbytes : keyBytes s = 0 := by
    rw [keyBytes, h]
    rfl
  rw [← keyBody_k, keyBody, hbytes, forUp_zero]

theorem exec_keyld (s : State) : exec .keyld s = .next (complete .ok { s with k := keyWords s }) := by
  rw [← keyBody_k, ← keyBody_frame]
  rfl

/-- Keys with the same words load the same `K`. -/
theorem keyld_sameKey {s u : State} (h : keyWords s = keyWords u) :
    ∃ t r, exec .keyld s = .next t ∧ exec .keyld u = .next r ∧ t.k = r.k ∧ t.k = keyWords s :=
  ⟨_, _, exec_keyld s, exec_keyld u, h, rfl⟩

/-- Settles O14: the key loop fills the lanes of the closed form one by one. -/
theorem keyldLoadsKeyWords : Obligations.KeyldLoadsKeyWords :=
  ⟨decode_encode .keyld, exec_keyld⟩

/-- Settles O15: a byte beyond the end of the short key counts as zero, which is what the padded key holds there. -/
theorem keyldPadsWithZeros : Obligations.KeyldPadsWithZeros := by
  intro s u hs hu hpad
  have hsame : keyWords s = keyWords u := by
    refine keyWords_congr fun i hi => ?_
    have hslen : keyBytes s = s.klen.toNat := Nat.min_eq_left (Nat.le_of_lt hs)
    have hulen : keyBytes u = 16 := by rw [keyBytes, hu]; rfl
    rw [hslen, hulen, byteOrZero, byteOrZero, if_pos hi, hpad i hi]
  obtain ⟨t, r, ht, hr, hk, hwords⟩ := keyld_sameKey hsame
  exact ⟨t, r, ht, hr, hk, fun hempty => hwords.trans (keyWords_of_empty hempty)⟩

/-- Settles O16: both lengths count as 16, and no byte beyond the sixteenth is read. -/
theorem keyldUsesFirstSixteenBytes : Obligations.KeyldUsesFirstSixteenBytes := by
  intro s u hs hu hbytes
  have hsame : keyWords s = keyWords u := by
    refine keyWords_congr fun i hi => ?_
    have hslen : keyBytes s = 16 := Nat.min_eq_right hs
    have hulen : keyBytes u = 16 := by rw [keyBytes, hu]; rfl
    rw [hslen, hulen, byteOrZero, byteOrZero, hbytes i hi]
  obtain ⟨t, r, ht, hr, hk, -⟩ := keyld_sameKey hsame
  exact ⟨t, r, ht, hr, hk⟩

end Sys2Proof.Machine

namespace Sys2Proof.Machine

/-! ## The mixing function in integer arithmetic -/

theorem keyIndex_val (p : Word) (e : BitVec 2) : (keyIndex p e).val = (p.toNat % 4) ^^^ e.toNat := by
  have hindex : (keyIndex p e).val = (p.setWidth 2 ^^^ e).toNat := rfl
  rw [hindex, BitVec.toNat_xor, BitVec.toNat_setWidth]

/-- The shape of both `T1` and `T2`: the right shift is a floor, the left shift wraps (42_mixing_function.md R166). -/
theorem toNat_ushiftRight_xor_shiftLeft (u v : Word) (m n : Nat) :
    ((u >>> m) ^^^ (v <<< n)).toNat = (u.toNat / 2 ^ m) ^^^ (2 ^ n * v.toNat % 2 ^ 32) := by
  rw [BitVec.toNat_xor, BitVec.toNat_ushiftRight, Nat.shiftRight_eq_div_pow,
    BitVec.toNat_shiftLeft, Nat.shiftLeft_eq, Nat.mul_comm]

/-- `MX` in integer arithmetic, with the named words `T1`, `T2`, `A` and `B` of 42_mixing_function.md R165. -/
theorem toNat_mx (s y z p : Word) (e : BitVec 2) (k : KeyFile) :
    (mx s y z p e k).toNat =
      ((((z.toNat / 32) ^^^ (4 * y.toNat % 2 ^ 32)) + ((y.toNat / 8) ^^^ (16 * z.toNat % 2 ^ 32))) % 2 ^ 32) ^^^
      (((s.toNat ^^^ y.toNat) + ((k.get (keyIndex p e)).toNat ^^^ z.toNat)) % 2 ^ 32) := by
  have ht1 : ((z >>> 5) ^^^ (y <<< 2)).toNat = (z.toNat / 32) ^^^ (4 * y.toNat % 2 ^ 32) :=
    toNat_ushiftRight_xor_shiftLeft z y 5 2
  have ht2 : ((y >>> 3) ^^^ (z <<< 4)).toNat = (y.toNat / 8) ^^^ (16 * z.toNat % 2 ^ 32) :=
    toNat_ushiftRight_xor_shiftLeft y z 3 4
  have ha := BitVec.toNat_add ((z >>> 5) ^^^ (y <<< 2)) ((y >>> 3) ^^^ (z <<< 4))
  have hb := BitVec.toNat_add (s ^^^ y) (k.get (keyIndex p e) ^^^ z)
  rw [ht1, ht2] at ha
  rw [BitVec.toNat_xor, BitVec.toNat_xor] at hb
  rw [mx, BitVec.toNat_xor, ha, hb]

/-- Settles O24: the index is `keyIndex`, and each word operation of `mx` has its integer form. -/
theorem mixingFunctionArithmetic : Obligations.MixingFunctionArithmetic := fun s y z p e k =>
  ⟨keyIndex p e, keyIndex_val p e, toNat_mx s y z p e k⟩

end Sys2Proof.Machine

namespace Sys2Proof.Machine

/-! ## The ring and the sum schedule -/

/-- The word before the first is the last (43_cipher_engine.md R184). -/
theorem ringPrev_zero {len : Nat} (h : 1 ≤ len) : ringPrev len 0 = len - 1 := by
  rw [ringPrev, Nat.zero_add, Nat.mod_eq_of_lt (by omega)]

theorem ringPrev_succ {len p : Nat} (h : p < len) : ringPrev len (p + 1) = p := by
  rw [ringPrev, show p + 1 + len - 1 = p + len by omega, Nat.add_mod_right, Nat.mod_eq_of_lt h]

theorem ringPrev_len {len : Nat} (h : 1 ≤ len) : ringPrev len len = len - 1 := by
  rw [ringPrev, show len + len - 1 = len - 1 + len by omega, Nat.add_mod_right, Nat.mod_eq_of_lt (by omega)]

/-- The word after the last is the first (43_cipher_engine.md R196). -/
theorem ringNext_last {len : Nat} (h : 1 ≤ len) : ringNext len (len - 1) = 0 := by
  rw [ringNext, Nat.sub_add_cancel h, Nat.mod_self]

theorem ringNext_of_lt {len p : Nat} (h : p + 1 < len) : ringNext len p = p + 1 := Nat.mod_eq_of_lt h

/-- One round of encryption moves `SUM` to the next row of 43_cipher_engine.md R186. -/
theorem ofNat_succ_mul_delta (n : Nat) :
    BitVec.ofNat 32 (n + 1) * delta = BitVec.ofNat 32 n * delta + delta := by
  rw [BitVec.ofNat_add, add_mul, show BitVec.ofNat 32 1 * delta = delta from one_mul delta]

/-- One round of decryption moves `SUM` back by one row (43_cipher_engine.md R198). -/
theorem sub_one_mul_delta (r : Word) : (r - 1) * delta = r * delta - delta := by
  rw [sub_mul, one_mul]

/-- A read of `V` sees neither the engine registers nor `PHASE`. -/
theorem vAt_registers (s : State) (a y z p r : Word) (ph : Phase) :
    vAt { s with sum := a, y := y, z := z, p := p, rnd := r, phase := ph } = vAt s := rfl

theorem vAt_encLoad (s : State) : vAt (encLoad s) = vAt s := vAt_registers s ..

theorem decLoad_eq (s : State) :
    decLoad s = { s with
      rnd := BitVec.ofNat 32 (roundCount s.wlen.toNat), sum := BitVec.ofNat 32 (roundCount s.wlen.toNat) * delta,
      y := vAt s 0 } := rfl

theorem vAt_decLoad (s : State) : vAt (decLoad s) = vAt s := by
  rw [decLoad_eq]
  exact vAt_registers s ..

theorem vAt_encUpdate (p j : Nat) (s : State) : vAt (encUpdate p s) j = if j = p then encWord p s else vAt s j :=
  vAt_setV p j (encWord p s) s

theorem vAt_encUpdate_same (p : Nat) (s : State) : vAt (encUpdate p s) p = encWord p s :=
  (vAt_encUpdate p p s).trans (if_pos rfl)

theorem vAt_decUpdate (p j : Nat) (s : State) : vAt (decUpdate p s) j = if j = p then decWord p s else vAt s j :=
  vAt_setV p j (decWord p s) s

theorem vAt_decUpdate_same (p : Nat) (s : State) : vAt (decUpdate p s) p = decWord p s :=
  (vAt_decUpdate p p s).trans (if_pos rfl)

/-! ## The schedule along the steps of the engine -/

/-- What a step of the engine may lead to: `finish`, or a place `e` of the engine that has the property `Sched e`. -/
def MovesScheduled (Sched : EnginePhase → State → Prop) (place : EnginePhase → Phase) (finish : State → State)
    (s u : State) : Prop :=
  u = finish s ∨ ∃ e, u.phase = place e ∧ u.cmd = s.cmd ∧ Sched e u

/-- 43_cipher_engine.md R184, R186, along the rows of R206. -/
theorem encEngineStep_scheduled (place : EnginePhase → Phase) (finish : State → State) {e : EnginePhase} {s : State}
    (hf : EngineFits e s) (hs : EncScheduled e s) :
    MovesScheduled EncScheduled place finish s (encEngineStep place finish e s) := by
  obtain ⟨⟨hpos, -⟩, hword⟩ := hf
  cases e with
  | load =>
    refine .inr ⟨.round, rfl, rfl, (toNat_roundCount _).le, ?_, (congrFun (vAt_encLoad s) _).symm⟩
    show (0 : Word) = BitVec.ofNat 32 (roundCount s.wlen.toNat - (encLoad s).rnd.toNat) * delta
    rw [encLoad_rnd, toNat_roundCount, Nat.sub_self]
    exact (zero_mul delta).symm
  | round =>
    obtain ⟨hle, hsum, hz⟩ := hs
    show MovesScheduled _ _ _ _ (ite _ _ _)
    split
    · exact .inl rfl
    · refine .inr ⟨.word, rfl, rfl, hle, ?_, ?_⟩
      · show s.sum + delta = BitVec.ofNat 32 (roundCount s.wlen.toNat - s.rnd.toNat + 1) * delta
        rw [ofNat_succ_mul_delta, hsum]
      · rw [← ringPrev_zero hpos] at hz
        exact hz.trans (congrFun (vAt_registers s ..) _).symm
  | word =>
    obtain ⟨hle, hsum, -⟩ := hs
    obtain ⟨hrnd, hp⟩ := hword rfl
    have hz : (encUpdate s.p.toNat s).z = vAt (encUpdate s.p.toNat s) s.p.toNat := (vAt_encUpdate_same _ s).symm
    show MovesScheduled _ _ _ _ (ite _ _ _)
    split
    next hmore =>
      refine .inr ⟨.word, rfl, rfl, hle, hsum, ?_⟩
      show (encUpdate s.p.toNat s).z = vAt (encUpdate s.p.toNat s) (ringPrev s.wlen.toNat (s.p + 1).toNat)
      rw [show (s.p + 1).toNat = s.p.toNat + 1 by bv_omega, ringPrev_succ hp, hz]
    next hlast =>
      have hdown := toNat_sub_one hrnd
      have hpos' : 0 < s.rnd.toNat := by bv_omega
      refine .inr ⟨.round, rfl, rfl, ?_, ?_, ?_⟩
      · show (s.rnd - 1).toNat ≤ roundCount s.wlen.toNat
        omega
      · show s.sum = BitVec.ofNat 32 (roundCount s.wlen.toNat - (s.rnd - 1).toNat) * delta
        rw [hsum, hdown, show roundCount s.wlen.toNat - (s.rnd.toNat - 1) =
          roundCount s.wlen.toNat - s.rnd.toNat + 1 by omega]
      · show (encUpdate s.p.toNat s).z = vAt (encUpdate s.p.toNat s) (s.wlen.toNat - 1)
        rw [hz, show s.p.toNat = s.wlen.toNat - 1 by omega]

/-- The loads of `DECW` meet its schedule (43_cipher_engine.md R196). The loaded words are variables here, which keeps
their arithmetic away from unification. -/
theorem decScheduled_loaded (place : EnginePhase → Phase) (finish : State → State) {s : State} {q a y : Word}
    (hq : q.toNat ≤ roundCount s.wlen.toNat) (ha : a = q * delta) (hy : y = vAt s 0) :
    MovesScheduled DecScheduled place finish s { s with rnd := q, sum := a, y := y, phase := place .round } :=
  .inr ⟨.round, rfl, rfl, hq, ha, hy⟩

/-- 43_cipher_engine.md R196, R198, along the rows of R209. -/
theorem decEngineStep_scheduled (place : EnginePhase → Phase) (finish : State → State) {e : EnginePhase} {s : State}
    (hf : EngineFits e s) (hs : DecScheduled e s) :
    MovesScheduled DecScheduled place finish s (decEngineStep place finish e s) := by
  obtain ⟨⟨hpos, -⟩, hword⟩ := hf
  cases e with
  | load =>
    show MovesScheduled _ _ _ _ { decLoad s with phase := place .round }
    rw [decLoad_eq]
    exact decScheduled_loaded place finish (toNat_roundCount _).le rfl rfl
  | round =>
    obtain ⟨hle, hsum, hy⟩ := hs
    show MovesScheduled _ _ _ _ (ite _ _ _)
    split
    · exact .inl rfl
    · have hlast : (BitVec.ofNat 32 (s.wlen.toNat - 1)).toNat = s.wlen.toNat - 1 := by bv_omega
      refine .inr ⟨.word, rfl, rfl, hle, hsum, ?_⟩
      show s.y = vAt s (ringNext s.wlen.toNat (BitVec.ofNat 32 (s.wlen.toNat - 1)).toNat)
      rw [hlast, ringNext_last hpos, hy]
  | word =>
    obtain ⟨hle, hsum, -⟩ := hs
    obtain ⟨hrnd, hp⟩ := hword rfl
    have hy : (decUpdate s.p.toNat s).y = vAt (decUpdate s.p.toNat s) s.p.toNat := (vAt_decUpdate_same _ s).symm
    show MovesScheduled _ _ _ _ (ite _ _ _)
    split
    next hmore =>
      refine .inr ⟨.word, rfl, rfl, hle, hsum, ?_⟩
      show (decUpdate s.p.toNat s).y = vAt (decUpdate s.p.toNat s) (ringNext s.wlen.toNat (s.p - 1).toNat)
      rw [hy, show (s.p - 1).toNat = s.p.toNat - 1 by bv_omega, ringNext_of_lt (by omega), Nat.sub_add_cancel hmore]
    next hlast =>
      refine .inr ⟨.round, rfl, rfl, ?_, ?_, ?_⟩
      · show (s.rnd - 1).toNat ≤ roundCount s.wlen.toNat
        rw [toNat_sub_one hrnd]
        omega
      · show s.sum - delta = (s.rnd - 1) * delta
        rw [hsum, sub_one_mul_delta]
      · show (decUpdate s.p.toNat s).y = vAt (decUpdate s.p.toNat s) 0
        rw [hy, show s.p.toNat = 0 by omega]

/-! ## Where a step can lead -/

/-- `CMD` holds one command at a time. -/
theorem Running.unique {i j : Instr} {s : State} (hi : Running i s) (hj : Running j s) : i = j := by
  unfold Running at hi hj
  rw [hi] at hj
  injection hj

/-- Outside the engine's rounds the schedule claims nothing. -/
theorem engineScheduled_of_load {t : State} (h : ∀ e, enginePlace t = some e → e = .load) : EngineScheduled t := by
  intro e he
  obtain rfl := h e he
  exact ⟨fun _ => trivial, fun _ => trivial⟩

theorem engineScheduled_of_none {t : State} (h : enginePlace t = none) : EngineScheduled t :=
  engineScheduled_of_load fun e he => by simp [h] at he

/-- At a place of an encryption it is enough to look at the encryption's schedule. -/
theorem engineScheduled_of_enc {t : State} {e : EnginePhase} (hp : enginePlace t = some e)
    (hr : Running .encw t ∨ Running .encrypt t) (h : EncScheduled e t) : EngineScheduled t := by
  intro e' he'
  obtain rfl : e = e' := by rw [hp] at he'; injection he'
  refine ⟨fun _ => h, fun hd => ?_⟩
  obtain hr | hr := hr <;> obtain hd | hd := hd <;> cases hr.unique hd

theorem engineScheduled_of_dec {t : State} {e : EnginePhase} (hp : enginePlace t = some e)
    (hr : Running .decw t ∨ Running .decrypt t) (h : DecScheduled e t) : EngineScheduled t := by
  intro e' he'
  obtain rfl : e = e' := by rw [hp] at he'; injection he'
  refine ⟨fun he => ?_, fun _ => h⟩
  obtain hr | hr := hr <;> obtain he | he := he <;> cases hr.unique he

/-- How a command embeds the engine: `place` writes the engine's places, and `finish` leaves them. -/
def EmbedsEngine (place : EnginePhase → Phase) (finish : State → State) : Prop :=
  (∀ e (t : State), t.phase = place e → enginePlace t = some e) ∧ ∀ s, enginePlace (finish s) = none

theorem embedsEngine_engine : EmbedsEngine .engine (complete .ok) :=
  ⟨fun _ _ h => by rw [enginePlace, h], fun _ => rfl⟩

theorem embedsEngine_fEngine : EmbedsEngine .fEngine toUnpack :=
  ⟨fun _ _ h => by rw [enginePlace, h], fun _ => rfl⟩

theorem EmbedsEngine.scheduled_enc {place : EnginePhase → Phase} {finish : State → State}
    (hemb : EmbedsEngine place finish) {e : EnginePhase} {s : State} (hp : s.phase = place e)
    (hr : Running .encw s ∨ Running .encrypt s) (hf : EngineFits e s) (hs : EngineScheduled s) :
    EngineScheduled (encEngineStep place finish e s) := by
  obtain ⟨hplace, hfinish⟩ := hemb
  obtain h | ⟨e', hp', hc, hs'⟩ := encEngineStep_scheduled place finish hf ((hs e (hplace e s hp)).1 hr)
  · rw [h]
    exact engineScheduled_of_none (hfinish s)
  · exact engineScheduled_of_enc (hplace e' _ hp') (hr.imp (running_congr hc).2 (running_congr hc).2) hs'

theorem EmbedsEngine.scheduled_dec {place : EnginePhase → Phase} {finish : State → State}
    (hemb : EmbedsEngine place finish) {e : EnginePhase} {s : State} (hp : s.phase = place e)
    (hr : Running .decw s ∨ Running .decrypt s) (hf : EngineFits e s) (hs : EngineScheduled s) :
    EngineScheduled (decEngineStep place finish e s) := by
  obtain ⟨hplace, hfinish⟩ := hemb
  obtain h | ⟨e', hp', hc, hs'⟩ := decEngineStep_scheduled place finish hf ((hs e (hplace e s hp)).2 hr)
  · rw [h]
    exact engineScheduled_of_none (hfinish s)
  · exact engineScheduled_of_dec (hplace e' _ hp') (hr.imp (running_congr hc).2 (running_congr hc).2) hs'

/-- At a place of the engine the legal states are the ones where the engine may be (43_cipher_engine.md R205). -/
theorem Inv.engineFits {s : State} (hs : Inv s) {e : EnginePhase} (he : enginePlace s = some e) : EngineFits e s := by
  obtain ⟨-, -, -, -, -, hsched⟩ := hs
  unfold ScheduleLegal at hsched
  unfold enginePlace at he
  split at he <;> simp_all

/-! ## The steps at the engine's places, one per command that runs it -/

theorem microStep_encw_engine {s : State} (hr : Running .encw s) {e : EnginePhase} (hp : s.phase = .engine e) :
    microStep s = .next (encEngineStep .engine (complete .ok) e s) := by
  rw [microStep_encw hr, encwStep, hp]

theorem microStep_decw_engine {s : State} (hr : Running .decw s) {e : EnginePhase} (hp : s.phase = .engine e) :
    microStep s = .next (decEngineStep .engine (complete .ok) e s) := by
  rw [microStep_decw hr, decwStep, hp]

theorem microStep_encrypt_engine {s : State} (hr : Running .encrypt s) {e : EnginePhase} (hp : s.phase = .fEngine e) :
    microStep s = .next (encEngineStep .fEngine toUnpack e s) := by
  rw [microStep_encrypt hr, encryptStep, hp]

theorem microStep_decrypt_engine {s : State} (hr : Running .decrypt s) {e : EnginePhase} (hp : s.phase = .fEngine e) :
    microStep s = .next (decEngineStep .fEngine toUnpack e s) := by
  rw [microStep_decrypt hr, decryptStep, hp]

/-- A next state, and one that keeps the schedule. -/
def NextScheduled (r : Host.Outcome State Fault Refusal) : Prop := ∀ t, r = .next t → EngineScheduled t

theorem nextScheduled_next {t : State} (h : EngineScheduled t) : NextScheduled (.next t) := by
  rintro _ ⟨⟩
  exact h

theorem nextScheduled_of_none {t : State} (h : enginePlace t = none) : NextScheduled (.next t) :=
  nextScheduled_next (engineScheduled_of_none h)

/-- A command run as a whole ends idle. -/
theorem exec_nextScheduled (i : Instr) (s : State) : NextScheduled (exec i s) := by
  obtain ⟨e, u, heq, -⟩ := exec_completes i s
  rw [heq]
  exact nextScheduled_of_none rfl

/-- The checks before `F_KEY` lead there or end the command. -/
theorem enginePlace_encryptCheck (s : State) : enginePlace (encryptCheck s) = none := by
  unfold encryptCheck
  split
  · rfl
  · split <;> rfl

theorem enginePlace_decryptCheck (s : State) : enginePlace (decryptCheck s) = none := by
  unfold decryptCheck
  split
  · rfl
  · split
    · rfl
    · split <;> rfl

theorem enginePlace_unpacklFinish (s : State) : enginePlace (unpacklFinish s) = none := by
  obtain ⟨e, u, heq, -⟩ := unpacklFinish_leaves s
  rw [heq]
  rfl

/-- `F_PACK` leads to `E_INIT`, of which the schedule claims nothing. -/
theorem nextScheduled_to_load (t : State) : NextScheduled (.next { t with phase := .fEngine .load }) :=
  nextScheduled_next (engineScheduled_of_load fun _ he => by injection he with h; exact h.symm)

theorem encryptStep_scheduled {s : State} (hr : Running .encrypt s) (hs : Inv s) (hsched : EngineScheduled s) :
    NextScheduled (encryptStep s) := by
  unfold encryptStep
  split
  next => exact nextScheduled_of_none (enginePlace_encryptCheck s)
  next => exact nextScheduled_of_none rfl
  next => exact nextScheduled_to_load _
  next e hp =>
    exact nextScheduled_next
      (embedsEngine_fEngine.scheduled_enc hp (.inr hr) (hs.engineFits (embedsEngine_fEngine.1 e s hp)) hsched)
  next => exact nextScheduled_of_none rfl
  next => exact nofun

theorem decryptStep_scheduled {s : State} (hr : Running .decrypt s) (hs : Inv s) (hsched : EngineScheduled s) :
    NextScheduled (decryptStep s) := by
  unfold decryptStep
  split
  next => exact nextScheduled_of_none (enginePlace_decryptCheck s)
  next => exact nextScheduled_of_none rfl
  next => exact nextScheduled_to_load _
  next e hp =>
    exact nextScheduled_next
      (embedsEngine_fEngine.scheduled_dec hp (.inr hr) (hs.engineFits (embedsEngine_fEngine.1 e s hp)) hsched)
  next => exact nextScheduled_of_none (enginePlace_unpacklFinish s)
  next => exact nofun

theorem encwStep_scheduled {s : State} (hr : Running .encw s) (hs : Inv s) (hsched : EngineScheduled s) :
    NextScheduled (encwStep s) := by
  unfold encwStep
  split
  next e hp =>
    exact nextScheduled_next
      (embedsEngine_engine.scheduled_enc hp (.inl hr) (hs.engineFits (embedsEngine_engine.1 e s hp)) hsched)
  next => exact nofun

theorem decwStep_scheduled {s : State} (hr : Running .decw s) (hs : Inv s) (hsched : EngineScheduled s) :
    NextScheduled (decwStep s) := by
  unfold decwStep
  split
  next e hp =>
    exact nextScheduled_next
      (embedsEngine_engine.scheduled_dec hp (.inl hr) (hs.engineFits (embedsEngine_engine.1 e s hp)) hsched)
  next => exact nofun

theorem microStep_scheduled {s : State} (hs : Inv s) (hsched : EngineScheduled s) : NextScheduled (microStep s) := by
  unfold microStep
  split
  next hr => exact encwStep_scheduled hr hs hsched
  next hr => exact decwStep_scheduled hr hs hsched
  next hr => exact encryptStep_scheduled hr hs hsched
  next hr => exact decryptStep_scheduled hr hs hsched
  all_goals exact nofun

theorem runIssued_scheduled (s : State) : NextScheduled (runIssued s) := by
  unfold runIssued
  split
  · exact exec_nextScheduled _ s
  · exact nextScheduled_of_none rfl

theorem enterEngine_scheduled (s : State) : EngineScheduled (enterEngine s) := by
  unfold enterEngine
  split
  · exact engineScheduled_of_none rfl
  · split
    · exact engineScheduled_of_none rfl
    · exact engineScheduled_of_load fun _ he => by injection he with h; exact h.symm

theorem startFine_scheduled (s : State) : NextScheduled (startFine s) := by
  unfold startFine
  split
  iterate 2 exact nextScheduled_next (enterEngine_scheduled s)
  iterate 2 exact nextScheduled_of_none rfl
  iterate 6 exact exec_nextScheduled _ s
  exact nextScheduled_of_none rfl

/-- Settles O6: an issued command enters its schedule at `E_INIT` or completes; at a place of the engine each row of the
step tables moves `SUM` and the carried neighbour together with `RND` and `P`. -/
theorem stepKeepsEngineSchedule : Obligations.StepKeepsEngineSchedule := by
  intro s t hs hsched h
  cases hb : busy s with
  | false =>
    rw [step_of_idle hb, stepFine_of_idle hb, or_self] at h
    exact nextScheduled_next hsched t h
  | true =>
    by_cases hrun : s.phase = .run
    · rw [step_of_run hb hrun, stepFine_of_run hb hrun] at h
      exact h.elim (runIssued_scheduled s t) (startFine_scheduled s t)
    · rw [stepFine_of_place hb hrun, step_of_place hb hrun, or_self] at h
      exact microStep_scheduled hs hsched t h

/-! ## The exit test of the decryption loop -/

/-- `DELTA` is odd, so it has an inverse modulo `2^32` (43_cipher_engine.md R181, R200). -/
theorem mul_delta_eq_zero_iff (r : Word) : r * delta = 0 ↔ r = 0 := by
  have hinv : delta * 0x144CBC89 = 1 := by decide
  refine ⟨fun h => ?_, fun h => by rw [h, zero_mul]⟩
  calc r = r * (delta * 0x144CBC89) := by rw [hinv, mul_one]
    _ = r * delta * 0x144CBC89 := (mul_assoc ..).symm
    _ = 0 := by rw [h, zero_mul]

/-- At `E_ROUND` of a decryption the engine leaves when `RND` is 0 and goes on to the words otherwise. -/
theorem EmbedsEngine.place_after_round {place : EnginePhase → Phase} {finish : State → State}
    (hemb : EmbedsEngine place finish) (s : State) :
    enginePlace (decEngineStep place finish .round s) = if s.rnd = 0 then none else some .word := by
  obtain ⟨hplace, hfinish⟩ := hemb
  show enginePlace (ite _ _ _) = _
  split
  · exact hfinish s
  · exact hplace .word _ rfl

/-- The engine's places are `E_…` in `DECW` and inside `F_ENGINE` in `DECRYPT`. -/
theorem Inv.decryption_place {s : State} (hs : Inv s) (hr : Running .decw s ∨ Running .decrypt s) {e : EnginePhase}
    (he : enginePlace s = some e) :
    (Running .decw s ∧ s.phase = .engine e) ∨ (Running .decrypt s ∧ s.phase = .fEngine e) := by
  obtain ⟨-, -, -, -, -, hsched⟩ := hs
  unfold enginePlace at he
  split at he
  next e' hp =>
    obtain rfl : e' = e := by injection he
    rw [ScheduleLegal, hp] at hsched
    obtain ⟨hw, -⟩ := hsched
    refine hr.imp (⟨·, hp⟩) fun hd => ?_
    obtain hw | hw := hw <;> cases hd.unique hw
  next e' hp =>
    obtain rfl : e' = e := by injection he
    rw [ScheduleLegal, hp] at hsched
    obtain ⟨hw, -⟩ := hsched
    refine hr.imp (fun hd => ?_) (⟨·, hp⟩)
    obtain hw | hw := hw <;> cases hd.unique hw
  all_goals exact absurd he nofun

theorem Inv.busy_of_place {s : State} (hs : Inv s) {e : EnginePhase} (he : enginePlace s = some e) : busy s = true := by
  obtain ⟨-, -, hphase, -, -, -⟩ := hs
  refine eq_true_of_ne_false fun hb => ?_
  rw [enginePlace, hphase.2 hb] at he
  exact absurd he nofun

/-- At `E_ROUND` of a decryption the step leaves the engine or goes on to the words, as `RND` says. -/
theorem step_at_decryption_round {s : State} (hs : Inv s) (hr : Running .decw s ∨ Running .decrypt s)
    (he : enginePlace s = some .round) :
    ∃ t, step s = .next t ∧ enginePlace t = if s.rnd = 0 then none else some .word := by
  have hb := hs.busy_of_place he
  obtain ⟨hr, hp⟩ | ⟨hr, hp⟩ := hs.decryption_place hr he
  · rw [step_of_place hb (by simp [hp]), microStep_decw_engine hr hp]
    exact ⟨_, rfl, embedsEngine_engine.place_after_round s⟩
  · rw [step_of_place hb (by simp [hp]), microStep_decrypt_engine hr hp]
    exact ⟨_, rfl, embedsEngine_fEngine.place_after_round s⟩

/-- Settles O26: `SUM` is `RND * DELTA` at `E_ROUND`. -/
theorem exitTestsAgree : Obligations.ExitTestsAgree := by
  intro s hs hsched hr he
  obtain ⟨-, hsum, -⟩ : DecScheduled .round s := (hsched .round he).2 hr
  have hagree : s.sum = 0 ↔ s.rnd = 0 := by rw [hsum, mul_delta_eq_zero_iff]
  obtain ⟨t, hstep, hplace⟩ := step_at_decryption_round hs hr he
  refine ⟨hagree, t, hstep, ?_⟩
  rw [hplace, ne_eq, hagree]
  split <;> simp_all

end Sys2Proof.Machine

namespace Sys2Proof.Machine

/-- Settles O25: up to 52 words the table is read off row by row, and from 53 words on `52 / len` is 0. -/
theorem roundCountTable : Obligations.RoundCountTable := by
  intro len hlen
  by_cases h : len ≤ 52
  · have rows : ∀ n < 53, 1 ≤ n → 6 ≤ roundCount n ∧ roundCount n ≤ 58 ∧ roundCount n =
        if n = 1 then 58 else if n = 2 then 32 else if n = 3 then 23 else if n = 4 then 19
        else if n = 5 then 16 else if n = 6 then 14 else if n = 7 then 13 else if n = 8 then 12
        else if n ≤ 10 then 11 else if n ≤ 13 then 10 else if n ≤ 17 then 9 else if n ≤ 26 then 8
        else if n ≤ 52 then 7 else 6 := by decide
    exact rows len (by omega) hlen
  · have hq : roundCount len = 6 := by rw [roundCount, Nat.div_eq_of_lt (by omega)]
    rw [hq]
    iterate 13 rw [if_neg (by omega)]
    decide

/-! ## The rows of the step tables -/

section

variable (place : EnginePhase → Phase) (finish : State → State) {s : State}

theorem encEngineStep_round_of_ne (h : s.rnd ≠ 0) :
    encEngineStep place finish .round s = { s with sum := s.sum + delta, p := 0, phase := place .word } := if_neg h

theorem encEngineStep_round_of_eq (h : s.rnd = 0) : encEngineStep place finish .round s = finish s := if_pos h

theorem encEngineStep_word_of_lt (h : s.p.toNat < s.wlen.toNat - 1) :
    encEngineStep place finish .word s = { encUpdate s.p.toNat s with p := s.p + 1, phase := place .word } := if_pos h

theorem encEngineStep_word_of_ge (h : s.wlen.toNat - 1 ≤ s.p.toNat) :
    encEngineStep place finish .word s = { encUpdate s.p.toNat s with rnd := s.rnd - 1, phase := place .round } :=
  if_neg (by omega)

theorem decEngineStep_load :
    decEngineStep place finish .load s = { s with
      rnd := BitVec.ofNat 32 (roundCount s.wlen.toNat), sum := BitVec.ofNat 32 (roundCount s.wlen.toNat) * delta,
      y := vAt s 0, phase := place .round } := by
  show { decLoad s with phase := place .round } = _
  rw [decLoad_eq]

theorem decEngineStep_round_of_ne (h : s.rnd ≠ 0) :
    decEngineStep place finish .round s =
      { s with p := BitVec.ofNat 32 (s.wlen.toNat - 1), phase := place .word } := if_neg h

theorem decEngineStep_round_of_eq (h : s.rnd = 0) : decEngineStep place finish .round s = finish s := if_pos h

theorem decEngineStep_word_of_pos (h : 0 < s.p.toNat) :
    decEngineStep place finish .word s = { decUpdate s.p.toNat s with p := s.p - 1, phase := place .word } := if_pos h

theorem decEngineStep_word_of_zero (h : s.p.toNat = 0) :
    decEngineStep place finish .word s =
      { decUpdate s.p.toNat s with sum := s.sum - delta, rnd := s.rnd - 1, phase := place .round } :=
  if_neg (by omega)

end

end Sys2Proof.Machine

namespace Sys2Proof.Machine

/-! ## Runs of busy steps

A run is a chain of steps of one step function `f`, each from a busy state. Both cores take the step of the schedule at
every place but `RUN` (`FollowsSchedule`), so the engine's and the composite commands' runs are built once for both. -/

/-- `n` steps of `f` lead from `s` to `t`, each from a busy state. -/
inductive BusyRun (f : State → Host.Outcome State Fault Refusal) : Nat → State → State → Prop
  | refl (s : State) : BusyRun f 0 s s
  | head {n : Nat} {s u t : State} (hb : busy s = true) (hf : f s = .next u) (hrest : BusyRun f n u t) :
      BusyRun f (n + 1) s t

/-- `f` as a core of the host's interface. -/
def coreOf (f : State → Host.Outcome State Fault Refusal) : Host.Core where
  State := State
  Fault := Fault
  Refusal := Refusal
  step := f
  reset := State.reset

section

variable {f : State → Host.Outcome State Fault Refusal}

theorem BusyRun.single {s t : State} (hb : busy s = true) (hf : f s = .next t) : BusyRun f 1 s t :=
  .head hb hf (.refl t)

theorem BusyRun.trans {m n : Nat} {s u t : State} (h₁ : BusyRun f m s u) (h₂ : BusyRun f n u t) :
    BusyRun f (m + n) s t := by
  induction h₁ with
  | refl => rwa [Nat.zero_add]
  | head hb hf _ ih => exact Nat.succ_add _ _ ▸ .head hb hf (ih h₂)

/-- A run in the host's words: `n` steps of the core answer `t`, and after fewer the block is busy. -/
theorem BusyRun.run {n : Nat} {s t : State} (h : BusyRun f n s t) :
    (coreOf f).run n s = .next t ∧ ∀ j, j < n → ∃ u : State, (coreOf f).run j s = .next u ∧ busy u = true := by
  induction h with
  | refl => exact ⟨rfl, fun _ hj => absurd hj (Nat.not_lt_zero _)⟩
  | @head n s u t hb hf _ ih =>
    obtain ⟨hrun, hbusy⟩ := ih
    have hstep (j : Nat) : (coreOf f).run (j + 1) s = (coreOf f).run j u := run_succ (coreOf f) j hf
    refine ⟨(hstep n).trans hrun, fun j hj => ?_⟩
    cases j with
    | zero => exact ⟨s, rfl, hb⟩
    | succ j =>
      rw [hstep j]
      exact hbusy j (Nat.lt_of_succ_lt_succ hj)

end

/-- At every place of a schedule `f` is the schedule's step. -/
def FollowsSchedule (f : State → Host.Outcome State Fault Refusal) : Prop :=
  ∀ s, busy s = true → s.phase ≠ .run → f s = microStep s

theorem step_followsSchedule : FollowsSchedule step := fun _ hb hp => step_of_place hb hp

theorem stepFine_followsSchedule : FollowsSchedule stepFine := fun _ hb hp =>
  (stepFine_of_place hb hp).trans (step_of_place hb hp)

/-! ## A running command at a place -/

/-- The command `i` is running. -/
def BusyWith (i : Instr) (s : State) : Prop := busy s = true ∧ Running i s

theorem BusyWith.congr {i : Instr} {s t : State} (h : BusyWith i s) (hst : t.status = s.status) (hc : t.cmd = s.cmd) :
    BusyWith i t :=
  ⟨(busy_congr hst).trans h.1, (running_congr hc).2 h.2⟩

theorem BusyWith.of_wrote {i : Instr} {s t : State} (h : BusyWith i s) (hw : EngineWrote s t) : BusyWith i t :=
  h.congr hw.status hw.cmd

/-- `s` at the place `ph`. -/
def atPlace (ph : Phase) (s : State) : State := { s with phase := ph }

/-- `s` at a word update of the position `p`. -/
def atWord (ph : Phase) (p : Nat) (s : State) : State := { s with p := BitVec.ofNat 32 p, phase := ph }

/-- While the command `i` runs, `f` takes the steps of `engine` at its places. -/
def DrivesEngine (f : State → Host.Outcome State Fault Refusal) (i : Instr) (place : EnginePhase → Phase)
    (engine : EnginePhase → State → State) : Prop :=
  ∀ (s : State) (e : EnginePhase), BusyWith i s → s.phase = place e → f s = .next (engine e s)

section

variable {f : State → Host.Outcome State Fault Refusal} (hf : FollowsSchedule f)

include hf

theorem FollowsSchedule.encw : DrivesEngine f .encw .engine (encEngineStep .engine (complete .ok)) :=
  fun _ _ ⟨hb, hr⟩ hp => (hf _ hb (by simp [hp])).trans (microStep_encw_engine hr hp)

theorem FollowsSchedule.decw : DrivesEngine f .decw .engine (decEngineStep .engine (complete .ok)) :=
  fun _ _ ⟨hb, hr⟩ hp => (hf _ hb (by simp [hp])).trans (microStep_decw_engine hr hp)

theorem FollowsSchedule.encrypt : DrivesEngine f .encrypt .fEngine (encEngineStep .fEngine toUnpack) :=
  fun _ _ ⟨hb, hr⟩ hp => (hf _ hb (by simp [hp])).trans (microStep_encrypt_engine hr hp)

theorem FollowsSchedule.decrypt : DrivesEngine f .decrypt .fEngine (decEngineStep .fEngine toUnpack) :=
  fun _ _ ⟨hb, hr⟩ hp => (hf _ hb (by simp [hp])).trans (microStep_decrypt_engine hr hp)

end

/-! `SUM` and `RND` are the round's: no word update writes them. -/

theorem encPass_rnd (n : Nat) (s : State) : (forUp encUpdate n s).rnd = s.rnd :=
  forUp_keeps (f := encUpdate) State.rnd (fun _ _ => rfl) n s

theorem decPass_sum (n : Nat) (s : State) : (forDown decUpdate n s).sum = s.sum :=
  forDown_keeps (f := decUpdate) State.sum (fun _ _ => rfl) n s

theorem decPass_rnd (n : Nat) (s : State) : (forDown decUpdate n s).rnd = s.rnd :=
  forDown_keeps (f := decUpdate) State.rnd (fun _ _ => rfl) n s

/-! ## The engine's run (43_cipher_engine.md R212) -/

section

variable (place : EnginePhase → Phase) (finish : State → State)

theorem toNat_ofNat_of_lt_wlen {s : State} {k : Nat} (hk : k < s.wlen.toNat) : (BitVec.ofNat 32 k).toNat = k := by
  bv_omega

/-- The row of 43_cipher_engine.md R206 that goes on to the next word. -/
theorem encEngineStep_atWord {s : State} {k : Nat} (hk : k + 1 < s.wlen.toNat) :
    encEngineStep place finish .word (atWord (place .word) k s) = atWord (place .word) (k + 1) (encUpdate k s) := by
  have hp : (atWord (place .word) k s).p.toNat = k := toNat_ofNat_of_lt_wlen (Nat.lt_of_succ_lt hk)
  have hlt : k < (atWord (place .word) k s).wlen.toNat - 1 := Nat.lt_sub_of_add_lt hk
  rw [encEngineStep_word_of_lt _ _ (hp.trans_lt hlt), hp, atWord, atWord, BitVec.ofNat_add]
  rfl

/-- The row of R206 that ends a round. -/
theorem encEngineStep_atWord_last {s : State} {k : Nat} (hk : k + 1 = s.wlen.toNat) :
    encEngineStep place finish .word (atWord (place .word) k s) =
      { encUpdate k s with rnd := s.rnd - 1, phase := place .round } := by
  have hp : (atWord (place .word) k s).p.toNat = k := toNat_ofNat_of_lt_wlen hk.le
  have hge : (atWord (place .word) k s).wlen.toNat - 1 ≤ k := (Nat.sub_eq_of_eq_add hk.symm).le
  rw [encEngineStep_word_of_ge _ _ (hge.trans hp.ge), hp]
  rfl

/-- The row of 43_cipher_engine.md R209 that goes on to the next word. -/
theorem decEngineStep_atWord {s : State} {k : Nat} (hk : k + 1 < s.wlen.toNat) :
    decEngineStep place finish .word (atWord (place .word) (k + 1) s) =
      atWord (place .word) k (decUpdate (k + 1) s) := by
  have hp : (atWord (place .word) (k + 1) s).p.toNat = k + 1 := toNat_ofNat_of_lt_wlen hk
  have hdown : BitVec.ofNat 32 (k + 1) - 1 = BitVec.ofNat 32 k := by bv_omega
  rw [decEngineStep_word_of_pos _ _ ((Nat.succ_pos k).trans_eq hp.symm), hp, atWord, atWord, ← hdown]
  rfl

/-- The row of R209 that ends a round. -/
theorem decEngineStep_atWord_last (s : State) :
    decEngineStep place finish .word (atWord (place .word) 0 s) =
      { decUpdate 0 s with sum := s.sum - delta, rnd := s.rnd - 1, phase := place .round } :=
  decEngineStep_word_of_zero _ _ rfl

end

section

variable {f : State → Host.Outcome State Fault Refusal} {i : Instr} {place : EnginePhase → Phase}
  {finish : State → State} {engine : EnginePhase → State → State}

/-- One step of the engine from its place `e`. -/
theorem DrivesEngine.single (h : DrivesEngine f i place engine) {s : State} (hs : BusyWith i s) {e : EnginePhase}
    (hp : s.phase = place e) : BusyRun f 1 s (engine e s) := .single hs.1 (h s e hs hp)

theorem BusyWith.atPlace {s : State} (hs : BusyWith i s) (ph : Phase) : BusyWith i (atPlace ph s) := hs.congr rfl rfl

theorem BusyWith.atWord {s : State} (hs : BusyWith i s) (ph : Phase) (p : Nat) : BusyWith i (atWord ph p s) :=
  hs.congr rfl rfl

/-- The words of a round of `ENCW` before the last: positions 0 to `k - 1`. -/
theorem DrivesEngine.encWords (h : DrivesEngine f i place (encEngineStep place finish)) {s : State} (hs : BusyWith i s)
    {k : Nat} (hk : k < s.wlen.toNat) :
    BusyRun f k (atWord (place .word) 0 s) (atWord (place .word) k (forUp encUpdate k s)) := by
  induction k with
  | zero => exact .refl _
  | succ k ih =>
    have hw := encPass_wrote k s
    have hstep := h.single ((hs.of_wrote hw).atWord (place .word) k) rfl
    rw [encEngineStep_atWord place finish (by rwa [hw.wlen])] at hstep
    exact (ih (Nat.lt_of_succ_lt hk)).trans hstep

/-- A round of `ENCW` at the step level: `E_ROUND`, then one `E_WORD` for each word. -/
theorem DrivesEngine.encRound_run (h : DrivesEngine f i place (encEngineStep place finish)) {s : State}
    (hs : BusyWith i s) (hpos : 1 ≤ s.wlen.toNat) (hr : s.rnd ≠ 0) :
    BusyRun f (1 + s.wlen.toNat) (atPlace (place .round) s) (atPlace (place .round) (encRound s)) := by
  obtain ⟨n, hn⟩ : ∃ n, s.wlen.toNat = n + 1 := ⟨s.wlen.toNat - 1, by omega⟩
  have hround := h.single (hs.atPlace (place .round)) rfl
  rw [encEngineStep_round_of_ne place finish (s := atPlace (place .round) s) hr] at hround
  have hsum : BusyWith i { s with sum := s.sum + delta } := hs.congr rfl rfl
  have hwords := h.encWords hsum (k := n) (by show n < s.wlen.toNat; omega)
  have hw := encPass_wrote n { s with sum := s.sum + delta }
  have hlast := h.single ((hsum.of_wrote hw).atWord (place .word) n) rfl
  rw [encEngineStep_atWord_last place finish (by rw [hw.wlen]; exact hn.symm)] at hlast
  rw [hn, encRound_eq, hn]
  exact hround.trans (hwords.trans hlast)

/-- The words of a round of `DECW` from position `k` down, and the end of the round. -/
theorem DrivesEngine.decWords (h : DrivesEngine f i place (decEngineStep place finish)) {k : Nat} {s : State}
    (hs : BusyWith i s) (hk : k < s.wlen.toNat) :
    BusyRun f (k + 1) (atWord (place .word) k s)
      { forDown decUpdate (k + 1) s with
        sum := (forDown decUpdate (k + 1) s).sum - delta, rnd := (forDown decUpdate (k + 1) s).rnd - 1,
        phase := place .round } := by
  induction k generalizing s with
  | zero =>
    have hstep := h.single (hs.atWord (place .word) 0) rfl
    rwa [decEngineStep_atWord_last] at hstep
  | succ k ih =>
    have hw := decUpdate_wrote (k + 1) s
    have hstep := h.single (hs.atWord (place .word) (k + 1)) rfl
    rw [decEngineStep_atWord place finish hk] at hstep
    have hrest := hstep.trans (ih (hs.of_wrote hw) (by rw [hw.wlen]; omega))
    rwa [Nat.add_comm] at hrest

/-- A round of `DECW` at the step level. -/
theorem DrivesEngine.decRound_run (h : DrivesEngine f i place (decEngineStep place finish)) {s : State}
    (hs : BusyWith i s) (hpos : 1 ≤ s.wlen.toNat) (hr : s.rnd ≠ 0) :
    BusyRun f (1 + s.wlen.toNat) (atPlace (place .round) s) (atPlace (place .round) (decRound s)) := by
  obtain ⟨n, hn⟩ : ∃ n, s.wlen.toNat = n + 1 := ⟨s.wlen.toNat - 1, by omega⟩
  have hround := h.single (hs.atPlace (place .round)) rfl
  rw [decEngineStep_round_of_ne place finish (s := atPlace (place .round) s) hr] at hround
  have hwords := h.decWords hs (k := n) (by omega)
  rw [decRound_eq, hn]
  refine hround.trans ?_
  have hfirst : (atPlace (place .round) s).wlen.toNat - 1 = n := Nat.sub_eq_of_eq_add hn
  rw [hfirst]
  exact hwords

/-! Both directions alike: a load, `q` rounds, and the last `E_ROUND`. -/

/-- What the schedule of one direction does: `load` leads to `E_ROUND`, there a round of `1 + len` steps follows while
`RND` is not 0, and `finish` when it is. -/
structure RunsRounds (f : State → Host.Outcome State Fault Refusal) (place : EnginePhase → Phase)
    (finish load round : State → State) (s : State) : Prop where
  first : BusyRun f 1 (atPlace (place .load) s) (atPlace (place .round) (load s))
  rounds : ∀ t, EngineWrote s t → t.rnd ≠ 0 →
    BusyRun f (1 + s.wlen.toNat) (atPlace (place .round) t) (atPlace (place .round) (round t))
  last : ∀ t, EngineWrote s t → t.rnd = 0 →
    BusyRun f 1 (atPlace (place .round) t) (finish (atPlace (place .round) t))
  load_wrote : EngineWrote s (load s)
  round_wrote : ∀ t, EngineWrote t (round t)
  load_rnd : (load s).rnd = BitVec.ofNat 32 (roundCount s.wlen.toNat)
  round_rnd : ∀ t, (round t).rnd = t.rnd - 1

/-- After `r` rounds `RND` is `q - r`, and `r * (1 + len)` steps have been taken. -/
theorem RunsRounds.after_rounds {load round : State → State} {s : State} (h : RunsRounds f place finish load round s)
    {r : Nat} (hr : r ≤ roundCount s.wlen.toNat) :
    let t := forUp (fun _ t => round t) r (load s)
    EngineWrote s t ∧ t.rnd.toNat = roundCount s.wlen.toNat - r ∧
      BusyRun f (r * (1 + s.wlen.toNat)) (atPlace (place .round) (load s)) (atPlace (place .round) t) := by
  induction r with
  | zero =>
    refine ⟨h.load_wrote, ?_, ?_⟩
    · rw [forUp_zero, h.load_rnd, toNat_roundCount, Nat.sub_zero]
    · rw [Nat.zero_mul]
      exact .refl _
  | succ r ih =>
    obtain ⟨hw, hrnd, hrun⟩ := ih (Nat.le_of_succ_le hr)
    rw [forUp_succ]
    have hleft : (forUp (fun _ t => round t) r (load s)).rnd ≠ 0 := fun h0 => by
      have : (forUp (fun _ t => round t) r (load s)).rnd.toNat = 0 := by rw [h0]; rfl
      omega
    refine ⟨hw.trans (h.round_wrote _), ?_, ?_⟩
    · rw [h.round_rnd, toNat_sub_one hleft, hrnd]
      omega
    · rw [Nat.succ_mul]
      exact hrun.trans (h.rounds _ hw hleft)

/-- The whole schedule: `2 + q * (1 + len)` steps from `E_INIT`, in which the body is done (43_cipher_engine.md
R212). -/
theorem RunsRounds.body {load round : State → State} {s : State} (h : RunsRounds f place finish load round s) :
    BusyRun f (2 + roundCount s.wlen.toNat * (1 + s.wlen.toNat)) (atPlace (place .load) s)
      (finish (atPlace (place .round) (forUp (fun _ t => round t) (roundCount s.wlen.toNat) (load s)))) := by
  obtain ⟨hw, hrnd, hrun⟩ := h.after_rounds le_rfl
  have hzero : (forUp (fun _ t => round t) (roundCount s.wlen.toNat) (load s)).rnd = 0 :=
    BitVec.eq_of_toNat_eq (by rw [hrnd, Nat.sub_self]; rfl)
  rw [show 2 + roundCount s.wlen.toNat * (1 + s.wlen.toNat) =
    1 + (roundCount s.wlen.toNat * (1 + s.wlen.toNat) + 1) by omega]
  exact h.first.trans (hrun.trans (h.last _ hw hzero))

theorem DrivesEngine.encRuns (h : DrivesEngine f i place (encEngineStep place finish)) {s : State} (hs : BusyWith i s)
    (hpos : 1 ≤ s.wlen.toNat) : RunsRounds f place finish encLoad encRound s where
  first := h.single (hs.atPlace (place .load)) rfl
  rounds t hw hr := hw.wlen ▸ h.encRound_run (hs.of_wrote hw) (hw.wlen ▸ hpos) hr
  last t hw hr := by
    have hlast := h.single ((hs.of_wrote hw).atPlace (place .round)) rfl
    rwa [encEngineStep_round_of_eq place finish (s := atPlace (place .round) t) hr] at hlast
  load_wrote := rfl
  round_wrote := encRound_wrote
  load_rnd := rfl
  round_rnd t := (encRound_rnd t).trans (congrArg (· - 1) (encPass_rnd _ _))

theorem DrivesEngine.decRuns (h : DrivesEngine f i place (decEngineStep place finish)) {s : State} (hs : BusyWith i s)
    (hpos : 1 ≤ s.wlen.toNat) : RunsRounds f place finish decLoad decRound s where
  first := h.single (hs.atPlace (place .load)) rfl
  rounds t hw hr := hw.wlen ▸ h.decRound_run (hs.of_wrote hw) (hw.wlen ▸ hpos) hr
  last t hw hr := by
    have hlast := h.single ((hs.of_wrote hw).atPlace (place .round)) rfl
    rwa [decEngineStep_round_of_eq place finish (s := atPlace (place .round) t) hr] at hlast
  load_wrote := decLoad_wrote s
  round_wrote := decRound_wrote
  load_rnd := rfl
  round_rnd t := (decRound_rnd t).trans (congrArg (· - 1) (decPass_rnd _ _))

end

end Sys2Proof.Machine

namespace Sys2Proof.Machine

/-! ## The step tables -/

/-- The word update of `ENCW` at the position that `P` holds. -/
theorem encUpdate_p (s : State) :
    encUpdate s.p.toNat s = { setV s.p.toNat (encWord s.p.toNat s) s with
      y := vAt s (ringNext s.wlen.toNat s.p.toNat), z := encWord s.p.toNat s } := by
  rw [encUpdate_eq, BitVec.ofNat_toNat, BitVec.setWidth_eq]
  rfl

theorem decUpdate_p (s : State) :
    decUpdate s.p.toNat s = { setV s.p.toNat (decWord s.p.toNat s) s with
      z := vAt s (ringPrev s.wlen.toNat s.p.toNat), y := decWord s.p.toNat s } := by
  rw [decUpdate_eq, BitVec.ofNat_toNat, BitVec.setWidth_eq]
  rfl

theorem encWord_p (s : State) :
    encWord s.p.toNat s = vAt s s.p.toNat +
      mx s.sum (vAt s (ringNext s.wlen.toNat s.p.toNat)) s.z s.p (roundIndex s.sum) s.k := by
  rw [encWord, BitVec.ofNat_toNat, BitVec.setWidth_eq]

theorem decWord_p (s : State) :
    decWord s.p.toNat s = vAt s s.p.toNat -
      mx s.sum s.y (vAt s (ringPrev s.wlen.toNat s.p.toNat)) s.p (roundIndex s.sum) s.k := by
  rw [decWord, BitVec.ofNat_toNat, BitVec.setWidth_eq]

/-- `SUM` as 43_cipher_engine.md R186 writes it, a product of numbers modulo `2^32`. -/
theorem ofNat_mul_delta (q : Nat) : BitVec.ofNat 32 q * delta = BitVec.ofNat 32 (q * 0x9E3779B9) := by
  rw [BitVec.ofNat_mul]
  rfl

/-- Settles O29: row by row, with the word written out by `encWord`. -/
theorem encwStepTable : Obligations.EncwStepTable := by
  intro s hb hr _ len
  have row {e : EnginePhase} (hp : s.phase = .engine e) := step_followsSchedule.encw s e ⟨hb, hr⟩ hp
  refine ⟨fun hp => row hp, fun hp hrnd => ?_, fun hp hrnd => ?_, fun hp hin => ⟨fun hlt => ?_, fun heq => ?_⟩⟩
  · rw [row hp, encEngineStep_round_of_ne _ _ hrnd]
  · rw [row hp, encEngineStep_round_of_eq _ _ hrnd]
    rfl
  · rw [row hp, encEngineStep_word_of_lt _ _ hlt, encUpdate_p, encWord_p]
    rfl
  · rw [row hp, encEngineStep_word_of_ge _ _ heq.ge, encUpdate_p, encWord_p]
    rfl

/-- Settles O30: row by row, with the word written out by `decWord`. -/
theorem decwStepTable : Obligations.DecwStepTable := by
  intro s hb hr _ len
  have row {e : EnginePhase} (hp : s.phase = .engine e) := step_followsSchedule.decw s e ⟨hb, hr⟩ hp
  refine ⟨fun hp => ?_, fun hp hrnd => ?_, fun hp hrnd => ?_, fun hp hin => ⟨fun hpos => ?_, fun heq => ?_⟩⟩
  · rw [row hp, ← ofNat_mul_delta, decEngineStep_load]
    rfl
  · rw [row hp, decEngineStep_round_of_ne _ _ hrnd]
  · rw [row hp, decEngineStep_round_of_eq _ _ hrnd]
    rfl
  · rw [row hp, decEngineStep_word_of_pos _ _ hpos, decUpdate_p, decWord_p]
    rfl
  · rw [row hp, decEngineStep_word_of_zero _ _ heq, decUpdate_p, decWord_p]
    rfl

/-! ## ENCW and DECW from `E_INIT` -/

theorem atPlace_self {s : State} {ph : Phase} (h : s.phase = ph) : atPlace ph s = s := by rw [atPlace, ← h]

theorem DrivesEngine.encBody_run {f : State → Host.Outcome State Fault Refusal} {i : Instr}
    {place : EnginePhase → Phase} {finish : State → State} (h : DrivesEngine f i place (encEngineStep place finish))
    {s : State} (hs : BusyWith i s) (hpos : 1 ≤ s.wlen.toNat) :
    BusyRun f (2 + roundCount s.wlen.toNat * (1 + s.wlen.toNat)) (atPlace (place .load) s)
      (finish (atPlace (place .round) (encBody s))) := (h.encRuns hs hpos).body

theorem DrivesEngine.decBody_run {f : State → Host.Outcome State Fault Refusal} {i : Instr}
    {place : EnginePhase → Phase} {finish : State → State} (h : DrivesEngine f i place (decEngineStep place finish))
    {s : State} (hs : BusyWith i s) (hpos : 1 ≤ s.wlen.toNat) :
    BusyRun f (2 + roundCount s.wlen.toNat * (1 + s.wlen.toNat)) (atPlace (place .load) s)
      (finish (atPlace (place .round) (decBody s))) := (h.decRuns hs hpos).body

/-- Settles O31: the run of the body's rounds, ended by the completion of the last `E_ROUND`. -/
theorem engineStepsReachCommandResult : Obligations.EngineStepsReachCommandResult := by
  rintro s i (rfl | rfl) hb hr hp hpos hcap n
  · have hrun := step_followsSchedule.encw.encBody_run ⟨hb, hr⟩ hpos
    rw [atPlace_self hp] at hrun
    exact ⟨_, execEncw_of_fits ⟨hpos, hcap⟩, hrun.run⟩
  · have hrun := step_followsSchedule.decw.decBody_run ⟨hb, hr⟩ hpos
    rw [atPlace_self hp] at hrun
    exact ⟨_, execDecw_of_fits ⟨hpos, hcap⟩, hrun.run⟩

/-! ## The bodies do not see `PHASE` -/

section

variable (ph : Phase) (s : State)

theorem keyBody_atPlace : keyBody (atPlace ph s) = atPlace ph (keyBody s) :=
  forUp_rel (fun t r => t = atPlace ph r) (f := keyByte) (g := keyByte) rfl fun _ _ _ _ h => by rw [h]; rfl

theorem packWords_atPlace : packWords (atPlace ph s) = atPlace ph (packWords s) :=
  forUp_rel (fun t r => t = atPlace ph r) (f := packByte) (g := packByte)
    (forUp_rel (fun t r => t = atPlace ph r) (f := fun j t => setV j 0 t) (g := fun j t => setV j 0 t) rfl
      fun _ _ _ _ h => by rw [h]; rfl)
    fun _ _ _ _ h => by rw [h]; rfl

theorem packBody_atPlace : packBody (atPlace ph s) = atPlace ph (packBody s) :=
  congrArg (fun t : State => { t with wlen := BitVec.ofNat 32 (dataWords s) }) (packWords_atPlace ph s)

theorem packlBody_atPlace : packlBody (atPlace ph s) = atPlace ph (packlBody s) :=
  congrArg (fun t => { setV (dataWords s) s.blen t with wlen := BitVec.ofNat 32 (dataWords s + 1) })
    (packWords_atPlace ph s)

theorem unpackBytes_atPlace (n : Nat) : unpackBytes n (atPlace ph s) = atPlace ph (unpackBytes n s) :=
  congrArg (fun t : State => { t with blen := BitVec.ofNat 32 n })
    (forUp_rel (fun t r => t = atPlace ph r) (f := unpackByte) (g := unpackByte) rfl fun _ _ _ _ h => by rw [h]; rfl)

/-- Completion overwrites `PHASE`. -/
theorem complete_atPlace (e : ErrCode) : complete e (atPlace ph s) = complete e s := rfl

theorem unpacklFinish_atPlace : unpacklFinish (atPlace ph s) = unpacklFinish s := by
  show ite (lengthAccepted (bytesBeforeLength s) (embeddedLength s) = true)
    (complete .ok (unpackBytes (embeddedLength s) (atPlace ph s))) (complete .corrupt s) = _
  rw [unpackBytes_atPlace, complete_atPlace]
  rfl

/-! ## The composite commands from `F_CHECK` (44_facade_commands.md R230) -/

theorem encryptStep_fCheck : encryptStep (atPlace .fCheck s) = .next (encryptCheck s) := rfl

theorem decryptStep_fCheck : decryptStep (atPlace .fCheck s) = .next (decryptCheck s) := rfl

theorem encryptStep_fKey : encryptStep (atPlace .fKey s) = .next (atPlace .fPack (keyBody s)) := by
  show Host.Outcome.next (atPlace .fPack (keyBody (atPlace .fKey s))) = _
  rw [keyBody_atPlace]
  rfl

theorem decryptStep_fKey : decryptStep (atPlace .fKey s) = .next (atPlace .fPack (keyBody s)) := encryptStep_fKey s

theorem encryptStep_fPack : encryptStep (atPlace .fPack s) = .next (atPlace (.fEngine .load) (packlBody s)) := by
  show Host.Outcome.next (atPlace (.fEngine .load) (packlBody (atPlace .fPack s))) = _
  rw [packlBody_atPlace]
  rfl

theorem decryptStep_fPack : decryptStep (atPlace .fPack s) = .next (atPlace (.fEngine .load) (packBody s)) := by
  show Host.Outcome.next (atPlace (.fEngine .load) (packBody (atPlace .fPack s))) = _
  rw [packBody_atPlace]
  rfl

theorem encryptStep_fUnpack : encryptStep (atPlace .fUnpack s) = .next (complete .ok (unpackBody s)) := by
  show Host.Outcome.next (complete .ok (unpackBytes (4 * s.wlen.toNat) (atPlace .fUnpack s))) = _
  rw [unpackBytes_atPlace, complete_atPlace]
  rfl

theorem decryptStep_fUnpack : decryptStep (atPlace .fUnpack s) = .next (unpacklFinish s) :=
  congrArg _ (unpacklFinish_atPlace .fUnpack s)

end

section

variable {f : State → Host.Outcome State Fault Refusal} (hf : FollowsSchedule f) {s : State}

include hf

theorem FollowsSchedule.encrypt_single (hs : BusyWith .encrypt s) {ph : Phase} {t : State}
    (h : encryptStep (atPlace ph s) = .next t) (hp : ph ≠ .run) : BusyRun f 1 (atPlace ph s) t :=
  have hs' := hs.atPlace ph
  .single hs'.1 ((hf _ hs'.1 hp).trans ((microStep_encrypt hs'.2).trans h))

theorem FollowsSchedule.decrypt_single (hs : BusyWith .decrypt s) {ph : Phase} {t : State}
    (h : decryptStep (atPlace ph s) = .next t) (hp : ph ≠ .run) : BusyRun f 1 (atPlace ph s) t :=
  have hs' := hs.atPlace ph
  .single hs'.1 ((hf _ hs'.1 hp).trans ((microStep_decrypt hs'.2).trans h))

/-- `ENCRYPT` from `F_CHECK`, its tests passed: three steps to the engine, the engine's, and `F_UNPACK`. -/
theorem FollowsSchedule.encrypt_run (hs : BusyWith .encrypt s) (hfit : EncryptFits s) :
    BusyRun f (3 + (2 + roundCount (dataWords s + 1) * (1 + (dataWords s + 1))) + 1) (atPlace .fCheck s)
      (complete .ok (unpackBody (encBody (packlBody (keyBody s))))) := by
  have hkey : BusyWith .encrypt (keyBody s) := hs.congr (keyBody_status s) (keyBody_cmd s)
  have hpack : BusyWith .encrypt (packlBody (keyBody s)) := hkey.congr (packlBody_status _) (packlBody_cmd _)
  have hlen : (packlBody (keyBody s)).wlen.toNat = dataWords s + 1 := by
    rw [packlBody_wlen_toNat, dataWords_keyBody]
  have hcheck : encryptStep (atPlace .fCheck s) = .next (atPlace .fKey s) :=
    (encryptStep_fCheck s).trans (congrArg _ (encryptCheck_of_fits hfit))
  have hfront := ((hf.encrypt_single hs hcheck nofun).trans
    (hf.encrypt_single hs (encryptStep_fKey s) nofun)).trans (hf.encrypt_single hkey (encryptStep_fPack _) nofun)
  have hengine := hf.encrypt.encBody_run hpack (by omega)
  rw [hlen] at hengine
  exact (hfront.trans hengine).trans
    (hf.encrypt_single (hpack.of_wrote (encBody_wrote _)) (encryptStep_fUnpack _) nofun)

/-- `DECRYPT` from `F_CHECK`, its tests passed. -/
theorem FollowsSchedule.decrypt_run (hs : BusyWith .decrypt s) (hfit : DecryptFits s) :
    BusyRun f (3 + (2 + roundCount (s.blen.toNat / 4) * (1 + s.blen.toNat / 4)) + 1) (atPlace .fCheck s)
      (unpacklFinish (decBody (packBody (keyBody s)))) := by
  have hkey : BusyWith .decrypt (keyBody s) := hs.congr (keyBody_status s) (keyBody_cmd s)
  have hpack : BusyWith .decrypt (packBody (keyBody s)) := hkey.congr (packBody_status _) (packBody_cmd _)
  have hlen : (packBody (keyBody s)).wlen.toNat = s.blen.toNat / 4 := by
    have := s.blen.isLt
    rw [packBody_wlen, dataWords_keyBody, hfit.dataWords_eq, BitVec.toNat_ofNat, Nat.mod_eq_of_lt (by omega)]
  have hpos : 1 ≤ s.blen.toNat / 4 := by
    obtain ⟨hpos, hmod, -⟩ := hfit
    omega
  have hcheck : decryptStep (atPlace .fCheck s) = .next (atPlace .fKey s) :=
    (decryptStep_fCheck s).trans (congrArg _ (decryptCheck_of_fits hfit))
  have hfront := ((hf.decrypt_single hs hcheck nofun).trans
    (hf.decrypt_single hs (decryptStep_fKey s) nofun)).trans (hf.decrypt_single hkey (decryptStep_fPack _) nofun)
  have hengine := hf.decrypt.decBody_run hpack (hlen ▸ hpos)
  rw [hlen] at hengine
  exact (hfront.trans hengine).trans
    (hf.decrypt_single (hpack.of_wrote (decBody_wrote _)) (decryptStep_fUnpack _) nofun)

/-- A failed test of `F_CHECK` is the whole command. -/
theorem FollowsSchedule.encrypt_ended (hs : BusyWith .encrypt s) (hfit : ¬ EncryptFits s) :
    ∃ t, exec .encrypt s = .next t ∧ BusyRun f 1 (atPlace .fCheck s) t :=
  ⟨_, encryptCheck_ended hfit, hf.encrypt_single hs (encryptStep_fCheck s) nofun⟩

theorem FollowsSchedule.decrypt_ended (hs : BusyWith .decrypt s) (hfit : ¬ DecryptFits s) :
    ∃ t, exec .decrypt s = .next t ∧ BusyRun f 1 (atPlace .fCheck s) t :=
  ⟨_, decryptCheck_ended hfit, hf.decrypt_single hs (decryptStep_fCheck s) nofun⟩

end

theorem execEncrypt_of_fits {s : State} (h : EncryptFits s) :
    exec .encrypt s = .next (complete .ok (unpackBody (encBody (packlBody (keyBody s))))) := by
  obtain ⟨hpos, hcap⟩ := h
  exact (if_neg (Nat.pos_iff_ne_zero.1 hpos)).trans (if_neg (Nat.not_lt.2 hcap))

theorem execDecrypt_of_fits {s : State} (h : DecryptFits s) :
    exec .decrypt s = .next (unpacklFinish (decBody (packBody (keyBody s)))) := by
  obtain ⟨hpos, hmod, hcap⟩ := h
  exact (if_neg (Nat.pos_iff_ne_zero.1 hpos)).trans ((if_neg (not_not.2 hmod)).trans (if_neg (Nat.not_lt.2 hcap)))

/-! ## Every command from its issue, at the step level -/

/-- From `s` the step-level machine reaches the next state of `i`'s big-step rule in `n` busy steps. -/
def FineReaches (i : Instr) (s : State) (n : Nat) : Prop := ∃ t, exec i s = .next t ∧ BusyRun stepFine n s t

/-- A command with no schedule is one step. -/
theorem fineReaches_of_direct {i : Instr} {s : State} (hb : busy s = true) (h : stepFine s = exec i s) :
    FineReaches i s 1 := by
  obtain ⟨e, u, hexec, -⟩ := exec_completes i s
  exact ⟨_, hexec, .single hb (h.trans hexec)⟩

/-- The checks of `ENCW` and `DECW`, failed, are the whole command. -/
theorem enterEngine_of_not_fits (body : State → State) {s : State} (h : ¬ ArrayFits s) :
    enterEngine s = checkedEngine body s := by
  unfold ArrayFits at h
  unfold enterEngine checkedEngine
  split
  · rfl
  · rw [if_pos (by omega), if_pos (by omega)]
    rfl

/-- `ENCW` and `DECW`: the checks at issue, then the engine's steps if they pass. -/
theorem fineReaches_engine {i : Instr} {body : State → State} {s : State} (hb : busy s = true)
    (hstart : stepFine s = .next (enterEngine s)) (hexec : exec i s = .next (checkedEngine body s))
    (hrun : 1 ≤ s.wlen.toNat → BusyRun stepFine (2 + roundCount s.wlen.toNat * (1 + s.wlen.toNat))
      (atPlace (.engine .load) s) (complete .ok (body s))) :
    FineReaches i s (1 + if 1 ≤ s.wlen.toNat ∧ s.wlen.toNat ≤ s.cap.toNat then
      2 + (6 + 52 / s.wlen.toNat) * (1 + s.wlen.toNat) else 0) := by
  have hfirst : BusyRun stepFine 1 s (enterEngine s) := .single hb hstart
  refine ⟨_, hexec, ?_⟩
  split
  next hfit =>
    rw [enterEngine_of_fits hfit] at hfirst
    have hok : checkedEngine body s = complete .ok (body s) := by
      obtain ⟨hpos, hcap⟩ := hfit
      rw [checkedEngine, if_neg (by omega), if_neg (by omega)]
    rw [hok]
    exact hfirst.trans (hrun hfit.1)
  next hfit =>
    rwa [enterEngine_of_not_fits body hfit] at hfirst

/-- `ENCRYPT` and `DECRYPT`: dispatch, then the run from `F_CHECK`. -/
theorem fineReaches_composite {i : Instr} {s : State} {n : Nat} (hb : busy s = true)
    (hstart : stepFine s = .next (atPlace .fCheck s))
    (h : ∃ t, exec i s = .next t ∧ BusyRun stepFine n (atPlace .fCheck s) t) : FineReaches i s (1 + n) := by
  obtain ⟨t, hexec, hrun⟩ := h
  exact ⟨t, hexec, (BusyRun.single hb hstart).trans hrun⟩

theorem stepFine_issued {i : Instr} {s : State} (hb : busy s = true) (hp : s.phase = .run) (hr : Running i s) :
    stepFine s = match i with
      | .encw | .decw => .next (enterEngine s)
      | .encrypt | .decrypt => .next (atPlace .fCheck s)
      | .nop | .keyld | .pack | .packl | .unpack | .unpackl => exec i s := by
  rw [stepFine_of_run hb hp, startFine, show decode s.cmd = .ok i from hr]
  cases i <;> rfl

theorem startFine_of_illegal {s : State} (h : ∀ i, decode s.cmd ≠ .ok i) :
    startFine s = .next (complete .illcmd s) := by
  cases hd : decode s.cmd with
  | ok i => exact absurd hd (h i)
  | error _ => rw [startFine, hd, raise_eq_complete]

theorem busy_of_exec {i : Instr} {s t : State} (h : exec i s = .next t) : busy t = false := by
  obtain ⟨e, u, rfl, -⟩ := exec_wrote h
  exact busy_complete e u

/-- Settles O58: each command's dispatch out of `RUN`, then the run of its schedule. -/
theorem fineStepsReachCommandResult : Obligations.FineStepsReachCommandResult := by
  refine ⟨fun s hb hp h => (stepFine_of_run hb hp).trans (startFine_of_illegal h), ?_⟩
  intro s i hb hp hr engine composite n
  have hs : BusyWith i s := ⟨hb, hr⟩
  have hstart := stepFine_issued hb hp hr
  have hfine := stepFine_followsSchedule
  have hreach : FineReaches i s n := by
    cases i with
    | nop => exact fineReaches_of_direct hb hstart
    | keyld => exact fineReaches_of_direct hb hstart
    | pack => exact fineReaches_of_direct hb hstart
    | packl => exact fineReaches_of_direct hb hstart
    | unpack => exact fineReaches_of_direct hb hstart
    | unpackl => exact fineReaches_of_direct hb hstart
    | encw => exact fineReaches_engine hb hstart (exec_encw_eq s) (hfine.encw.encBody_run hs)
    | decw => exact fineReaches_engine hb hstart (exec_decw_eq s) (hfine.decw.decBody_run hs)
    | encrypt =>
      refine fineReaches_composite hb hstart ?_
      split
      next hfit => exact ⟨_, execEncrypt_of_fits hfit, hfine.encrypt_run hs hfit⟩
      next hfit => exact hfine.encrypt_ended hs hfit
    | decrypt =>
      refine fineReaches_composite hb hstart ?_
      split
      next hfit => exact ⟨_, execDecrypt_of_fits hfit, hfine.decrypt_run hs hfit⟩
      next hfit => exact hfine.decrypt_ended hs hfit
  obtain ⟨t, hexec, hrun⟩ := hreach
  refine ⟨?_, ?_, t, hexec, busy_of_exec hexec, hrun.run⟩
  · rintro (rfl | rfl) hfit <;> exact hstart.trans (congrArg _ (enterEngine_of_fits hfit))
  · rintro (rfl | rfl) <;> exact hstart

end Sys2Proof.Machine

namespace Sys2Proof.Machine

/-! ## The engine on the word array alone

While the carried neighbour is the word it stands for, a word update reads nothing but the array, `SUM` and `K`. These
are the updates, passes and rounds as functions of the array; `encRounds_encBody` and `decRounds_decBody` below tie them
to `encBody` and `decBody`. -/

/-- The `MX` of position `p`, both neighbours read from the array (43_cipher_engine.md R184, R196). -/
def neighbourMx (len : Nat) (sum : Word) (k : KeyFile) (p : Nat) (v : Nat → Word) : Word :=
  mx sum (v (ringNext len p)) (v (ringPrev len p)) (BitVec.ofNat 32 p) (roundIndex sum) k

/-- The word update of `ENCW` at position `p` (43_cipher_engine.md R183). -/
def encCell (len : Nat) (sum : Word) (k : KeyFile) (p : Nat) (v : Nat → Word) : Nat → Word :=
  Function.update v p (v p + neighbourMx len sum k p v)

/-- The word update of `DECW` at position `p` (43_cipher_engine.md R195). -/
def decCell (len : Nat) (sum : Word) (k : KeyFile) (p : Nat) (v : Nat → Word) : Nat → Word :=
  Function.update v p (v p - neighbourMx len sum k p v)

/-- The ring pass of a round of `ENCW` (43_cipher_engine.md R183). -/
def encArrayPass (len : Nat) (sum : Word) (k : KeyFile) (v : Nat → Word) : Nat → Word := forUp (encCell len sum k) len v

/-- The ring pass of a round of `DECW` (43_cipher_engine.md R195). -/
def decArrayPass (len : Nat) (sum : Word) (k : KeyFile) (v : Nat → Word) : Nat → Word :=
  forDown (decCell len sum k) len v

/-- The first `r` rounds of `ENCW`, with `SUM` by the schedule of 43_cipher_engine.md R186. -/
def encArray (len : Nat) (k : KeyFile) (r : Nat) (v : Nat → Word) : Nat → Word :=
  forUp (fun j => encArrayPass len (BitVec.ofNat 32 (j + 1) * delta) k) r v

/-- The first `r` of `q` rounds of `DECW`, with `SUM` by the schedule of 43_cipher_engine.md R198. -/
def decArray (len : Nat) (k : KeyFile) (q r : Nat) (v : Nat → Word) : Nat → Word :=
  forUp (fun j => decArrayPass len (BitVec.ofNat 32 (q - j) * delta) k) r v

/-! ### Cells above the array -/

section

variable (len : Nat) (sum : Word) (k : KeyFile) (v : Nat → Word) {j : Nat} (hj : len ≤ j)

include hj

theorem encArrayPass_above : encArrayPass len sum k v j = v j :=
  forUp_inv (fun _ (u : Nat → Word) => u j = v j) rfl fun p _ hp h => (Function.update_of_ne (by omega) ..).trans h

theorem decArrayPass_above : decArrayPass len sum k v j = v j :=
  forDown_inv (fun _ (u : Nat → Word) => u j = v j) rfl fun p _ hp h => (Function.update_of_ne (by omega) ..).trans h

theorem encArray_above (r : Nat) : encArray len k r v j = v j :=
  forUp_inv (fun _ (u : Nat → Word) => u j = v j) rfl fun _ u _ h => (encArrayPass_above len _ k u hj).trans h

theorem decArray_above (q r : Nat) : decArray len k q r v j = v j :=
  forUp_inv (fun _ (u : Nat → Word) => u j = v j) rfl fun _ u _ h => (decArrayPass_above len _ k u hj).trans h

end

/-! ### One word: both neighbours are the word itself (43_cipher_engine.md R187, R199) -/

theorem encArrayPass_one (sum : Word) (k : KeyFile) (v : Nat → Word) :
    encArrayPass 1 sum k v 0 = v 0 + mx sum (v 0) (v 0) 0 (roundIndex sum) k :=
  Function.update_self (0 : Nat) _ v

theorem decArrayPass_one (sum : Word) (k : KeyFile) (v : Nat → Word) :
    decArrayPass 1 sum k v 0 = v 0 - mx sum (v 0) (v 0) 0 (roundIndex sum) k :=
  Function.update_self (0 : Nat) _ v

theorem encArray_one (k : KeyFile) (r : Nat) (v : Nat → Word) :
    encArray 1 k r v 0 = forUp (fun j w =>
      w + mx (BitVec.ofNat 32 (j + 1) * delta) w w 0 (roundIndex (BitVec.ofNat 32 (j + 1) * delta)) k) r (v 0) := by
  induction r with
  | zero => rfl
  | succ r ih =>
    rw [forUp_succ, ← ih]
    exact encArrayPass_one _ k _

theorem decArray_one (k : KeyFile) (q r : Nat) (v : Nat → Word) :
    decArray 1 k q r v 0 = forUp (fun j w =>
      w - mx (BitVec.ofNat 32 (q - j) * delta) w w 0 (roundIndex (BitVec.ofNat 32 (q - j) * delta)) k) r (v 0) := by
  induction r with
  | zero => rfl
  | succ r ih =>
    rw [forUp_succ, ← ih]
    exact decArrayPass_one _ k _

/-! ### Two words or more: each pass undoes the other (43_cipher_engine.md R202) -/

section

variable {σ : Type} {f g : Nat → σ → σ} {n : Nat}

/-- A falling loop undoes a rising one that it undoes iteration by iteration. -/
theorem forDown_forUp_cancel (h : ∀ i < n, ∀ x, g i (f i x) = x) (x : σ) : forDown g n (forUp f n x) = x :=
  forDown_inv (fun i t => t = forUp f i x) rfl fun i _ hi ht => by rw [ht, forUp_succ, h i hi]

theorem forUp_forDown_cancel (h : ∀ i < n, ∀ x, f i (g i x) = x) (x : σ) : forUp f n (forDown g n x) = x := by
  induction n generalizing x with
  | zero => rfl
  | succ n ih =>
    rw [forUp_succ, forDown_succ, ih fun i hi => h i (Nat.lt_succ_of_lt hi)]
    exact h n (Nat.lt_succ_self n) x

/-- A rising loop whose iterations undo those of another in reverse order. -/
theorem forUp_forUp_cancel (h : ∀ i < n, ∀ x, g i (f (n - 1 - i) x) = x) (x : σ) : forUp g n (forUp f n x) = x := by
  have hleft : forUp g n (forUp f n x) = forUp f (n - n) x :=
    forUp_inv (fun i t => t = forUp f (n - i) x) rfl fun i t hi ht => by
      rw [ht, show n - i = n - 1 - i + 1 by omega, forUp_succ, h i hi, show n - 1 - i = n - (i + 1) by omega]
  rw [hleft, Nat.sub_self, forUp_zero]

end

/-- On a ring of two words or more no word is its own neighbour. -/
theorem ringNext_ne {len p : Nat} (hlen : 2 ≤ len) (hp : p < len) : ringNext len p ≠ p := by
  obtain h | h := Nat.lt_or_ge (p + 1) len
  · rw [ringNext_of_lt h]
    omega
  · rw [show p = len - 1 by omega, ringNext_last (by omega)]
    omega

theorem ringPrev_ne {len p : Nat} (hlen : 2 ≤ len) (hp : p < len) : ringPrev len p ≠ p := by
  cases p with
  | zero => rw [ringPrev_zero (by omega)]; omega
  | succ p => rw [ringPrev_succ (by omega)]; omega

section

variable {len : Nat} (hlen : 2 ≤ len) (k : KeyFile)

include hlen

/-- The `MX` of a position does not read the word of that position. -/
theorem neighbourMx_update (sum : Word) {p : Nat} (hp : p < len) (v : Nat → Word) (w : Word) :
    neighbourMx len sum k p (Function.update v p w) = neighbourMx len sum k p v := by
  rw [neighbourMx, neighbourMx, Function.update_of_ne (ringNext_ne hlen hp),
    Function.update_of_ne (ringPrev_ne hlen hp)]

theorem decCell_encCell (sum : Word) (p : Nat) (hp : p < len) (v : Nat → Word) :
    decCell len sum k p (encCell len sum k p v) = v := by
  rw [decCell, encCell, neighbourMx_update hlen k sum hp, Function.update_self, Function.update_idem,
    add_sub_cancel_right, Function.update_eq_self]

theorem encCell_decCell (sum : Word) (p : Nat) (hp : p < len) (v : Nat → Word) :
    encCell len sum k p (decCell len sum k p v) = v := by
  rw [encCell, decCell, neighbourMx_update hlen k sum hp, Function.update_self, Function.update_idem,
    sub_add_cancel, Function.update_eq_self]

theorem decArrayPass_encArrayPass (sum : Word) (v : Nat → Word) :
    decArrayPass len sum k (encArrayPass len sum k v) = v :=
  forDown_forUp_cancel (decCell_encCell hlen k sum) v

theorem encArrayPass_decArrayPass (sum : Word) (v : Nat → Word) :
    encArrayPass len sum k (decArrayPass len sum k v) = v :=
  forUp_forDown_cancel (encCell_decCell hlen k sum) v

/-- Round `j` of the one direction has the `SUM` of round `q - 1 - j` of the other. -/
theorem decArray_encArray (q : Nat) (v : Nat → Word) : decArray len k q q (encArray len k q v) = v :=
  forUp_forUp_cancel (fun i hi x => by
    rw [show q - 1 - i + 1 = q - i by omega]
    exact decArrayPass_encArrayPass hlen k _ x) v

theorem encArray_decArray (q : Nat) (v : Nat → Word) : encArray len k q (decArray len k q q v) = v :=
  forUp_forUp_cancel (fun i hi x => by
    rw [show q - (q - 1 - i) = i + 1 by omega]
    exact encArrayPass_decArrayPass hlen k _ x) v

end

end Sys2Proof.Machine

namespace Sys2Proof.Machine

/-! ## The rounds of the machine on its array -/

theorem EngineWrote.k {s t : State} (h : EngineWrote s t) : t.k = s.k := by rw [h]

/-- What a register holds that was read in the last word update, of a cell that is another one than the updated cell
where the array has two words or more: the cell's `final` word; with one word, the word `before` that update
(43_cipher_engine.md R190, R201). -/
def LastRead (len : Nat) (x final before : Word) : Prop := (2 ≤ len → x = final) ∧ (len = 1 → x = before)

theorem LastRead.of_cell {len i p : Nat} {x w : Word} {t u : State} (hu : ∀ j, j ≠ p → vAt u j = vAt t j)
    (hx : x = vAt t i) (hne : 2 ≤ len → i ≠ p) (hone : len = 1 → vAt t i = w) : LastRead len x (vAt u i) w :=
  ⟨fun h => by rw [hu i (hne h), hx], fun h => by rw [hx, hone h]⟩

theorem vAt_encUpdate_eq_encCell {p : Nat} {s : State} (hz : s.z = vAt s (ringPrev s.wlen.toNat p)) :
    vAt (encUpdate p s) = encCell s.wlen.toNat s.sum s.k p (vAt s) := by
  funext j
  rw [vAt_encUpdate, encWord, hz, encCell, Function.update_apply, neighbourMx]

theorem vAt_decUpdate_eq_decCell {p : Nat} {s : State} (hy : s.y = vAt s (ringNext s.wlen.toNat p)) :
    vAt (decUpdate p s) = decCell s.wlen.toNat s.sum s.k p (vAt s) := by
  funext j
  rw [vAt_decUpdate, decWord, hy, decCell, Function.update_apply, neighbourMx]

/-- After the updates 0 to `i - 1` of a ring pass of `ENCW` from `s`. -/
structure EncPassed (s : State) (i : Nat) (t : State) : Prop where
  wrote : EngineWrote s t
  sum : t.sum = s.sum
  array : vAt t = forUp (encCell s.wlen.toNat s.sum s.k) i (vAt s)
  carried : t.z = vAt t (ringPrev s.wlen.toNat i)
  last : 0 < i → t.p = BitVec.ofNat 32 (i - 1) ∧
    LastRead s.wlen.toNat t.y (vAt t (ringNext s.wlen.toNat (i - 1))) (vAt s 0)

theorem EncPassed.encUpdate {s t : State} {i : Nat} (h : EncPassed s i t) (hi : i < s.wlen.toNat) :
    EncPassed s (i + 1) (encUpdate i t) := by
  have hwlen := h.wrote.wlen
  have hcell := vAt_encUpdate_eq_encCell (p := i) (s := t) (by rw [hwlen]; exact h.carried)
  refine ⟨h.wrote.trans (encUpdate_wrote i t), h.sum, ?_, ?_, fun _ => ⟨rfl, ?_⟩⟩
  · rw [hcell, hwlen, h.sum, h.wrote.k, h.array, forUp_succ]
  · rw [ringPrev_succ hi]
    exact (vAt_encUpdate_same i t).symm
  · refine .of_cell (p := i) (t := t) (fun j hj => (vAt_encUpdate i j t).trans (if_neg hj)) ?_ (ringNext_ne · hi) ?_
    · rw [← hwlen]
      rfl
    · intro hone
      obtain rfl : i = 0 := by omega
      rw [h.array, Nat.zero_add, Nat.sub_self, hone]
      rfl

theorem encPassed_encPass {s : State} (hz : s.z = vAt s (s.wlen.toNat - 1)) (hpos : 1 ≤ s.wlen.toNat) :
    EncPassed s s.wlen.toNat (forUp encUpdate s.wlen.toNat s) :=
  forUp_inv (EncPassed s)
    ⟨.refl s, rfl, rfl, by rw [ringPrev_zero hpos, hz], fun h => absurd h (Nat.lt_irrefl 0)⟩
    fun _ _ hi h => h.encUpdate hi

/-- Down to position `i` in a ring pass of `DECW` from `s`: the updates `i` to `len - 1` are made. -/
structure DecPassed (s : State) (i : Nat) (t : State) : Prop where
  wrote : EngineWrote s t
  sum : t.sum = s.sum
  array : forDown (decCell s.wlen.toNat s.sum s.k) i (vAt t) = decArrayPass s.wlen.toNat s.sum s.k (vAt s)
  below : ∀ j < i, vAt t j = vAt s j
  carried : t.y = vAt t (i % s.wlen.toNat)
  last : i < s.wlen.toNat → t.p = BitVec.ofNat 32 i ∧
    LastRead s.wlen.toNat t.z (vAt t (ringPrev s.wlen.toNat i)) (vAt s 0)

theorem DecPassed.decUpdate {s t : State} {i : Nat} (h : DecPassed s (i + 1) t) (hi : i < s.wlen.toNat) :
    DecPassed s i (decUpdate i t) := by
  have hwlen := h.wrote.wlen
  have hcell := vAt_decUpdate_eq_decCell (p := i) (s := t) (by rw [hwlen]; exact h.carried)
  have hother {j : Nat} (hj : j ≠ i) : vAt (Machine.decUpdate i t) j = vAt t j :=
    (vAt_decUpdate i j t).trans (if_neg hj)
  refine ⟨h.wrote.trans (decUpdate_wrote i t), h.sum, ?_, fun j hj => ?_, ?_, fun _ => ⟨rfl, ?_⟩⟩
  · rw [hcell, hwlen, h.sum, h.wrote.k, ← h.array, forDown_succ]
  · rw [hother hj.ne, h.below j (by omega)]
  · rw [Nat.mod_eq_of_lt hi]
    exact (vAt_decUpdate_same i t).symm
  · refine .of_cell (p := i) (t := t) (fun _ => hother) ?_ (ringPrev_ne · hi) ?_
    · rw [← hwlen]
      rfl
    · intro hone
      obtain rfl : i = 0 := by omega
      rw [ringPrev_zero (by omega), hone]
      exact h.below 0 Nat.one_pos

theorem decPassed_decPass {s : State} (hy : s.y = vAt s 0) : DecPassed s 0 (forDown decUpdate s.wlen.toNat s) :=
  forDown_inv (DecPassed s)
    ⟨.refl s, rfl, rfl, fun _ _ => rfl, by rw [Nat.mod_self, hy], fun h => absurd h (Nat.lt_irrefl _)⟩
    fun _ _ hi h => h.decUpdate hi

end Sys2Proof.Machine

namespace Sys2Proof.Machine

/-- `RND` counts down by one as the rounds made count up. -/
theorem sub_ofNat_succ (q : Word) (r : Nat) : q - BitVec.ofNat 32 r - 1 = q - BitVec.ofNat 32 (r + 1) := by
  rw [BitVec.ofNat_add]
  exact sub_sub q _ 1

/-- After `r` rounds of `ENCW` on the array of `s`. -/
structure EncRounds (s : State) (r : Nat) (t : State) : Prop where
  wrote : EngineWrote s t
  sum : t.sum = BitVec.ofNat 32 r * delta
  rnd : t.rnd = BitVec.ofNat 32 (roundCount s.wlen.toNat) - BitVec.ofNat 32 r
  array : vAt t = encArray s.wlen.toNat s.k r (vAt s)
  carried : t.z = vAt t (s.wlen.toNat - 1)
  last : 0 < r → t.p = BitVec.ofNat 32 (s.wlen.toNat - 1) ∧
    LastRead s.wlen.toNat t.y (vAt t 0) (encArray s.wlen.toNat s.k (r - 1) (vAt s) 0)

/-- A ring pass with the round's `SUM`, and the count-down of `RND` after it. -/
theorem EncRounds.of_pass {s t u : State} {r : Nat} {a x : Word} (h : EncRounds s r t) (hpos : 1 ≤ s.wlen.toNat)
    (ha : a = t.sum + delta) (hx : x = t.rnd - 1) (hpass : EncPassed { t with sum := a } t.wlen.toNat u) :
    EncRounds s (r + 1) { u with rnd := x } := by
  have hwlen := h.wrote.wlen
  have hsum : a = BitVec.ofNat 32 (r + 1) * delta := by rw [ha, h.sum, ofNat_succ_mul_delta]
  have hstart : vAt { t with sum := a } = vAt t := vAt_registers t ..
  have hkeep : vAt { u with rnd := x } = vAt u := vAt_registers u ..
  obtain ⟨hwrote, husum, harray, hcarried, hlast⟩ := hpass
  obtain ⟨hp, hy⟩ := hlast (by rwa [hwlen])
  rw [hstart] at harray hy
  dsimp only at husum harray hcarried hp hy
  rw [hwlen, ringPrev_len hpos] at hcarried
  rw [hwlen, ringNext_last hpos, h.array] at hy
  rw [hwlen, hsum, h.wrote.k, h.array] at harray
  rw [hwlen] at hp
  refine ⟨(h.wrote.trans (engineWrote_sum t a)).trans (hwrote.trans rfl), husum.trans hsum, ?_, ?_, ?_, fun _ => ?_⟩
  · show x = _
    rw [hx, h.rnd, sub_ofNat_succ]
  · rw [hkeep, harray]
    rfl
  · rw [hkeep]
    exact hcarried
  · rw [hkeep]
    exact ⟨hp, hy⟩

theorem EncRounds.encRound {s t : State} {r : Nat} (h : EncRounds s r t) (hpos : 1 ≤ s.wlen.toNat) :
    EncRounds s (r + 1) (encRound t) := by
  have hwlen := h.wrote.wlen
  rw [encRound_eq]
  refine h.of_pass hpos rfl (by rw [encPass_rnd]) (encPassed_encPass ?_ (by rwa [← hwlen] at hpos))
  rw [vAt_registers, hwlen]
  exact h.carried

theorem encRounds_encLoad (s : State) : EncRounds s 0 (encLoad s) where
  wrote := rfl
  sum := (zero_mul delta).symm
  rnd := (sub_zero _).symm
  array := vAt_encLoad s
  carried := (congrFun (vAt_encLoad s) _).symm
  last h := absurd h (Nat.lt_irrefl 0)

theorem encRounds_encBody {s : State} (hpos : 1 ≤ s.wlen.toNat) :
    EncRounds s (roundCount s.wlen.toNat) (encBody s) :=
  forUp_inv (EncRounds s) (encRounds_encLoad s) fun _ _ _ h => h.encRound hpos

/-- After `r` rounds of `DECW` on the array of `s`. -/
structure DecRounds (s : State) (r : Nat) (t : State) : Prop where
  wrote : EngineWrote s t
  sum : t.sum = BitVec.ofNat 32 (roundCount s.wlen.toNat - r) * delta
  rnd : t.rnd = BitVec.ofNat 32 (roundCount s.wlen.toNat) - BitVec.ofNat 32 r
  array : vAt t = decArray s.wlen.toNat s.k (roundCount s.wlen.toNat) r (vAt s)
  carried : t.y = vAt t 0
  last : 0 < r → t.p = 0 ∧ LastRead s.wlen.toNat t.z (vAt t (s.wlen.toNat - 1))
    (decArray s.wlen.toNat s.k (roundCount s.wlen.toNat) (r - 1) (vAt s) 0)

/-- A ring pass, and the moves of `SUM` and `RND` after it. -/
theorem DecRounds.of_pass {s t u : State} {r : Nat} {a x : Word} (h : DecRounds s r t) (hpos : 1 ≤ s.wlen.toNat)
    (hr : r < roundCount s.wlen.toNat) (ha : a = t.sum - delta) (hx : x = t.rnd - 1) (hpass : DecPassed t 0 u) :
    DecRounds s (r + 1) { u with sum := a, rnd := x } := by
  have hwlen := h.wrote.wlen
  have hkeep : vAt { u with sum := a, rnd := x } = vAt u := vAt_registers u ..
  have hsum : t.sum = BitVec.ofNat 32 (roundCount s.wlen.toNat - (r + 1)) * delta + delta := by
    rw [h.sum, ← ofNat_succ_mul_delta,
      show roundCount s.wlen.toNat - (r + 1) + 1 = roundCount s.wlen.toNat - r by omega]
  obtain ⟨hwrote, -, harray, -, hcarried, hlast⟩ := hpass
  obtain ⟨hp, hz⟩ := hlast (by rwa [hwlen])
  rw [forDown_zero, hwlen, h.sum, h.wrote.k, h.array] at harray
  rw [Nat.zero_mod] at hcarried
  rw [hwlen, ringPrev_zero hpos, h.array] at hz
  refine ⟨(h.wrote.trans hwrote).trans (engineWrote_counters u a x), ?_, ?_, ?_, ?_, fun _ => ?_⟩
  · show a = _
    rw [ha, hsum, add_sub_cancel_right]
  · show x = _
    rw [hx, h.rnd, sub_ofNat_succ]
  · rw [hkeep, harray]
    rfl
  · rw [hkeep]
    exact hcarried
  · rw [hkeep]
    exact ⟨hp, hz⟩

theorem DecRounds.decRound {s t : State} {r : Nat} (h : DecRounds s r t) (hpos : 1 ≤ s.wlen.toNat)
    (hr : r < roundCount s.wlen.toNat) : DecRounds s (r + 1) (decRound t) := by
  rw [decRound_eq]
  exact h.of_pass hpos hr (by rw [decPass_sum]) (by rw [decPass_rnd]) (decPassed_decPass h.carried)

theorem decRounds_decLoad (s : State) : DecRounds s 0 (decLoad s) where
  wrote := decLoad_wrote s
  sum := rfl
  rnd := (decLoad_rnd s).trans (sub_zero _).symm
  array := vAt_decLoad s
  carried := (congrFun (vAt_decLoad s) 0).symm
  last h := absurd h (Nat.lt_irrefl 0)

theorem decRounds_decBody {s : State} (hpos : 1 ≤ s.wlen.toNat) :
    DecRounds s (roundCount s.wlen.toNat) (decBody s) :=
  forUp_inv (DecRounds s) (decRounds_decLoad s) fun _ _ hr h => h.decRound hpos hr

/-! ## The completed commands -/

/-- The completion of a body whose registers are known, with its frame. -/
theorem EngineWrote.complete_ok {s t : State} (h : EngineWrote s t) {a r p y z : Word} (ha : t.sum = a) (hr : t.rnd = r)
    (hp : t.p = p) (hy : t.y = y) (hz : t.z = z) :
    complete .ok t =
      { s with v := t.v, sum := a, rnd := r, p := p, y := y, z := z, status := 0x2, phase := .idle } := by
  subst ha hr hp hy hz
  exact congrArg (complete .ok) h

theorem exec_encw_of_empty {s : State} (h : s.wlen.toNat = 0) : exec .encw s = .next (complete .zerolen s) := if_pos h

theorem exec_decw_of_empty {s : State} (h : s.wlen.toNat = 0) : exec .decw s = .next (complete .zerolen s) := if_pos h

theorem exec_encw_of_exceeds {s : State} (hpos : 1 ≤ s.wlen.toNat) (h : s.cap.toNat < s.wlen.toNat) :
    exec .encw s = .next (complete .capacity s) := (if_neg (Nat.pos_iff_ne_zero.1 hpos)).trans (if_pos h)

theorem exec_decw_of_exceeds {s : State} (hpos : 1 ≤ s.wlen.toNat) (h : s.cap.toNat < s.wlen.toNat) :
    exec .decw s = .next (complete .capacity s) := (if_neg (Nat.pos_iff_ne_zero.1 hpos)).trans (if_pos h)

/-- Settles O27: the two tests, then what `q` rounds leave. -/
theorem encwLeavesEngineRegisters : Obligations.EncwLeavesEngineRegisters := by
  refine ⟨decode_encode .encw, fun s => ⟨exec_encw_of_empty, exec_encw_of_exceeds, fun hpos hcap => ?_⟩⟩
  have h := encRounds_encBody hpos
  obtain ⟨hp, hylong, hyone⟩ := h.last (roundCount_pos _)
  refine ⟨_, execEncw_of_fits ⟨hpos, hcap⟩, ?_, fun j hj => ?_, hylong, fun hone => ⟨?_, ?_⟩⟩
  · exact h.wrote.complete_ok (h.sum.trans (ofNat_mul_delta _)) (h.rnd.trans (sub_self _)) hp rfl h.carried
  · exact (congrFun h.array j).trans (encArray_above _ s.k _ hj _)
  · refine (hyone hone).trans ?_
    rw [hone]
    exact encArray_one s.k 57 (vAt s)
  · refine (congrFun h.array 0).trans ?_
    rw [hone]
    exact encArray_one s.k 58 (vAt s)

/-- Settles O28: the two tests, then what `q` rounds leave. -/
theorem decwLeavesEngineRegisters : Obligations.DecwLeavesEngineRegisters := by
  refine ⟨decode_encode .decw, fun s => ⟨exec_decw_of_empty, exec_decw_of_exceeds, fun hpos hcap => ?_⟩⟩
  have h := decRounds_decBody hpos
  obtain ⟨hp, hzlong, hzone⟩ := h.last (roundCount_pos _)
  have hsum : (decBody s).sum = 0 := by
    rw [h.sum, Nat.sub_self]
    exact zero_mul delta
  refine ⟨_, execDecw_of_fits ⟨hpos, hcap⟩, ?_, fun j hj => ?_, hzlong, fun hone => ⟨?_, ?_⟩⟩
  · exact h.wrote.complete_ok hsum (h.rnd.trans (sub_self _)) hp h.carried rfl
  · exact (congrFun h.array j).trans (decArray_above _ s.k _ hj _ _)
  · refine (hzone hone).trans ?_
    rw [hone]
    exact decArray_one s.k 58 57 (vAt s)
  · refine (congrFun h.array 0).trans ?_
    rw [hone]
    exact decArray_one s.k 58 58 (vAt s)

/-- `DECW` after `ENCW`, on the array alone. -/
theorem vAt_decBody_encBody {s : State} (hlen : 2 ≤ s.wlen.toNat) :
    vAt (decBody (complete .ok (encBody s))) = vAt s := by
  have h₁ := encRounds_encBody (s := s) (by omega)
  have hwlen : (complete .ok (encBody s)).wlen = s.wlen := h₁.wrote.wlen
  have h₂ := decRounds_decBody (s := complete .ok (encBody s)) (by rw [hwlen]; omega)
  rw [h₂.array, hwlen, show (complete .ok (encBody s)).k = s.k from h₁.wrote.k,
    show vAt (complete .ok (encBody s)) = _ from h₁.array, decArray_encArray hlen]

/-- `ENCW` after `DECW`. -/
theorem vAt_encBody_decBody {s : State} (hlen : 2 ≤ s.wlen.toNat) :
    vAt (encBody (complete .ok (decBody s))) = vAt s := by
  have h₁ := decRounds_decBody (s := s) (by omega)
  have hwlen : (complete .ok (decBody s)).wlen = s.wlen := h₁.wrote.wlen
  have h₂ := encRounds_encBody (s := complete .ok (decBody s)) (by rw [hwlen]; omega)
  rw [h₂.array, hwlen, show (complete .ok (decBody s)).k = s.k from h₁.wrote.k,
    show vAt (complete .ok (decBody s)) = _ from h₁.array, encArray_decArray hlen]

/-- The engine's commands change neither `WLEN` nor `CAP`, so the array still fits. -/
theorem ArrayFits.completed {s t : State} (h : ArrayFits s) (hw : EngineWrote s t) : ArrayFits (complete .ok t) :=
  show ArrayFits t from h.of_wrote hw

/-- The one-word array [0] under the zero key. -/
def oneZeroWord : State := { State.reset with k := ⟨0, 0, 0, 0⟩, cap := 2, v := [(0, 0)], wlen := 1 }

/-- Settles O33: for two words or more the rounds undo each other; the one-word array is the counter-example of
43_cipher_engine.md R202. -/
theorem encwAndDecwAreInverse : Obligations.EncwAndDecwAreInverse := by
  refine ⟨fun s hlen hcap => ⟨?_, ?_⟩, ?_⟩
  · have hfit : ArrayFits s := ⟨by omega, hcap⟩
    exact ⟨_, _, execEncw_of_fits hfit, execDecw_of_fits (hfit.completed (encBody_wrote s)),
      congrFun (vAt_decBody_encBody hlen)⟩
  · have hfit : ArrayFits s := ⟨by omega, hcap⟩
    exact ⟨_, _, execDecw_of_fits hfit, execEncw_of_fits (hfit.completed (decBody_wrote s)),
      congrFun (vAt_encBody_decBody hlen)⟩
  · have hfit : ArrayFits oneZeroWord := by
      unfold ArrayFits
      decide
    refine ⟨oneZeroWord, _, _, rfl, rfl, rfl, execEncw_of_fits hfit, ?_,
      execDecw_of_fits (hfit.completed (encBody_wrote _)), ?_⟩ <;> decide +kernel

end Sys2Proof.Machine

namespace Sys2Proof.Machine

/-! ## What ends a composite command before its bodies (44_facade_commands.md R223, R226, R221, R225) -/

theorem exec_encrypt_of_empty {s : State} (h : s.blen.toNat = 0) : exec .encrypt s = .next (complete .ok s) := if_pos h

theorem exec_encrypt_of_exceeds {s : State} (hpos : s.blen.toNat ≠ 0) (h : s.cap.toNat < dataWords s + 1) :
    exec .encrypt s = .next (complete .capacity s) := (if_neg hpos).trans (if_pos h)

theorem exec_decrypt_of_empty {s : State} (h : s.blen.toNat = 0) : exec .decrypt s = .next (complete .ok s) := if_pos h

theorem exec_decrypt_of_misshapen {s : State} (hpos : s.blen.toNat ≠ 0) (h : s.blen.toNat % 4 ≠ 0) :
    exec .decrypt s = .next (complete .shape s) := (if_neg hpos).trans (if_pos h)

theorem exec_decrypt_of_exceeds {s : State} (hpos : s.blen.toNat ≠ 0) (hmod : s.blen.toNat % 4 = 0)
    (h : s.cap.toNat < s.blen.toNat / 4) : exec .decrypt s = .next (complete .capacity s) :=
  (if_neg hpos).trans ((if_neg (not_not.2 hmod)).trans (if_pos h))

theorem blen_toNat_ne_zero {s : State} (h : s.blen ≠ 0) : s.blen.toNat ≠ 0 := by bv_omega

theorem blen_toNat_eq_zero {s : State} (h : s.blen = 0) : s.blen.toNat = 0 := congrArg BitVec.toNat h

/-- Settles O36: both commands test `BLEN` = 0 first. -/
theorem emptyBufferIsIdentity : Obligations.EmptyBufferIsIdentity := by
  rintro s i (rfl | rfl) hempty
  · exact exec_encrypt_of_empty (blen_toNat_eq_zero hempty)
  · exact exec_decrypt_of_empty (blen_toNat_eq_zero hempty)

/-- Settles O13: `NOP` has no body, alone or behind its issue. -/
theorem nopChangesOnlyStatus : Obligations.NopChangesOnlyStatus := by
  refine ⟨decode_encode .nop, fun s => ⟨rfl, fun hb => ⟨_, writeReg_cmd_of_idle hb 0, ?_⟩⟩⟩
  rw [step_issue, runIssued_of_decode (s := issue 0 s) (decode_encode .nop)]
  rfl

/-! ## `SHAPE` (44_facade_commands.md R226) -/

theorem complete_status_ne {e f : ErrCode} (h : e ≠ f) (s : State) : (complete e s).status ≠ completedStatus f :=
  fun heq => h (completedStatus_injective heq)

/-- `UNPACKL`'s length check ends in `OK` or `CORRUPT` (40_word_packer.md R137). -/
theorem unpacklFinish_status_ne_shape (s : State) : (unpacklFinish s).status ≠ completedStatus .shape := by
  unfold unpacklFinish
  split
  · exact complete_status_ne (by decide) _
  · exact complete_status_ne (by decide) _

theorem exec_pack_status_ne_shape (s : State) :
    ∃ t, exec .pack s = .next t ∧ t.status ≠ completedStatus .shape := by
  obtain h | h := Nat.lt_or_ge s.cap.toNat (dataWords s)
  · exact ⟨_, exec_pack_of_exceeds h, complete_status_ne (by decide) _⟩
  · exact ⟨_, exec_pack_of_fits h, complete_status_ne (by decide) _⟩

theorem exec_decrypt_status_ne_shape {s : State} (h : s.blen.toNat = 0 ∨ s.blen.toNat % 4 = 0) :
    ∃ t, exec .decrypt s = .next t ∧ t.status ≠ completedStatus .shape := by
  by_cases hempty : s.blen.toNat = 0
  · exact ⟨_, exec_decrypt_of_empty hempty, complete_status_ne (by decide) _⟩
  have hmod : s.blen.toNat % 4 = 0 := h.resolve_left hempty
  obtain hcap | hcap := Nat.lt_or_ge s.cap.toNat (s.blen.toNat / 4)
  · exact ⟨_, exec_decrypt_of_exceeds hempty hmod hcap, complete_status_ne (by decide) _⟩
  · exact ⟨_, execDecrypt_of_fits ⟨Nat.pos_of_ne_zero hempty, hmod, hcap⟩, unpacklFinish_status_ne_shape _⟩

/-- A command answers one next state. -/
theorem exec_next_unique {i : Instr} {s t u : State} (ht : exec i s = .next t) (hu : exec i s = .next u) : t = u := by
  rw [ht] at hu
  injection hu

/-- Settles O37: `SHAPE` is the second test of `DECRYPT`, and no other end of it or of `PACK` has that code. -/
theorem decryptRejectsBadShape : Obligations.DecryptRejectsBadShape := by
  refine fun s => ⟨fun hne => exec_decrypt_of_misshapen (blen_toNat_ne_zero hne), fun t ht hshape => ?_,
    fun t ht hshape => ?_⟩
  · by_contra hfine
    obtain ⟨u, hu, hcode⟩ := exec_decrypt_status_ne_shape (s := s) (by bv_omega)
    obtain rfl := exec_next_unique ht hu
    exact hcode hshape
  · obtain ⟨u, hu, hcode⟩ := exec_pack_status_ne_shape s
    obtain rfl := exec_next_unique ht hu
    exact hcode hshape

/-! ## The composite commands at the step level (44_facade_commands.md R230) -/

theorem BusyRun.step_of_one {f : State → Host.Outcome State Fault Refusal} {s t : State} (h : BusyRun f 1 s t) :
    f s = .next t := by
  cases h with
  | head _ hf hrest =>
    cases hrest
    exact hf

/-- Settles O32: a failed test of `F_CHECK` is the command's end, and passed tests lead through the bodies. -/
theorem compositeStepsReachCommandResult : Obligations.CompositeStepsReachCommandResult := by
  intro s i hb hr hp
  have hplace : atPlace .fCheck s = s := atPlace_self hp
  have hfollows := step_followsSchedule
  constructor
  · intro hfail
    have hended : ∃ t, exec i s = .next t ∧ BusyRun step 1 s t := by
      rw [← hplace]
      obtain ⟨rfl, hfit⟩ | ⟨rfl, hfit⟩ := hfail
      · exact hfollows.encrypt_ended ⟨hb, hr⟩ hfit
      · exact hfollows.decrypt_ended ⟨hb, hr⟩ hfit
    obtain ⟨t, hexec, hrun⟩ := hended
    exact ⟨t, hexec, hrun.step_of_one, busy_of_exec hexec⟩
  · rintro len (⟨rfl, hfit, rfl⟩ | ⟨rfl, hfit, rfl⟩) n
    · have hrun := hfollows.encrypt_run ⟨hb, hr⟩ hfit
      rw [hplace] at hrun
      exact ⟨_, execEncrypt_of_fits hfit, hrun.run⟩
    · have hrun := hfollows.decrypt_run ⟨hb, hr⟩ hfit
      rw [hplace] at hrun
      exact ⟨_, execDecrypt_of_fits hfit, hrun.run⟩

end Sys2Proof.Machine

namespace Sys2Proof.Machine

/-! ## What the bodies of the packer and the engine do not see

`CMD`, `STATUS`, `PHASE`, `KBUF` and `KLEN` are read by no body but the key loader's, which reads the last two, and
written by none (30_encoding.md R94). So a body of a composite command does what it does in a command of its own. -/

/-- `s` with the control registers and the key buffer of `d`. -/
def withControl (d s : State) : State :=
  { s with cmd := d.cmd, status := d.status, phase := d.phase, kbuf := d.kbuf, klen := d.klen }

/-- The body `f` neither reads nor writes the control registers and the key buffer. -/
def Blind (f : State → State) : Prop := ∀ d s, f (withControl d s) = withControl d (f s)

theorem Blind.forUp {f : Nat → State → State} (hf : ∀ i, Blind (f i)) (n : Nat) : Blind (forUp f n) := fun d s =>
  forUp_rel (fun t r => t = withControl d r) (s := withControl d s) rfl fun i _ r _ h => by rw [h, hf i d r]

theorem Blind.forDown {f : Nat → State → State} (hf : ∀ i, Blind (f i)) (n : Nat) : Blind (forDown f n) := fun d s =>
  forDown_rel (fun t r => t = withControl d r) (s := withControl d s) rfl fun i _ r _ h => by rw [h, hf i d r]

theorem blind_packWords : Blind packWords := fun d s => by
  have hclear : Blind (forUp (fun j t => setV j 0 t) (dataWords s)) := .forUp (fun _ _ _ => rfl) _
  have hbytes : Blind (forUp packByte s.blen.toNat) := .forUp (fun _ _ _ => rfl) _
  exact (congrArg _ (hclear d s)).trans (hbytes d _)

theorem blind_packBody : Blind packBody := fun d s =>
  congrArg (fun t : State => { t with wlen := BitVec.ofNat 32 (dataWords s) }) (blind_packWords d s)

theorem blind_packlBody : Blind packlBody := fun d s =>
  congrArg (fun t => { setV (dataWords s) s.blen t with wlen := BitVec.ofNat 32 (dataWords s + 1) })
    (blind_packWords d s)

theorem blind_unpackBytes (n : Nat) : Blind (unpackBytes n) := fun d s =>
  congrArg (fun t : State => { t with blen := BitVec.ofNat 32 n })
    (Blind.forUp (f := unpackByte) (fun _ _ _ => rfl) n d s)

theorem blind_unpackBody : Blind unpackBody := fun d s => blind_unpackBytes _ d s

theorem blind_encRound : Blind encRound := fun d s =>
  congrArg (fun t : State => { t with rnd := t.rnd - 1 })
    (Blind.forUp (f := encUpdate) (fun _ _ _ => rfl) _ d { s with sum := s.sum + delta })

theorem blind_decRound : Blind decRound := fun d s =>
  congrArg (fun t : State => { t with sum := t.sum - delta, rnd := t.rnd - 1 })
    (Blind.forDown (f := decUpdate) (fun _ _ _ => rfl) _ d s)

theorem blind_encBody : Blind encBody := fun d s =>
  Blind.forUp (fun _ => blind_encRound) (roundCount s.wlen.toNat) d (encLoad s)

theorem blind_decBody : Blind decBody := fun d s =>
  Blind.forUp (fun _ => blind_decRound) (roundCount s.wlen.toNat) d (decLoad s)

/-- The body `f` reads the key buffer at most for the key words it holds (41_key_loader.md R151). -/
def KeyBlind (f : State → State) : Prop :=
  ∀ d s, keyWords (withControl d s) = keyWords s → f (withControl d s) = withControl d (f s)

theorem Blind.keyBlind {f : State → State} (hf : Blind f) : KeyBlind f := fun d s _ => hf d s

/-- The key loader in closed form (41_key_loader.md R151). -/
theorem keyBody_eq (s : State) : keyBody s = { s with k := keyWords s } := by
  rw [← keyBody_k, ← keyBody_frame]

theorem keyBlind_keyBody : KeyBlind keyBody := fun d s h => by
  rw [keyBody_eq, h, keyBody_eq s]
  rfl

theorem KeyBlind.then_blind {f g : State → State} (hf : KeyBlind f) (hg : Blind g) : KeyBlind fun s => g (f s) :=
  fun d s h => (congrArg g (hf d s h)).trans (hg d (f s))

/-- `ENCRYPT` up to `UNPACK`'s body: the word array holds the ciphertext (44_facade_commands.md R221). -/
def encryptedArray (s : State) : State := encBody (packlBody (keyBody s))

/-- `DECRYPT` up to `UNPACKL`'s length check: the word array holds the plaintext (44_facade_commands.md R225). -/
def decryptedArray (s : State) : State := decBody (packBody (keyBody s))

theorem keyBlind_encryptedArray : KeyBlind encryptedArray :=
  (keyBlind_keyBody.then_blind blind_packlBody).then_blind blind_encBody

theorem keyBlind_decryptedArray : KeyBlind decryptedArray :=
  (keyBlind_keyBody.then_blind blind_packBody).then_blind blind_decBody

/-! ## The completions of the bodies

A completion overwrites `STATUS` and `PHASE`, so of the control registers only `CMD` is left to differ. -/

/-- The completed state `t` with the command word and the key buffer of `d`. -/
def withOperands (d t : State) : State := { t with cmd := d.cmd, kbuf := d.kbuf, klen := d.klen }

/-- What `g` completes depends on the control registers and the key buffer through the key words alone. -/
def CompletesBlind (g : State → State) : Prop :=
  ∀ d s, keyWords (withControl d s) = keyWords s → g (withControl d s) = withOperands d (g s)

theorem KeyBlind.complete {f : State → State} (hf : KeyBlind f) : CompletesBlind fun s => complete .ok (f s) :=
  fun d s h => congrArg (Machine.complete .ok) (hf d s h)

theorem unpacklFinish_withControl (d s : State) :
    unpacklFinish (withControl d s) = withOperands d (unpacklFinish s) := by
  show ite (lengthAccepted (bytesBeforeLength s) (embeddedLength s) = true)
    (complete .ok (unpackBytes (embeddedLength s) (withControl d s))) (complete .corrupt (withControl d s)) = _
  rw [blind_unpackBytes]
  unfold unpacklFinish
  split <;> rfl

theorem completesBlind_unpacklFinish : CompletesBlind unpacklFinish := fun d s _ => unpacklFinish_withControl d s

theorem KeyBlind.unpacklFinish {f : State → State} (hf : KeyBlind f) : CompletesBlind fun s => unpacklFinish (f s) :=
  fun d s h => (congrArg Machine.unpacklFinish (hf d s h)).trans (unpacklFinish_withControl d (f s))

section

variable {g : State → State} (hg : CompletesBlind g) (s : State)

include hg

/-- With the registers of `s` itself, that is a frame. -/
theorem CompletesBlind.frame : g s = withOperands s (g s) := hg s s rfl

theorem CompletesBlind.of_complete (e : ErrCode) : g (complete e s) = g s :=
  (hg (complete e s) s rfl).trans (hg.frame s).symm

theorem CompletesBlind.of_issue (w : Word) : g (issue w s) = { g s with cmd := w } :=
  (hg (issue w s) s rfl).trans (congrArg (fun t : State => { t with cmd := w }) (hg.frame s)).symm

theorem CompletesBlind.of_key {kb : Memory Byte} {kl : Word}
    (h : keyWords { s with kbuf := kb, klen := kl } = keyWords s) :
    g { s with kbuf := kb, klen := kl } = { g s with kbuf := kb, klen := kl } :=
  (hg { s with kbuf := kb, klen := kl } s h).trans
    (congrArg (fun t : State => { t with kbuf := kb, klen := kl }) (hg.frame s)).symm

end

/-- What `ENCRYPT` completes when its tests have passed (44_facade_commands.md R221). -/
def encrypted (s : State) : State := complete .ok (unpackBody (encryptedArray s))

/-- What `DECRYPT` completes when its tests have passed (44_facade_commands.md R225). -/
def decrypted (s : State) : State := unpacklFinish (decryptedArray s)

theorem completesBlind_encrypted : CompletesBlind encrypted :=
  (keyBlind_encryptedArray.then_blind blind_unpackBody).complete

theorem completesBlind_decrypted : CompletesBlind decrypted := keyBlind_decryptedArray.unpacklFinish

theorem exec_encrypt_of_fits {s : State} (h : EncryptFits s) : exec .encrypt s = .next (encrypted s) :=
  execEncrypt_of_fits h

theorem exec_decrypt_of_fits {s : State} (h : DecryptFits s) : exec .decrypt s = .next (decrypted s) :=
  execDecrypt_of_fits h

/-! ## The same key -/

section

variable {s : State} {kb : Memory Byte} {kl : Word} (h : keyWords { s with kbuf := kb, klen := kl } = keyWords s)

include h

theorem exec_encrypt_of_sameKey : ∃ t, exec .encrypt s = .next t ∧
    exec .encrypt { s with kbuf := kb, klen := kl } = .next { t with kbuf := kb, klen := kl } := by
  by_cases hempty : s.blen.toNat = 0
  · exact ⟨_, exec_encrypt_of_empty hempty, exec_encrypt_of_empty hempty⟩
  obtain hcap | hcap := Nat.lt_or_ge s.cap.toNat (dataWords s + 1)
  · exact ⟨_, exec_encrypt_of_exceeds hempty hcap, exec_encrypt_of_exceeds hempty hcap⟩
  · have hfit : EncryptFits s := ⟨Nat.pos_of_ne_zero hempty, hcap⟩
    exact ⟨_, exec_encrypt_of_fits hfit, (exec_encrypt_of_fits (s := { s with kbuf := kb, klen := kl }) hfit).trans
      (congrArg _ (completesBlind_encrypted.of_key s h))⟩

theorem exec_decrypt_of_sameKey : ∃ t, exec .decrypt s = .next t ∧
    exec .decrypt { s with kbuf := kb, klen := kl } = .next { t with kbuf := kb, klen := kl } := by
  by_cases hempty : s.blen.toNat = 0
  · exact ⟨_, exec_decrypt_of_empty hempty, exec_decrypt_of_empty hempty⟩
  by_cases hmod : s.blen.toNat % 4 = 0
  swap
  · exact ⟨_, exec_decrypt_of_misshapen hempty hmod, exec_decrypt_of_misshapen hempty hmod⟩
  obtain hcap | hcap := Nat.lt_or_ge s.cap.toNat (s.blen.toNat / 4)
  · exact ⟨_, exec_decrypt_of_exceeds hempty hmod hcap, exec_decrypt_of_exceeds hempty hmod hcap⟩
  · have hfit : DecryptFits s := ⟨Nat.pos_of_ne_zero hempty, hmod, hcap⟩
    exact ⟨_, exec_decrypt_of_fits hfit, (exec_decrypt_of_fits (s := { s with kbuf := kb, klen := kl }) hfit).trans
      (congrArg _ (completesBlind_decrypted.of_key s h))⟩

end

/-- Settles O44: the key loader alone reads `KBUF` and `KLEN`, and what it reads of them is the key words. -/
theorem keysWithSameWordsAreSameKey : Obligations.KeysWithSameWordsAreSameKey := by
  rintro s i kb kl (rfl | rfl) h
  · exact exec_encrypt_of_sameKey h
  · exact exec_decrypt_of_sameKey h

end Sys2Proof.Machine

namespace Sys2Proof.Machine

/-! ## The inner checks (44_facade_commands.md R221, R225) -/

/-- `WLEN` after `PACK` is a number of words, whatever `CAP` holds. -/
theorem packBody_wlen_toNat (s : State) : (packBody s).wlen.toNat = dataWords s := by
  have := dataWords_le s
  rw [packBody_wlen, BitVec.toNat_ofNat, Nat.mod_eq_of_lt (by omega)]

/-- After `ENCRYPT`'s own test the checks of `PACKL`, `ENCW` and `UNPACK` pass. -/
theorem EncryptFits.checks {s : State} (h : EncryptFits s) :
    dataWords (keyBody s) + 1 ≤ (keyBody s).cap.toNat ∧ ArrayFits (packlBody (keyBody s)) ∧
      (encryptedArray s).wlen.toNat ≤ (encryptedArray s).cap.toNat := by
  obtain ⟨-, hcap⟩ := h.after_key
  have hpacked : ArrayFits (packlBody (keyBody s)) := by
    rw [ArrayFits, packlBody_wlen_toNat, packlBody_cap]
    exact ⟨Nat.succ_pos _, hcap⟩
  exact ⟨hcap, hpacked, (hpacked.of_wrote (encBody_wrote _)).2⟩

/-- After `DECRYPT`'s own tests the checks of `PACK` and `DECW` and the first ones of `UNPACKL` pass. -/
theorem DecryptFits.checks {s : State} (h : DecryptFits s) :
    dataWords (keyBody s) ≤ (keyBody s).cap.toNat ∧ ArrayFits (packBody (keyBody s)) ∧
      ArrayFits (decryptedArray s) := by
  have hwords := h.after_key.dataWords_eq
  obtain ⟨hpos, hmod, hcap⟩ := h.after_key
  have hpacked : ArrayFits (packBody (keyBody s)) := by
    rw [ArrayFits, packBody_wlen_toNat, packBody_cap, hwords]
    omega
  exact ⟨by omega, hpacked, hpacked.of_wrote (decBody_wrote _)⟩

/-! ## The composite commands as host scripts (44_facade_commands.md R222, R227) -/

/-- One completed script after another. -/
theorem runScript_append {p q : List HostAction} {s t u : State} {vals vals' : List HostValue}
    (hp : runScript p s = .next (t, vals)) (hq : runScript q t = .next (u, vals')) :
    runScript (p ++ q) s = .next (u, vals ++ vals') := by
  induction p generalizing s vals with
  | nil =>
    cases hp
    exact hq
  | cons a rest ih =>
    obtain ⟨⟨r, v⟩, ha, hp⟩ := andThen_eq_next hp
    obtain ⟨⟨r', vals₁⟩, hrest, hp⟩ := andThen_eq_next hp
    cases hp
    rw [List.cons_append, runScript_cons ha, ih hrest, andThen_next, List.cons_append]

/-- From `s` the script `p` completes and leaves `t`. -/
def ScriptLeaves (p : List HostAction) (s t : State) : Prop := ∃ vals, runScript p s = .next (t, vals)

theorem ScriptLeaves.append {p q : List HostAction} {s t u : State} (hp : ScriptLeaves p s t)
    (hq : ScriptLeaves q t u) : ScriptLeaves (p ++ q) s u := by
  obtain ⟨vals, hp⟩ := hp
  obtain ⟨vals', hq⟩ := hq
  exact ⟨_, runScript_append hp hq⟩

/-- `RUN` of a command whose outcome from the issued state is known. -/
theorem scriptLeaves_runCommand {i : Instr} {s t : State} (hb : busy s = false)
    (h : exec i (issue (encode i) s) = .next t) : ScriptLeaves (runCommand i) s t := by
  obtain ⟨u, hexec, hrun⟩ := runCommandRunsIt s i hb
  rw [← issuedStatus_eq] at hexec
  obtain rfl : u = t := exec_next_unique hexec h
  exact ⟨_, hrun⟩

/-- `RUN` of a command that completes with `g`: the issue shows in `CMD` alone. -/
theorem CompletesBlind.scriptLeaves {g : State → State} (hg : CompletesBlind g) {i : Instr} {s : State}
    (hb : busy s = false) (h : exec i (issue (encode i) s) = .next (g (issue (encode i) s))) :
    ScriptLeaves (runCommand i) s { g s with cmd := encode i } := by
  rw [hg.of_issue] at h
  exact scriptLeaves_runCommand hb h

/-- The same behind another `RUN`, which completed the data of `x` and left its own word in `CMD`. -/
theorem CompletesBlind.scriptLeaves_next {g : State → State} (hg : CompletesBlind g) {i : Instr} {x : State}
    (h : exec i (issue (encode i) x) = .next (g (issue (encode i) x))) (w : Word) :
    ScriptLeaves (runCommand i) { complete .ok x with cmd := w } { g x with cmd := encode i } := by
  rw [hg.of_issue] at h
  exact scriptLeaves_runCommand (busy_complete .ok x) h

/-- `RUN ENCRYPT` and the script leave the same completed bodies, each with its last word in `CMD`. -/
theorem encrypt_scripts {s : State} (hb : busy s = false) (h : EncryptFits s) :
    ScriptLeaves (runCommand .encrypt) s { encrypted s with cmd := 0x00000006 } ∧
    ScriptLeaves (runCommand .keyld ++ runCommand .packl ++ runCommand .encw ++ runCommand .unpack) s
      { encrypted s with cmd := 0x00000003 } := by
  obtain ⟨hpackl, hencw, hunpack⟩ := h.checks
  constructor
  · exact completesBlind_encrypted.scriptLeaves hb (exec_encrypt_of_fits h)
  · have key := keyBlind_keyBody.complete.scriptLeaves (i := .keyld) hb rfl
    have pack := blind_packlBody.keyBlind.complete.scriptLeaves_next (i := .packl)
      (exec_packl_of_fits (s := issue _ (keyBody s)) hpackl) (encode .keyld)
    have enc := blind_encBody.keyBlind.complete.scriptLeaves_next (i := .encw)
      (execEncw_of_fits (s := issue _ (packlBody (keyBody s))) hencw) (encode .packl)
    have unpack := blind_unpackBody.keyBlind.complete.scriptLeaves_next (i := .unpack)
      (exec_unpack_of_fits (s := issue _ (encryptedArray s)) hunpack) (encode .encw)
    exact ((key.append pack).append enc).append unpack

/-- `RUN DECRYPT` and the script likewise, on success and on `CORRUPT`. -/
theorem decrypt_scripts {s : State} (hb : busy s = false) (h : DecryptFits s) :
    ScriptLeaves (runCommand .decrypt) s { decrypted s with cmd := 0x00000007 } ∧
    ScriptLeaves (runCommand .keyld ++ runCommand .pack ++ runCommand .decw ++ runCommand .unpackl) s
      { decrypted s with cmd := 0x00000013 } := by
  obtain ⟨hpack, hdecw, hunpackl⟩ := h.checks
  constructor
  · exact completesBlind_decrypted.scriptLeaves hb (exec_decrypt_of_fits h)
  · have key := keyBlind_keyBody.complete.scriptLeaves (i := .keyld) hb rfl
    have pack := blind_packBody.keyBlind.complete.scriptLeaves_next (i := .pack)
      (exec_pack_of_fits (s := issue _ (keyBody s)) hpack) (encode .keyld)
    have dec := blind_decBody.keyBlind.complete.scriptLeaves_next (i := .decw)
      (execDecw_of_fits (s := issue _ (packBody (keyBody s))) hdecw) (encode .pack)
    have unpackl := completesBlind_unpacklFinish.scriptLeaves_next (i := .unpackl)
      (exec_unpackl_of_fits (s := issue _ (decryptedArray s)) hunpackl) (encode .decw)
    exact ((key.append pack).append dec).append unpackl

/-- Settles O40: a body does not see the issue and completion around it. -/
theorem encryptIsItsScript : Obligations.EncryptIsItsScript := by
  intro s hb hfit
  obtain ⟨⟨vals, hrun⟩, vals', hscript⟩ := encrypt_scripts hb hfit
  exact ⟨_, vals, vals', hrun, rfl, hscript⟩

/-- Settles O41: the same of `DECRYPT`, whose length check ends both. -/
theorem decryptIsItsScript : Obligations.DecryptIsItsScript := by
  intro s hb hfit
  obtain ⟨⟨vals, hrun⟩, vals', hscript⟩ := decrypt_scripts hb hfit
  exact ⟨_, vals, vals', hrun, rfl, hscript⟩

end Sys2Proof.Machine

namespace Sys2Proof.Machine

/-! ## What ENCRYPT leaves (44_facade_commands.md R221, R224) -/

theorem packlBody_keyBody_frame (s : State) : packlBody (keyBody s) = { s with
    k := keyWords s, v := (packlBody (keyBody s)).v, wlen := BitVec.ofNat 32 (dataWords s + 1) } := by
  rw [packlBody_frame, dataWords_keyBody, keyBody_eq]

theorem packlBody_keyBody_wlen_toNat (s : State) : (packlBody (keyBody s)).wlen.toNat = dataWords s + 1 := by
  rw [packlBody_wlen_toNat, dataWords_keyBody]

/-- A non-empty buffer fills a word. -/
theorem dataWords_pos {s : State} (h : 0 < s.blen.toNat) : 1 ≤ dataWords s := by
  unfold dataWords wordCount
  omega

theorem encRounds_encryptedArray (s : State) :
    EncRounds (packlBody (keyBody s)) (roundCount (dataWords s + 1)) (encryptedArray s) := by
  rw [← packlBody_keyBody_wlen_toNat]
  exact encRounds_encBody (by rw [packlBody_keyBody_wlen_toNat]; omega)

theorem encryptedArray_wlen_toNat (s : State) : (encryptedArray s).wlen.toNat = dataWords s + 1 := by
  rw [(encRounds_encryptedArray s).wrote.wlen, packlBody_keyBody_wlen_toNat]

theorem encryptedArray_frame {s : State} (hpos : 0 < s.blen.toNat) :
    complete .ok (encryptedArray s) = { s with
      k := keyWords s, wlen := BitVec.ofNat 32 (dataWords s + 1), v := (encryptedArray s).v,
      sum := BitVec.ofNat 32 ((6 + 52 / (dataWords s + 1)) * 0x9E3779B9), rnd := 0, p := BitVec.ofNat 32 (dataWords s),
      y := vAt (encryptedArray s) 0, z := vAt (encryptedArray s) (dataWords s), status := 0x2, phase := .idle } := by
  have hlen := packlBody_keyBody_wlen_toNat s
  have hwords := dataWords_pos hpos
  have h := encRounds_encryptedArray s
  obtain ⟨hp, hy, -⟩ := h.last (roundCount_pos _)
  have hrnd := h.rnd
  have hz := h.carried
  rw [hlen, Nat.add_sub_cancel] at hp hz
  rw [hlen, sub_self] at hrnd
  rw [h.wrote.complete_ok (h.sum.trans (ofNat_mul_delta _)) hrnd hp (hy (by omega)) hz, packlBody_keyBody_frame]
  rfl

theorem vAt_unpackBytes (n : Nat) (s : State) : vAt (unpackBytes n s) = vAt s := by
  rw [unpackBytes_frame]
  rfl

/-- A command after a completed one: its body does not see that completion. -/
theorem CompletesBlind.exec_completed {g : State → State} (hg : CompletesBlind g) {i : Instr} {s : State}
    (h : exec i (complete .ok s) = .next (g (complete .ok s))) : exec i (complete .ok s) = .next (g s) := by
  rw [h, hg.of_complete]

/-- The four commands of `ENCRYPT` in a row (44_facade_commands.md R221): their checks cannot fail after its own. -/
theorem EncryptFits.exec_chain {s : State} (h : EncryptFits s) :
    exec .packl (complete .ok (keyBody s)) = .next (complete .ok (packlBody (keyBody s))) ∧
    exec .encw (complete .ok (packlBody (keyBody s))) = .next (complete .ok (encryptedArray s)) ∧
    exec .unpack (complete .ok (encryptedArray s)) = .next (encrypted s) := by
  obtain ⟨hpackl, hencw, hunpack⟩ := h.checks
  exact ⟨blind_packlBody.keyBlind.complete.exec_completed (exec_packl_of_fits (s := complete .ok (keyBody s)) hpackl),
    blind_encBody.keyBlind.complete.exec_completed (execEncw_of_fits (s := complete .ok (packlBody (keyBody s))) hencw),
    blind_unpackBody.keyBlind.complete.exec_completed
      (exec_unpack_of_fits (s := complete .ok (encryptedArray s)) hunpack)⟩

/-- The whole state that `ENCRYPT` leaves. -/
theorem encrypted_frame {s : State} (hpos : 0 < s.blen.toNat) :
    encrypted s = { s with
      k := keyWords s, wlen := BitVec.ofNat 32 (dataWords s + 1), v := (encryptedArray s).v,
      buf := (unpackBody (encryptedArray s)).buf, blen := BitVec.ofNat 32 (4 * (dataWords s + 1)),
      sum := BitVec.ofNat 32 ((6 + 52 / (dataWords s + 1)) * 0x9E3779B9), rnd := 0, p := BitVec.ofNat 32 (dataWords s),
      y := vAt (encryptedArray s) 0, z := vAt (encryptedArray s) (dataWords s), status := 0x2, phase := .idle } := by
  have hunpack : unpackBody (encryptedArray s) = { encryptedArray s with
      buf := (unpackBody (encryptedArray s)).buf, blen := BitVec.ofNat 32 (4 * (dataWords s + 1)) } := by
    rw [← encryptedArray_wlen_toNat]
    exact unpackBytes_frame _ _
  calc encrypted s
      = { complete .ok (encryptedArray s) with
          buf := (unpackBody (encryptedArray s)).buf, blen := BitVec.ofNat 32 (4 * (dataWords s + 1)) } :=
        congrArg (complete .ok) hunpack
    _ = _ := by rw [encryptedArray_frame hpos]

/-- The ciphertext's bytes are counted by `BLEN` as they are (44_facade_commands.md R224). -/
theorem encrypted_blen_toNat {s : State} (hc : CapLegal s) (h : EncryptFits s) :
    (encrypted s).blen.toNat = 4 * (dataWords s + 1) := by
  obtain ⟨-, hcap⟩ := h
  obtain ⟨-, hhigh⟩ := hc
  rw [encrypted, complete_blen, unpackBody, unpackBytes_blen, encryptedArray_wlen_toNat,
    BitVec.toNat_ofNat, Nat.mod_eq_of_lt (by omega)]

/-- `ENCRYPT` leaves the words above its array (44_facade_commands.md R221). -/
theorem vAt_encryptedArray_above {s : State} {j : Nat} (hj : dataWords s + 1 ≤ j) :
    vAt (encryptedArray s) j = vAt s j := by
  rw [(encRounds_encryptedArray s).array, encArray_above _ _ _ (by rwa [packlBody_keyBody_wlen_toNat]), vAt_packlBody,
    dataWords_keyBody, if_neg (by omega), if_neg (by omega), keyBody_eq]
  rfl

theorem bufAt_encryptedArray (s : State) (i : Nat) : bufAt (encryptedArray s) i = bufAt s i := by
  obtain ⟨-, h⟩ := (encRounds_encryptedArray s).wrote.keepsBuffer
  rw [h, packlBody_keyBody_frame]
  rfl

/-- `ENCRYPT`'s bytes are the array's (44_facade_commands.md R221). -/
theorem bufAt_unpackBody_encryptedArray (s : State) (i : Nat) : bufAt (unpackBody (encryptedArray s)) i =
    if i < 4 * (dataWords s + 1) then arrayByte (vAt (encryptedArray s)) i else bufAt s i := by
  rw [unpackBody, encryptedArray_wlen_toNat, bufAt_unpackBytes_eq_arrayByte, bufAt_encryptedArray]

/-- Settles O38: the tests, then the four bodies' own laws one after another. -/
theorem encryptRunsItsBodies : Obligations.EncryptRunsItsBodies := by
  refine ⟨decode_encode .encrypt, fun s => ⟨fun h => exec_encrypt_of_empty (blen_toNat_eq_zero h),
    fun h => exec_encrypt_of_exceeds (blen_toNat_ne_zero h), fun hne hcap => ?_⟩⟩
  have hpos : 0 < s.blen.toNat := Nat.pos_of_ne_zero (blen_toNat_ne_zero hne)
  have hfit : EncryptFits s := ⟨hpos, hcap⟩
  obtain ⟨hpackl, hencw, hunpack⟩ := hfit.exec_chain
  have hv : vAt (encrypted s) = vAt (encryptedArray s) := vAt_unpackBytes _ _
  refine ⟨_, _, _, _, rfl, hpackl, hencw, hunpack, exec_encrypt_of_fits hfit, ?_, fun hc => ?_, fun j hj => ?_,
    fun i => ?_⟩
  · rw [hv]
    exact encrypted_frame hpos
  · have hblen := encrypted_blen_toNat hc hfit
    exact ⟨hblen, hblen.trans (by unfold dataWords wordCount; omega)⟩
  · rw [hv]
    exact vAt_encryptedArray_above hj
  · rw [hv]
    exact bufAt_unpackBody_encryptedArray s i

end Sys2Proof.Machine

namespace Sys2Proof.Machine

/-! ## What DECRYPT leaves (44_facade_commands.md R225, R229) -/

theorem packBody_keyBody_frame (s : State) : packBody (keyBody s) = { s with
    k := keyWords s, v := (packBody (keyBody s)).v, wlen := BitVec.ofNat 32 (dataWords s) } := by
  rw [packBody_frame, dataWords_keyBody, keyBody_eq]

theorem packBody_keyBody_wlen_toNat (s : State) : (packBody (keyBody s)).wlen.toNat = dataWords s := by
  rw [packBody_wlen_toNat, dataWords_keyBody]

theorem decRounds_decryptedArray {s : State} (hpos : 0 < s.blen.toNat) :
    DecRounds (packBody (keyBody s)) (roundCount (dataWords s)) (decryptedArray s) := by
  have hwords := dataWords_pos hpos
  rw [← packBody_keyBody_wlen_toNat] at hwords ⊢
  exact decRounds_decBody hwords

theorem decryptedArray_wlen_toNat (s : State) : (decryptedArray s).wlen.toNat = dataWords s := by
  rw [decryptedArray, (decBody_wrote _).wlen, packBody_keyBody_wlen_toNat]

/-- The whole state after `DECW`'s body. -/
theorem decryptedArray_frame {s : State} (hpos : 0 < s.blen.toNat) :
    complete .ok (decryptedArray s) = { s with
      k := keyWords s, wlen := BitVec.ofNat 32 (dataWords s), v := (decryptedArray s).v, sum := 0, rnd := 0, p := 0,
      y := vAt (decryptedArray s) 0, z := (decryptedArray s).z, status := 0x2, phase := .idle } := by
  have h := decRounds_decryptedArray hpos
  obtain ⟨hp, -⟩ := h.last (roundCount_pos _)
  have hsum := h.sum
  have hrnd := h.rnd
  rw [packBody_keyBody_wlen_toNat, Nat.sub_self] at hsum
  rw [packBody_keyBody_wlen_toNat, sub_self] at hrnd
  rw [h.wrote.complete_ok (hsum.trans (zero_mul delta)) hrnd hp h.carried rfl, packBody_keyBody_frame]

theorem decryptedArray_z {s : State} (hlen : 2 ≤ dataWords s) :
    (decryptedArray s).z = vAt (decryptedArray s) (dataWords s - 1) := by
  have hpos : 0 < s.blen.toNat := by
    unfold dataWords wordCount at hlen
    omega
  obtain ⟨-, hz, -⟩ := (decRounds_decryptedArray hpos).last (roundCount_pos _)
  rw [packBody_keyBody_wlen_toNat] at hz
  exact hz hlen

theorem bufAt_decryptedArray (s : State) (i : Nat) : bufAt (decryptedArray s) i = bufAt s i := by
  obtain ⟨-, h⟩ := (decBody_wrote (packBody (keyBody s))).keepsBuffer
  rw [decryptedArray, h, packBody_keyBody_frame]
  rfl

/-- The four commands of `DECRYPT` in a row (44_facade_commands.md R225): their first checks cannot fail after its
own. -/
theorem DecryptFits.exec_chain {s : State} (h : DecryptFits s) :
    exec .pack (complete .ok (keyBody s)) = .next (complete .ok (packBody (keyBody s))) ∧
    exec .decw (complete .ok (packBody (keyBody s))) = .next (complete .ok (decryptedArray s)) ∧
    exec .unpackl (complete .ok (decryptedArray s)) = .next (decrypted s) := by
  obtain ⟨hpack, hdecw, hunpackl⟩ := h.checks
  exact ⟨blind_packBody.keyBlind.complete.exec_completed (exec_pack_of_fits (s := complete .ok (keyBody s)) hpack),
    blind_decBody.keyBlind.complete.exec_completed (execDecw_of_fits (s := complete .ok (packBody (keyBody s))) hdecw),
    completesBlind_unpacklFinish.exec_completed
      (exec_unpackl_of_fits (s := complete .ok (decryptedArray s)) hunpackl)⟩

theorem unpacklFinish_of_accepted {s : State}
    (h : lengthAccepted (bytesBeforeLength s) (embeddedLength s) = true) :
    unpacklFinish s = complete .ok (unpackBytes (embeddedLength s) s) := if_pos h

theorem unpacklFinish_of_rejected {s : State}
    (h : ¬ lengthAccepted (bytesBeforeLength s) (embeddedLength s) = true) : unpacklFinish s = complete .corrupt s :=
  if_neg h

theorem decryptedArray_lengthAccepted_iff (s : State) :
    lengthAccepted (bytesBeforeLength (decryptedArray s)) (embeddedLength (decryptedArray s)) = true ↔
      4 * (dataWords s - 1) ≤ embeddedLength (decryptedArray s) + 3 ∧
        embeddedLength (decryptedArray s) ≤ 4 * (dataWords s - 1) := by
  rw [lengthAccepted_iff, bytesBeforeLength, decryptedArray_wlen_toNat]
  omega

theorem embeddedLength_decryptedArray (s : State) :
    embeddedLength (decryptedArray s) = (vAt (decryptedArray s) (dataWords s - 1)).toNat := by
  rw [embeddedLength, decryptedArray_wlen_toNat]

/-- `DECRYPT`'s end on an accepted length, as a frame. -/
theorem unpackBytes_decryptedArray_frame (s : State) :
    unpackBytes (embeddedLength (decryptedArray s)) (decryptedArray s) = { decryptedArray s with
      buf := (unpackBytes (embeddedLength (decryptedArray s)) (decryptedArray s)).buf,
      blen := vAt (decryptedArray s) (dataWords s - 1) } := by
  rw [unpackBytes_frame, embeddedLength_decryptedArray, BitVec.ofNat_toNat, BitVec.setWidth_eq]

/-- `DECRYPT`'s bytes are the array's (44_facade_commands.md R225). -/
theorem bufAt_unpackBytes_decryptedArray (n : Nat) (s : State) (i : Nat) :
    bufAt (unpackBytes n (decryptedArray s)) i =
      if i < n then arrayByte (vAt (decryptedArray s)) i else bufAt s i := by
  rw [bufAt_unpackBytes_eq_arrayByte, bufAt_decryptedArray]

/-- Settles O39: the tests in their order, then the four bodies' own laws one after another. -/
theorem decryptRunsItsBodies : Obligations.DecryptRunsItsBodies := by
  refine ⟨decode_encode .decrypt, fun s => ⟨fun h => exec_decrypt_of_empty (blen_toNat_eq_zero h),
    fun h => exec_decrypt_of_misshapen (blen_toNat_ne_zero h), fun h => exec_decrypt_of_exceeds (blen_toNat_ne_zero h),
    fun hne hmod hcap => ?_⟩⟩
  have hpos : 0 < s.blen.toNat := Nat.pos_of_ne_zero (blen_toNat_ne_zero hne)
  have hfit : DecryptFits s := ⟨hpos, hmod, hcap⟩
  obtain ⟨hpack, hdecw, hunpackl⟩ := hfit.exec_chain
  refine ⟨_, _, _, _, rfl, hpack, hdecw, hunpackl, exec_decrypt_of_fits hfit, ?_⟩
  rw [← hfit.dataWords_eq]
  have hm : embeddedLength (decryptedArray s) =
      (vAt (complete .ok (decryptedArray s)) (dataWords s - 1)).toNat := embeddedLength_decryptedArray s
  have hiff := decryptedArray_lengthAccepted_iff s
  refine ⟨decryptedArray_frame hpos, decryptedArray_z, fun hbad => ?_, fun hlow hhigh => ?_⟩
  · rw [decrypted, unpacklFinish_of_rejected (mt hiff.1 (by rw [hm]; omega))]
    rfl
  · rw [decrypted, unpacklFinish_of_accepted (hiff.2 (by rw [hm]; omega))]
    refine ⟨congrArg (complete .ok) (unpackBytes_decryptedArray_frame s), fun i => ?_⟩
    rw [hm]
    exact bufAt_unpackBytes_decryptedArray _ s i

end Sys2Proof.Machine

namespace Sys2Proof.Machine

/-! ## DECRYPT after ENCRYPT (44_facade_commands.md R228)

The word array goes from body to body: what `PACK` packs is what `UNPACK` unpacked, what `DECW` leaves is what `ENCW`
began with, and that is what `PACKL` packed. -/

theorem SameArray.trans {s t u : State} (h₁ : SameArray s t) (h₂ : SameArray t u) : SameArray s u := by
  have hlen := h₁.len
  obtain ⟨hwlen₁, hk₁, hv₁⟩ := h₁
  obtain ⟨hwlen₂, hk₂, hv₂⟩ := h₂
  exact ⟨hwlen₁.trans hwlen₂, hk₁.trans hk₂, fun j hj => (hv₁ j hj).trans (hv₂ j (hlen ▸ hj))⟩

theorem CompositeWrote.cap {s t : State} (h : CompositeWrote s t) : t.cap = s.cap := by rw [h]

/-- `PACK` behind `UNPACK` (40_word_packer.md R139). -/
theorem packBody_unpackBody_sameArray {s : State} (hc : CapLegal s) (h : s.wlen.toNat ≤ s.cap.toNat) :
    SameArray (packBody (complete .ok (unpackBody s))) s := by
  obtain ⟨t, u, ht, hu, -, hwlen, hv⟩ := unpack_pack hc h
  obtain rfl := exec_next_unique (exec_unpack_of_fits h) ht
  have hk : (packBody (complete .ok (unpackBody s))).k = s.k := by
    rw [packBody_frame, complete, unpackBody, unpackBytes_frame]
  have hfit : dataWords (complete .ok (unpackBody s)) ≤ (complete .ok (unpackBody s)).cap.toNat := by
    have hcap : (unpackBody s).cap = s.cap := (unpackBytes_composite _ s).cap
    rw [complete_cap, hcap, dataWords, complete_blen, unpackBody_blen_toNat hc h, wordCount]
    omega
  obtain rfl := exec_next_unique (exec_pack_of_fits hfit) hu
  have hlen : (packBody (complete .ok (unpackBody s))).wlen.toNat = s.wlen.toNat := congrArg BitVec.toNat hwlen
  exact ⟨hwlen, hk, fun j hj => hv j (hlen ▸ hj)⟩

/-- `DECW` behind `ENCW` (43_cipher_engine.md R202). -/
theorem decBody_encBody_sameArray {s : State} (hlen : 2 ≤ s.wlen.toNat) :
    SameArray (decBody (complete .ok (encBody s))) s := by
  have hdec := decBody_wrote (complete .ok (encBody s))
  have henc := encBody_wrote s
  exact ⟨hdec.wlen.trans henc.wlen, hdec.k.trans henc.k, fun j _ => congrFun (vAt_decBody_encBody hlen) j⟩

/-- `UNPACKL` behind `PACKL`, on any array with the packed words (40_word_packer.md R126, R139). -/
theorem unpacklFinish_of_packed {s u : State} (h : SameArray u (packlBody s)) :
    unpacklFinish u = complete .ok (unpackBytes s.blen.toNat u) ∧
      ∀ i < s.blen.toNat, bufAt (unpackBytes s.blen.toNat u) i = bufAt s i := by
  have hlen : u.wlen.toNat = dataWords s + 1 := h.len.trans (packlBody_wlen_toNat s)
  have hm : embeddedLength u = s.blen.toNat := by
    rw [← embeddedLength_packlBody, embeddedLength, embeddedLength, ← h.len, h.cell (by omega)]
  have hacc : lengthAccepted (bytesBeforeLength u) (embeddedLength u) = true := by
    rw [bytesBeforeLength, hlen, hm]
    exact lengthAccepted_blen s
  refine ⟨by rw [unpacklFinish_of_accepted hacc, hm], fun i hi => ?_⟩
  have hword : i / 4 < dataWords s := by
    unfold dataWords wordCount
    omega
  have hpacked := (h.cell (by omega)).trans ((vAt_packlBody s (i / 4)).trans (if_pos hword))
  rw [bufAt_unpackBytes_eq_arrayByte, if_pos hi, arrayByte_of_packed hpacked, byteOrZero, if_pos hi]

/-! The key side and the capacity, which `ENCRYPT` leaves for `DECRYPT` as they were. -/

theorem CompositeWrote.keyWords {s t : State} (h : CompositeWrote s t) : keyWords t = keyWords s := by
  rw [h]
  rfl

theorem encryptedArray_composite (s : State) : CompositeWrote s (encryptedArray s) :=
  (keyBody_composite s).trans ((packlBody_composite _).trans (encBody_wrote _).composite)

theorem unpackBody_encryptedArray_composite (s : State) : CompositeWrote s (unpackBody (encryptedArray s)) :=
  (encryptedArray_composite s).trans (unpackBytes_composite _ _)

theorem encryptedArray_k (s : State) : (encryptedArray s).k = keyWords s := by
  rw [(encRounds_encryptedArray s).wrote.k, packlBody_keyBody_frame]

theorem EncryptFits.decryptFits_encrypted {s : State} (h : EncryptFits s) (hc : CapLegal s) :
    DecryptFits (encrypted s) := by
  have ⟨_, hwords⟩ := h
  have hcap : (encrypted s).cap = s.cap := (unpackBody_encryptedArray_composite s).cap
  rw [DecryptFits, encrypted_blen_toNat hc h, hcap]
  omega

/-- The key loader of `DECRYPT` loads the `K` that is there. -/
theorem keyBody_encrypted (s : State) : keyBody (encrypted s) =
    encrypted s := by
  have hwords : keyWords (encrypted s) = keyWords s :=
    (unpackBody_encryptedArray_composite s).keyWords
  rw [keyBody_eq, hwords, ← encryptedArray_k, encrypted, unpackBody, unpackBytes_frame]
  rfl

/-- `DECRYPT` after `ENCRYPT` deciphers to the array that `PACKL` packed. -/
theorem decryptedArray_encrypted {s : State} (hc : CapLegal s) (h : EncryptFits s) :
    SameArray (decryptedArray (encrypted s)) (packlBody (keyBody s)) := by
  obtain ⟨-, -, hfit⟩ := h.checks
  have hlen := encryptedArray_wlen_toNat s
  have hlenp := packlBody_keyBody_wlen_toNat s
  have hwords := dataWords_pos h.1
  have hcap : CapLegal (encryptedArray s) := by
    rw [CapLegal, (encryptedArray_composite s).cap]
    exact hc
  have hpacked : SameArray (packBody (encrypted s)) (encryptedArray s) := packBody_unpackBody_sameArray hcap hfit
  have hdeciphered : SameArray (decBody (packBody (encrypted s)))
      (decBody (complete .ok (encryptedArray s))) :=
    SameArray.decBody (u := complete .ok (encryptedArray s)) hpacked (by rw [hpacked.len]; omega)
  rw [decryptedArray, keyBody_encrypted]
  exact hdeciphered.trans (decBody_encBody_sameArray (by omega))

/-- Settles O42: the ciphertext is deciphered to the packed array, whose length word `UNPACKL` accepts. -/
theorem decryptUndoesEncrypt : Obligations.DecryptUndoesEncrypt := by
  intro s hc hlen
  by_cases hempty : s.blen.toNat = 0
  · exact ⟨_, _, exec_encrypt_of_empty hempty, exec_decrypt_of_empty (s := complete .ok s) hempty, rfl, rfl, rfl,
      fun _ _ => rfl⟩
  have hfit : EncryptFits s := by
    obtain ⟨hlow, -⟩ := hc
    unfold EncryptFits dataWords wordCount
    omega
  obtain ⟨hfinish, hbytes⟩ := unpacklFinish_of_packed (decryptedArray_encrypted hc hfit)
  refine ⟨_, _, exec_encrypt_of_fits hfit,
    (exec_decrypt_of_fits (hfit.decryptFits_encrypted hc)).trans (congrArg _ hfinish), rfl, rfl, ?_, fun i hi => ?_⟩
  · rw [complete_blen, unpackBytes_blen, keyBody_blen, BitVec.ofNat_toNat, BitVec.setWidth_eq]
  · have hkey : bufAt (keyBody s) i = bufAt s i := (keyBody_keepsBuffer s).2 i
    rw [← hkey]
    exact hbytes i (by rwa [keyBody_blen])

end Sys2Proof.Machine

namespace Sys2Proof.Machine

/-! ## Register accesses (45_host_access.md R240, R241, R247) -/

theorem regOfNumber_of_reserved {n : Nat} (h : (9 ≤ n ∧ n ≤ 15) ∨ 20 ≤ n) : regOfNumber n = none := by
  unfold regOfNumber
  split
  any_goals omega
  rfl

theorem regOfNumber_ne_status {n : Nat} (h : n ≠ 1) : regOfNumber n ≠ some .status := by
  unfold regOfNumber
  split <;> simp at h ⊢

theorem readReg_status (s : State) : readReg 1 s = .next (readStatus s) := if_neg fun ⟨_, h⟩ => h rfl

theorem readReg_of_idle {n : Nat} {r : Reg} (hr : regOfNumber n = some r) {s : State} (hb : busy s = false) :
    readReg n s = .next (regValue r s) := by
  rw [readReg, hr]
  exact if_neg fun ⟨h, _⟩ => Bool.false_ne_true (hb.symm.trans h)

theorem readReg_of_reserved {n : Nat} (hr : regOfNumber n = none) (s : State) :
    readReg n s = .refused (.reservedRegister n) := by
  rw [readReg, hr]

theorem writeReg_of_reserved {n : Nat} (hr : regOfNumber n = none) (w : Word) (s : State) :
    writeReg n w s = .refused (.reservedRegister n) := by
  rw [writeReg, hr]

theorem readReg_refused_of_busy {n : Nat} (hn : n ≠ 1) {s : State} (hb : busy s = true) :
    ∃ r, readReg n s = .refused r := by
  cases hr : regOfNumber n with
  | none => exact ⟨_, readReg_of_reserved hr s⟩
  | some r =>
    have hne : r ≠ .status := fun h => regOfNumber_ne_status hn (h ▸ hr)
    rw [readReg, hr]
    exact ⟨_, if_pos ⟨hb, hne⟩⟩

theorem writeReg_refused_of_busy (n : Nat) (w : Word) {s : State} (hb : busy s = true) :
    ∃ r, writeReg n w s = .refused r := by
  cases hr : regOfNumber n with
  | none => exact ⟨_, writeReg_of_reserved hr w s⟩
  | some r => exact ⟨_, writeReg_of_busy hr hb w⟩

theorem hostAct_readReg {n : Nat} {w : Word} {s : State} (h : readReg n s = .next w) :
    hostAct (.readReg n) s = .next (s, .word w) := by
  rw [hostAct, h, andThen_next]

/-- Settles O50: a read tests `BUSY` for every register but `STATUS`, and answers the register's value. -/
theorem registerReads : Obligations.RegisterReads := by
  intro s
  refine ⟨readReg_status s, fun n w => hostAct_readReg, fun hb => ?_, fun hb n hn => readReg_refused_of_busy hn hb⟩
  have read {n : Nat} {r : Reg} (hr : regOfNumber n = some r) : readReg n s = .next (regValue r s) :=
    readReg_of_idle hr hb
  exact ⟨read (r := .cmd) rfl, read (r := .blen) rfl, read (r := .wlen) rfl, read (r := .klen) rfl,
    read (r := .cap) rfl, read (r := .sum) rfl, read (r := .rnd) rfl, read (r := .pos) rfl,
    read (r := .key 0) rfl, read (r := .key 1) rfl, read (r := .key 2) rfl, read (r := .key 3) rfl⟩

/-- Settles O52: a write while idle is `storeReg` of the register that the number names. -/
theorem registerWrites : Obligations.RegisterWrites := by
  intro s w
  refine ⟨fun hb n => writeReg_refused_of_busy n w hb, fun hb => ?_⟩
  have write {n : Nat} {r : Reg} (hr : regOfNumber n = some r) : writeReg n w s = .next (storeReg r w s) :=
    writeReg_of_idle hr hb w
  have ignored : ∀ n, n = 1 ∨ n = 5 ∨ n = 6 ∨ n = 7 ∨ n = 8 → writeReg n w s = .next s := by
    rintro n (rfl | rfl | rfl | rfl | rfl)
    exacts [write (r := .status) rfl, write (r := .cap) rfl, write (r := .sum) rfl, write (r := .rnd) rfl,
      write (r := .pos) rfl]
  exact ⟨writeReg_cmd_of_idle hb w, write (r := .blen) rfl, write (r := .wlen) rfl, write (r := .klen) rfl, ignored,
    write (r := .key 0) rfl, write (r := .key 1) rfl, write (r := .key 2) rfl, write (r := .key 3) rfl⟩

/-! ## Memory accesses (45_host_access.md R242 to R245, R248) -/

theorem guarded_of_busy {α : Type} {s : State} (hb : busy s = true) (i n : Nat) (a : α) :
    guarded i n s a = .refused .accessWhileBusy := if_pos hb

theorem guarded_of_outside {α : Type} {i n : Nat} {s : State} (hb : busy s = false) (hi : n ≤ i) (a : α) :
    guarded i n s a = .refused (.indexOutOfRange i) := by
  rw [guarded, if_neg (by simp [hb]), if_pos hi]

/-- An access that is answered was made while idle and inside the space. -/
theorem guarded_eq_next {α : Type} {i n : Nat} {s : State} {a b : α} (h : guarded i n s a = .next b) :
    busy s = false ∧ i < n ∧ b = a := by
  cases hb : busy s with
  | true =>
    rw [guarded_of_busy hb] at h
    cases h
  | false =>
    obtain hi | hi := Nat.lt_or_ge i n
    · rw [guarded_of_idle hb hi] at h
      cases h
      exact ⟨rfl, hi, rfl⟩
    · rw [guarded_of_outside hb hi] at h
      cases h

theorem hostAct_readByte {sp : ByteSpace} {i : Nat} {s : State} (hb : busy s = false) (hi : i < spaceCells sp s) :
    hostAct (.readByte sp i) s = .next (s, .byte (byteAt sp i s)) := by
  rw [hostAct, readByte, guarded_of_idle hb hi, andThen_next]

theorem hostAct_readWord {i : Nat} {s : State} (hb : busy s = false) (hi : i < s.cap.toNat) :
    hostAct (.readWord i) s = .next (s, .word (vAt s i)) := by
  rw [hostAct, readWord, guarded_of_idle hb hi, andThen_next]

/-- Settles O53: every access goes through `guarded`, which tests `BUSY` first, then the index. -/
theorem memoryAccesses : Obligations.MemoryAccesses := by
  intro s i b w
  refine ⟨fun hb sp => ?_, fun hb hi => ?_, fun hb hi => ?_, fun hb hi => ?_⟩
  · exact ⟨guarded_of_busy hb _ _ _, guarded_of_busy hb _ _ _, guarded_of_busy hb _ _ _, guarded_of_busy hb _ _ _⟩
  · exact ⟨hostAct_readByte (sp := .buf) hb hi, setBuf i b s, guarded_of_idle hb hi _, rfl,
      fun j => bufAt_setBuf i j b s⟩
  · exact ⟨hostAct_readByte (sp := .kbuf) hb hi, setKbuf i b s, guarded_of_idle hb hi _, rfl,
      fun j => kbufAt_setKbuf i j b s⟩
  · exact ⟨hostAct_readWord hb hi, setV i w s, guarded_of_idle hb hi _, rfl, fun j => vAt_setV i j w s⟩

/-! ## Refused accesses (45_host_access.md R247, R248; 70_reset_and_hazards.md R300) -/

theorem andThen_of_refused {α β : Type} {r : Host.Outcome α Fault Refusal} (h : ∃ e, r = .refused e)
    (f : α → Host.Outcome β Fault Refusal) : ∃ e, andThen r f = .refused e := by
  obtain ⟨e, rfl⟩ := h
  exact ⟨e, rfl⟩

theorem hostAct_refused_of_busy {a : HostAction} {s : State} (hb : busy s = true) (hstatus : a ≠ .readReg 1)
    (hwait : a ≠ .wait) : ∃ r, hostAct a s = .refused r := by
  cases a with
  | readReg n => exact andThen_of_refused (readReg_refused_of_busy (fun h => hstatus (h ▸ rfl)) hb) _
  | writeReg n w => exact andThen_of_refused (writeReg_refused_of_busy n w hb) _
  | readByte sp i => exact andThen_of_refused ⟨_, guarded_of_busy hb _ _ _⟩ _
  | writeByte sp i b => exact andThen_of_refused ⟨_, guarded_of_busy hb _ _ _⟩ _
  | readWord i => exact andThen_of_refused ⟨_, guarded_of_busy hb _ _ _⟩ _
  | writeWord i w => exact andThen_of_refused ⟨_, guarded_of_busy hb _ _ _⟩ _
  | wait => exact absurd rfl hwait

/-- Settles O54: a reserved number names no register, busy or idle, and `guarded` refuses an index outside. -/
theorem undefinedAccessesRefused : Obligations.UndefinedAccessesRefused := by
  intro s
  refine ⟨fun n w hn => ?_, fun i b w hb => ⟨fun hi => ?_, fun hi => ?_, fun hi => ?_⟩,
    fun a hb => hostAct_refused_of_busy hb⟩
  · have hr := regOfNumber_of_reserved hn
    exact ⟨readReg_of_reserved hr s, writeReg_of_reserved hr w s⟩
  · exact ⟨guarded_of_outside hb hi _, guarded_of_outside hb hi _⟩
  · exact ⟨guarded_of_outside hb hi _, guarded_of_outside hb hi _⟩
  · exact ⟨guarded_of_outside hb hi _, guarded_of_outside hb hi _⟩

end Sys2Proof.Machine

namespace Sys2Proof.Machine

/-! ## From a place of the engine to its end, with a bound on the steps (43_cipher_engine.md R212) -/

/-- The place at `E_WORD` that `PHASE` and `P` name. -/
theorem atWord_self {s : State} {ph : Phase} (h : s.phase = ph) : atWord ph s.p.toNat s = s := by
  rw [atWord, BitVec.ofNat_toNat, BitVec.setWidth_eq, ← h]

/-- The engine's next `E_ROUND` is at most one round away. -/
def ReachesRound (f : State → Host.Outcome State Fault Refusal) (place : EnginePhase → Phase) (s : State) : Prop :=
  ∃ n t, n ≤ 1 + s.wlen.toNat ∧ EngineWrote s t ∧ t.rnd.toNat ≤ 58 + s.rnd.toNat ∧
    BusyRun f n s (atPlace (place .round) t)

/-- More steps than the engine still takes, from any of its places: a round to the next `E_ROUND`, at most 58 rounds
after a load or `RND` rounds without one, and the last `E_ROUND`. -/
def engineBudget (s : State) : Nat := (59 + s.rnd.toNat) * (1 + s.wlen.toNat) + 1

/-- The engine leaves its places, by `finish`, within its budget. -/
def LeavesEngine (f : State → Host.Outcome State Fault Refusal) (place : EnginePhase → Phase)
    (finish : State → State) (s : State) : Prop :=
  ∃ n u, n ≤ engineBudget s ∧ BusyRun f n s (finish (atPlace (place .round) u))

section

variable {f : State → Host.Outcome State Fault Refusal} {i : Instr} {place : EnginePhase → Phase}
  {finish load round : State → State} {s : State}

/-- From `E_ROUND` the `RND` rounds that are left, and the last `E_ROUND`. -/
theorem RunsRounds.from_round (h : RunsRounds f place finish load round s) {t : State} (hw : EngineWrote s t) :
    ∃ u, BusyRun f (t.rnd.toNat * (1 + s.wlen.toNat) + 1) (atPlace (place .round) t)
      (finish (atPlace (place .round) u)) := by
  induction hr : t.rnd.toNat generalizing t with
  | zero =>
    rw [Nat.zero_mul]
    exact ⟨t, h.last t hw (BitVec.eq_of_toNat_eq hr)⟩
  | succ r ih =>
    have hleft : t.rnd ≠ 0 := fun h0 => by simp [h0] at hr
    have hrnd : (round t).rnd.toNat = r := by rw [h.round_rnd, toNat_sub_one hleft, hr, Nat.add_sub_cancel]
    obtain ⟨u, hrest⟩ := ih (hw.trans (h.round_wrote t)) hrnd
    refine ⟨u, ?_⟩
    rw [Nat.succ_mul, Nat.add_comm (r * _), Nat.add_assoc]
    exact (h.rounds t hw hleft).trans hrest

/-- From every place of the engine; how the words of a round end is the direction's own. -/
theorem RunsRounds.leavesEngine (h : RunsRounds f place finish load round s) {e : EnginePhase}
    (hp : s.phase = place e) (hwords : e = .word → ReachesRound f place s) : LeavesEngine f place finish s := by
  have hreach : ReachesRound f place s := by
    cases e with
    | load =>
      have hq := toNat_roundCount_le s.wlen.toNat
      have hfirst := h.first
      rw [atPlace_self hp] at hfirst
      exact ⟨1, load s, by omega, h.load_wrote, by rw [h.load_rnd]; omega, hfirst⟩
    | round => exact ⟨0, s, Nat.zero_le _, .refl s, by omega, by rw [atPlace_self hp]; exact .refl s⟩
    | word => exact hwords rfl
  obtain ⟨n, t, hn, hw, hrnd, hrun⟩ := hreach
  obtain ⟨u, hrest⟩ := h.from_round hw
  refine ⟨_, u, ?_, hrun.trans hrest⟩
  calc n + (t.rnd.toNat * (1 + s.wlen.toNat) + 1)
      ≤ (1 + s.wlen.toNat) + ((58 + s.rnd.toNat) * (1 + s.wlen.toNat) + 1) :=
        Nat.add_le_add hn (Nat.succ_le_succ (Nat.mul_le_mul_right _ hrnd))
    _ = engineBudget s := by rw [engineBudget]; ring

/-- The words of a round of `ENCW` from position `k` up, and the end of the round. -/
theorem DrivesEngine.encWords_from (h : DrivesEngine f i place (encEngineStep place finish)) {j k : Nat} {s : State}
    (hs : BusyWith i s) (hk : k + j + 1 = s.wlen.toNat) :
    ∃ t, EngineWrote s t ∧ t.rnd = s.rnd - 1 ∧
      BusyRun f (j + 1) (atWord (place .word) k s) (atPlace (place .round) t) := by
  induction j generalizing k s with
  | zero =>
    have hstep := h.single (hs.atWord (place .word) k) rfl
    rw [encEngineStep_atWord_last place finish hk] at hstep
    exact ⟨{ encUpdate k s with rnd := s.rnd - 1 }, rfl, rfl, hstep⟩
  | succ j ih =>
    have hstep := h.single (hs.atWord (place .word) k) rfl
    rw [encEngineStep_atWord place finish (by omega)] at hstep
    have hw := encUpdate_wrote k s
    obtain ⟨t, hwt, hrnd, hrest⟩ := ih (k := k + 1) (hs.of_wrote hw) (by rw [hw.wlen]; omega)
    refine ⟨t, hw.trans hwt, hrnd, ?_⟩
    rw [Nat.add_comm (j + 1)]
    exact hstep.trans hrest

theorem DrivesEngine.enc_leavesEngine (h : DrivesEngine f i place (encEngineStep place finish)) (hs : BusyWith i s)
    {e : EnginePhase} (hp : s.phase = place e) (hfit : EngineFits e s) : LeavesEngine f place finish s := by
  obtain ⟨⟨hpos, -⟩, hword⟩ := hfit
  refine (h.encRuns hs hpos).leavesEngine hp fun he => ?_
  obtain ⟨hrnd, hpw⟩ := hword he
  obtain ⟨t, hw, ht, hrun⟩ := h.encWords_from hs (k := s.p.toNat) (j := s.wlen.toNat - 1 - s.p.toNat) (by omega)
  rw [atWord_self (he ▸ hp)] at hrun
  exact ⟨_, t, by omega, hw, by rw [ht, toNat_sub_one hrnd]; omega, hrun⟩

theorem DrivesEngine.dec_leavesEngine (h : DrivesEngine f i place (decEngineStep place finish)) (hs : BusyWith i s)
    {e : EnginePhase} (hp : s.phase = place e) (hfit : EngineFits e s) : LeavesEngine f place finish s := by
  obtain ⟨⟨hpos, -⟩, hword⟩ := hfit
  refine (h.decRuns hs hpos).leavesEngine hp fun he => ?_
  obtain ⟨hrnd, hpw⟩ := hword he
  have hrun := h.decWords hs hpw
  rw [atWord_self (he ▸ hp)] at hrun
  exact ⟨_, _, by omega, (decPass_wrote _ s).trans (engineWrote_counters _ _ _),
    by rw [decPass_rnd, toNat_sub_one hrnd]; omega, hrun⟩

end

end Sys2Proof.Machine

namespace Sys2Proof.Machine

/-! ## From every busy legal state to a completion

Place by place, from the last of a schedule back to its first: each step leads to a place whose bound is known. -/

/-- At a place of a schedule the block is busy, and the schedule says what holds there. -/
theorem Inv.at_place {s : State} (hs : Inv s) {ph : Phase} (hp : s.phase = ph) (hne : ph ≠ .idle) :
    busy s = true ∧ ScheduleLegal (atPlace ph s) := by
  rw [atPlace_self hp]
  obtain ⟨-, -, hphase, -, -, hsched⟩ := hs
  exact ⟨eq_true_of_ne_false fun hb => hne (hp.symm.trans (hphase.2 hb)), hsched⟩

theorem BusyRun.inv {n : Nat} {s t : State} (h : BusyRun step n s t) (hs : Inv s) : Inv t := by
  induction h with
  | refl => exact hs
  | head hb hf _ ih =>
    obtain ⟨u, hu, hinv⟩ := stepKeepsLegalStates _ hs
    rw [hf] at hu
    cases hu
    exact ih hinv

/-- At most `n` steps of the core complete the running command. -/
def CompletesWithin (n : Nat) (s : State) : Prop := ∃ m e u, m ≤ n ∧ BusyRun step m s (complete e u)

theorem CompletesWithin.mono {m n : Nat} {s : State} (h : CompletesWithin m s) (hmn : m ≤ n) :
    CompletesWithin n s := by
  obtain ⟨k, e, u, hk, hrun⟩ := h
  exact ⟨k, e, u, hk.trans hmn, hrun⟩

theorem CompletesWithin.after {m n : Nat} {s t : State} (h : CompletesWithin n t) (hrun : BusyRun step m s t) :
    CompletesWithin (m + n) s := by
  obtain ⟨k, e, u, hk, hrest⟩ := h
  exact ⟨m + k, e, u, Nat.add_le_add_left hk m, hrun.trans hrest⟩

/-- More steps than `ENCRYPT` and `DECRYPT` still take from `F_PACK`: the packing, the engine on the packed array of
`ceil(BLEN / 4)` words, one more in `ENCRYPT`, and `F_UNPACK`. -/
def compositeBudget (s : State) : Nat := (59 + s.rnd.toNat) * (2 + dataWords s) + 3

/-- The key loader reads and writes nothing that the bound speaks of. -/
theorem compositeBudget_keyBody (s : State) : compositeBudget (keyBody s) = compositeBudget s := by
  rw [compositeBudget, dataWords_keyBody, keyBody_frame s, compositeBudget]

/-- A wait allows 59 and `RND` rounds of any length up to that of its own bound, and eight steps more. -/
theorem rounds_le_stepsEnough {s : State} {n : Nat} (hn : n ≤ s.blen.toNat + s.wlen.toNat + s.p.toNat + 4) :
    (59 + s.rnd.toNat) * n + 8 ≤ stepsEnough s :=
  Nat.add_le_add_right (Nat.mul_le_mul (by omega) hn) 8

/-- An issued command, legal or not, completes in its one step. -/
theorem step_of_run_completes {s : State} (hb : busy s = true) (hp : s.phase = .run) :
    ∃ e u, step s = .next (complete e u) := by
  rw [step_of_run hb hp, runIssued]
  split
  next i _ =>
    obtain ⟨e, u, hexec, -⟩ := exec_completes i s
    exact ⟨e, u, hexec⟩
  next => exact ⟨.illcmd, s, rfl⟩

section

variable {s : State} (hs : Inv s)

include hs

theorem completesWithin_run (hp : s.phase = .run) : CompletesWithin 1 s := by
  obtain ⟨hb, -⟩ := hs.at_place hp nofun
  obtain ⟨e, u, hstep⟩ := step_of_run_completes hb hp
  exact ⟨1, e, u, le_rfl, .single hb hstep⟩

/-- Inside `ENCW` or `DECW`. -/
theorem completesWithin_engine {e : EnginePhase} (hp : s.phase = .engine e) : CompletesWithin (engineBudget s) s := by
  obtain ⟨hb, hr, hfit⟩ := hs.at_place hp nofun
  have hleaves : LeavesEngine step .engine (complete .ok) s := by
    obtain henc | hdec := hr
    · exact step_followsSchedule.encw.enc_leavesEngine ⟨hb, henc⟩ hp hfit
    · exact step_followsSchedule.decw.dec_leavesEngine ⟨hb, hdec⟩ hp hfit
  obtain ⟨n, u, hn, hrun⟩ := hleaves
  exact ⟨n, .ok, _, hn, hrun⟩

theorem completesWithin_fUnpack (hp : s.phase = .fUnpack) : CompletesWithin 1 s := by
  obtain ⟨hb, henc | hdec, -⟩ := hs.at_place hp nofun
  · have hrun := step_followsSchedule.encrypt_single ⟨hb, henc⟩ (encryptStep_fUnpack s) nofun
    rw [atPlace_self hp] at hrun
    exact ⟨1, .ok, _, le_rfl, hrun⟩
  · have hrun := step_followsSchedule.decrypt_single ⟨hb, hdec⟩ (decryptStep_fUnpack s) nofun
    obtain ⟨e, u, hfinish, -⟩ := unpacklFinish_leaves s
    rw [atPlace_self hp, hfinish] at hrun
    exact ⟨1, e, u, le_rfl, hrun⟩

/-- Inside `ENCRYPT` or `DECRYPT`: the engine, then `F_UNPACK`. -/
theorem completesWithin_fEngine {e : EnginePhase} (hp : s.phase = .fEngine e) :
    CompletesWithin (engineBudget s + 1) s := by
  obtain ⟨hb, hr, hfit⟩ := hs.at_place hp nofun
  have hleaves : LeavesEngine step .fEngine toUnpack s := by
    obtain henc | hdec := hr
    · exact step_followsSchedule.encrypt.enc_leavesEngine ⟨hb, henc⟩ hp hfit
    · exact step_followsSchedule.decrypt.dec_leavesEngine ⟨hb, hdec⟩ hp hfit
  obtain ⟨n, u, hn, hrun⟩ := hleaves
  exact ((completesWithin_fUnpack (hrun.inv hs) rfl).after hrun).mono (Nat.succ_le_succ hn)

theorem completesWithin_fPack (hp : s.phase = .fPack) : CompletesWithin (compositeBudget s) s := by
  obtain ⟨hb, hsched⟩ := hs.at_place hp nofun
  have hpacked : ∃ t, BusyRun step 1 s (atPlace (.fEngine .load) t) ∧ t.rnd = s.rnd ∧
      t.wlen.toNat ≤ dataWords s + 1 := by
    obtain ⟨henc, -⟩ | ⟨hdec, -⟩ := hsched
    · have hrun := step_followsSchedule.encrypt_single ⟨hb, henc⟩ (encryptStep_fPack s) nofun
      rw [atPlace_self hp] at hrun
      exact ⟨_, hrun, by rw [packlBody_frame s], (packlBody_wlen_toNat s).le⟩
    · have hrun := step_followsSchedule.decrypt_single ⟨hb, hdec⟩ (decryptStep_fPack s) nofun
      rw [atPlace_self hp] at hrun
      exact ⟨_, hrun, by rw [packBody_frame s], (packBody_wlen_toNat s).le.trans (Nat.le_succ _)⟩
  obtain ⟨t, hrun, hrnd, hlen⟩ := hpacked
  refine ((completesWithin_fEngine (hrun.inv hs) rfl).after hrun).mono ?_
  have hrounds : (59 + t.rnd.toNat) * (1 + t.wlen.toNat) ≤ (59 + s.rnd.toNat) * (2 + dataWords s) := by
    rw [hrnd]
    exact Nat.mul_le_mul_left _ (by omega)
  show 1 + ((59 + t.rnd.toNat) * (1 + t.wlen.toNat) + 1 + 1) ≤ (59 + s.rnd.toNat) * (2 + dataWords s) + 3
  omega

theorem completesWithin_fKey (hp : s.phase = .fKey) : CompletesWithin (1 + compositeBudget s) s := by
  obtain ⟨hb, hsched⟩ := hs.at_place hp nofun
  have hrun : BusyRun step 1 (atPlace .fKey s) (atPlace .fPack (keyBody s)) := by
    obtain ⟨henc, -⟩ | ⟨hdec, -⟩ := hsched
    · exact step_followsSchedule.encrypt_single ⟨hb, henc⟩ (encryptStep_fKey s) nofun
    · exact step_followsSchedule.decrypt_single ⟨hb, hdec⟩ (decryptStep_fKey s) nofun
  rw [atPlace_self hp] at hrun
  rw [← compositeBudget_keyBody]
  exact (completesWithin_fPack (hrun.inv hs) rfl).after hrun

/-- The tests of `F_CHECK` pass on to `F_KEY`, or end the command. -/
theorem completesWithin_fCheck (hp : s.phase = .fCheck) : CompletesWithin (1 + (1 + compositeBudget s)) s := by
  obtain ⟨hb, hsched⟩ := hs.at_place hp nofun
  have hfollows := step_followsSchedule
  have hcheck : BusyRun step 1 (atPlace .fCheck s) (atPlace .fKey s) ∨
      ∃ i t, exec i s = .next t ∧ BusyRun step 1 (atPlace .fCheck s) t := by
    obtain henc | hdec := hsched
    · by_cases hfit : EncryptFits s
      · have hstep := (encryptStep_fCheck s).trans (congrArg _ (encryptCheck_of_fits hfit))
        exact .inl (hfollows.encrypt_single ⟨hb, henc⟩ hstep nofun)
      · exact .inr ⟨.encrypt, hfollows.encrypt_ended ⟨hb, henc⟩ hfit⟩
    · by_cases hfit : DecryptFits s
      · have hstep := (decryptStep_fCheck s).trans (congrArg _ (decryptCheck_of_fits hfit))
        exact .inl (hfollows.decrypt_single ⟨hb, hdec⟩ hstep nofun)
      · exact .inr ⟨.decrypt, hfollows.decrypt_ended ⟨hb, hdec⟩ hfit⟩
  rw [atPlace_self hp] at hcheck
  obtain hrun | ⟨i, t, hexec, hrun⟩ := hcheck
  · exact (completesWithin_fKey (hrun.inv hs) rfl).after hrun
  · obtain ⟨e, u, rfl, -⟩ := exec_wrote hexec
    exact ⟨1, e, u, by omega, hrun⟩

/-- The steps that a wait allows are enough at every place. -/
theorem Inv.completesWithin (hb : busy s = true) : CompletesWithin (stepsEnough s) s := by
  have hwords : dataWords s ≤ s.blen.toNat := by
    rw [dataWords, wordCount]
    omega
  have hengine : engineBudget s + 7 ≤ stepsEnough s := rounds_le_stepsEnough (by omega)
  have hcomposite : compositeBudget s + 5 ≤ stepsEnough s := rounds_le_stepsEnough (by omega)
  cases hp : s.phase with
  | idle =>
    obtain ⟨-, -, hphase, -, -, -⟩ := hs
    exact absurd (hphase.1 hp) (by simp [hb])
  | run => exact (completesWithin_run hs hp).mono (by omega)
  | engine e => exact (completesWithin_engine hs hp).mono (by omega)
  | fCheck => exact (completesWithin_fCheck hs hp).mono (by omega)
  | fKey => exact (completesWithin_fKey hs hp).mono (by omega)
  | fPack => exact (completesWithin_fPack hs hp).mono (by omega)
  | fEngine e => exact (completesWithin_fEngine hs hp).mono (by omega)
  | fUnpack => exact (completesWithin_fUnpack hs hp).mono (by omega)

end

/-! ## Waiting (45_host_access.md R249) -/

theorem runUntilIdle_of_busyRun {m : Nat} {s t : State} (h : BusyRun step m s t) (ht : busy t = false) {n : Nat}
    (hn : m ≤ n) : runUntilIdle n s = .next t := by
  induction h generalizing n with
  | refl => exact runUntilIdle_of_idle ht n
  | head hb hf _ ih =>
    obtain ⟨n, rfl⟩ := Nat.exists_eq_add_of_lt hn
    rw [runUntilIdle, if_pos hb, hf, andThen_next]
    exact ih ht (Nat.le_add_right _ n)

theorem wait_of_runUntilIdle {s t : State} (h : runUntilIdle (stepsEnough s) s = .next t) :
    Machine.wait s = .next (t, readStatus t) := by
  rw [Machine.wait, h, andThen_next]

theorem wait_of_idle {s : State} (hb : busy s = false) : Machine.wait s = .next (s, readStatus s) :=
  wait_of_runUntilIdle (runUntilIdle_of_idle hb _)

/-- Settles O55: from every busy place the core completes within the steps that a wait allows. -/
theorem waitEnds : Obligations.WaitEnds := by
  intro s hs
  cases hb : busy s with
  | false => exact ⟨s, wait_of_idle hb, hb, hs, nofun, fun _ => rfl, fun _ => step_of_idle hb⟩
  | true =>
    obtain ⟨m, e, u, hm, hrun⟩ := hs.completesWithin hb
    have hwait := wait_of_runUntilIdle (runUntilIdle_of_busyRun hrun (busy_complete e u) hm)
    refine ⟨complete e u, hwait, busy_complete e u, hrun.inv hs, fun _ => done_complete e u, nofun, fun hp => ?_⟩
    obtain ⟨e', u', hstep⟩ := step_of_run_completes hb hp
    have hone := wait_of_completing_step hb hstep
    rw [hwait] at hone
    injection hone with hone
    injection hone with hend
    rw [hstep, hend]

/-! ## Every answered host access -/

theorem writeReg_eq_next {n : Nat} {w : Word} {s t : State} (h : writeReg n w s = .next t) :
    busy s = false ∧ ∃ r, t = storeReg r w s := by
  cases hb : busy s with
  | true =>
    obtain ⟨e, he⟩ := writeReg_refused_of_busy n w hb
    rw [he] at h
    cases h
  | false =>
    cases hr : regOfNumber n with
    | none =>
      rw [writeReg_of_reserved hr] at h
      cases h
    | some r =>
      rw [writeReg_of_idle hr hb] at h
      cases h
      exact ⟨rfl, r, rfl⟩

theorem DataLegal.setKbuf {s : State} (h : DataLegal s) {i : Nat} (b : Byte) (hi : i < 16) :
    DataLegal (setKbuf i b s) := by
  obtain ⟨hcap, hcount, hbw, hbb, hvw, hvb, hkw, hkb⟩ := h
  exact ⟨hcap, hcount, hbw, hbb, hvw, hvb, wf_store _ _ _ hkw, below_store _ _ _ _ hkb hi⟩

theorem DataLegal.storeByte {s : State} (h : DataLegal s) (sp : ByteSpace) {i : Nat} (b : Byte)
    (hi : i < spaceCells sp s) : DataLegal (storeByte sp i b s) := by
  cases sp with
  | buf => exact h.setBuf b hi
  | kbuf => exact h.setKbuf b hi

/-- An issue leaves a legal state (30_encoding.md R91). -/
theorem inv_issue {s : State} (w : Word) (h : DataLegal s) : Inv (issue w s) := by
  obtain ⟨hcap, hcount, hmem⟩ := h
  have hstatus : StatusLegal (issue w s) := by
    unfold StatusLegal busy done errField
    rw [issue_status]
    decide
  exact ⟨hcap, hstatus, by simp [PhaseLegal], hcount, hmem, trivial⟩

/-- An idle block stays legal under a write of data: no schedule speaks of it. -/
theorem inv_of_idle_write {s t : State} (hs : Inv s) (hb : busy s = false) (hst : t.status = s.status)
    (hph : t.phase = s.phase) (hd : DataLegal t) : Inv t := by
  obtain ⟨-, hstatus, hphase, -, -, -⟩ := hs
  obtain ⟨hcap, hcount, hmem⟩ := hd
  have hidle : t.phase = .idle := hph.trans (hphase.2 hb)
  refine ⟨hcap, ?_, iff_of_true hidle ((busy_congr hst).trans hb), hcount, hmem, ?_⟩
  · unfold StatusLegal busy done errField at *
    rwa [hst]
  · rw [ScheduleLegal, hidle]
    trivial

/-- No register that a host write sets, `CMD` apart, is in `DataLegal`. -/
theorem inv_storeReg {s : State} (hs : Inv s) (hb : busy s = false) (r : Reg) (w : Word) : Inv (storeReg r w s) := by
  cases r with
  | cmd => exact inv_issue w hs.data
  | status | cap | sum | rnd | pos => exact hs
  | blen | wlen | klen | key j => exact inv_of_idle_write hs hb rfl rfl hs.data

/-- Settles O5: reads change no state, writes happen while idle, and a wait ends in a legal state. -/
theorem hostAccessKeepsLegalStates : Obligations.HostAccessKeepsLegalStates := by
  intro s a r hs h
  cases a with
  | readReg n | readByte sp i | readWord i =>
    obtain ⟨_, -, h⟩ := andThen_eq_next h
    cases h
    exact hs
  | writeReg n w =>
    obtain ⟨t, hwrite, h⟩ := andThen_eq_next h
    cases h
    obtain ⟨hb, reg, rfl⟩ := writeReg_eq_next hwrite
    exact inv_storeReg hs hb reg w
  | writeByte sp i b =>
    obtain ⟨t, hwrite, h⟩ := andThen_eq_next h
    cases h
    obtain ⟨hb, hi, rfl⟩ := guarded_eq_next hwrite
    exact inv_of_idle_write hs hb (by cases sp <;> rfl) (by cases sp <;> rfl) (hs.data.storeByte sp b hi)
  | writeWord i w =>
    obtain ⟨t, hwrite, h⟩ := andThen_eq_next h
    cases h
    obtain ⟨hb, hi, rfl⟩ := guarded_eq_next hwrite
    exact inv_of_idle_write hs hb rfl rfl (hs.data.setV w hi)
  | wait =>
    obtain ⟨t, hwait, -, ht, -⟩ := waitEnds s hs
    obtain ⟨q, hq, h⟩ := andThen_eq_next h
    cases h
    rw [hwait] at hq
    cases hq
    exact ht

end Sys2Proof.Machine

namespace Sys2Proof.Machine

/-! ## How a command can end (60_exceptions.md R260, R266, R267, R271)

Two tests, on `WLEN` and on the capacity, are shared by several commands and end one before it writes anything; what
else can go wrong belongs to `UNPACKL` and `DECRYPT`. -/

/-- The data of the command `i` exceed the capacity, in the words of the table of R266. -/
def ExceedsCapacity (i : Instr) (s : State) : Prop :=
  match i with
  | .nop | .keyld => False
  | .pack => s.cap.toNat < dataWords s
  | .packl => s.cap.toNat < dataWords s + 1
  | .unpack | .unpackl | .encw | .decw => s.cap.toNat < s.wlen.toNat
  | .encrypt => s.blen ≠ 0 ∧ s.cap.toNat < dataWords s + 1
  | .decrypt => s.blen ≠ 0 ∧ s.blen.toNat % 4 = 0 ∧ s.cap.toNat < s.blen.toNat / 4

/-- The command `i` works on a word array that may not be empty, and it is empty (R267). -/
def LacksWords (i : Instr) (s : State) : Prop := (i = .encw ∨ i = .decw ∨ i = .unpackl) ∧ s.wlen.toNat = 0

theorem exec_of_exceedsCapacity {i : Instr} {s : State} (h : ExceedsCapacity i s) :
    exec i s = .next (complete .capacity s) := by
  have hpos (hcap : s.cap.toNat < s.wlen.toNat) : 1 ≤ s.wlen.toNat := by omega
  cases i with
  | nop | keyld => exact h.elim
  | pack => exact exec_pack_of_exceeds h
  | packl => exact exec_packl_of_exceeds h
  | unpack => exact exec_unpack_of_exceeds h
  | unpackl => exact exec_unpackl_of_exceeds (hpos h) h
  | encw => exact exec_encw_of_exceeds (hpos h) h
  | decw => exact exec_decw_of_exceeds (hpos h) h
  | encrypt =>
    obtain ⟨hne, hcap⟩ := h
    exact exec_encrypt_of_exceeds (blen_toNat_ne_zero hne) hcap
  | decrypt =>
    obtain ⟨hne, hmod, hcap⟩ := h
    exact exec_decrypt_of_exceeds (blen_toNat_ne_zero hne) hmod hcap

theorem exec_of_lacksWords {i : Instr} {s : State} (h : LacksWords i s) : exec i s = .next (complete .zerolen s) := by
  obtain ⟨rfl | rfl | rfl, hempty⟩ := h
  · exact exec_encw_of_empty hempty
  · exact exec_decw_of_empty hempty
  · exact exec_unpackl_of_empty hempty

/-- The command `i` from `s` ends in the error `e`, which completes the state `u`. Only `CORRUPT` out of `DECRYPT` has
another `u` than `s` (R271). -/
inductive Fails : Instr → State → ErrCode → State → Prop
  | capacity {i : Instr} {s : State} (h : ExceedsCapacity i s) : Fails i s .capacity s
  | zerolen {i : Instr} {s : State} (h : LacksWords i s) : Fails i s .zerolen s
  | shape {s : State} (hne : s.blen ≠ 0) (h : s.blen.toNat % 4 ≠ 0) : Fails .decrypt s .shape s
  | corruptArray {s : State} (hfit : ArrayFits s)
      (h : ¬ lengthAccepted (bytesBeforeLength s) (embeddedLength s) = true) : Fails .unpackl s .corrupt s
  | corruptDecryption {s : State} (hfit : DecryptFits s)
      (h : ¬ lengthAccepted (bytesBeforeLength (decryptedArray s)) (embeddedLength (decryptedArray s)) = true) :
      Fails .decrypt s .corrupt (decryptedArray s)

/-- The outcome `r` of `i` from `s` is a completion, with `OK` or with an error that `i` has there. -/
def Ends (i : Instr) (s : State) (r : Host.Outcome State Fault Refusal) : Prop :=
  ∃ e u, r = .next (complete e u) ∧ (e = .ok ∨ Fails i s e u)

theorem Ends.of_ok {i : Instr} {s u : State} {r : Host.Outcome State Fault Refusal} (h : r = .next (complete .ok u)) :
    Ends i s r := ⟨.ok, u, h, .inl rfl⟩

theorem Ends.of_fails {i : Instr} {s u : State} {e : ErrCode} {r : Host.Outcome State Fault Refusal}
    (h : r = .next (complete e u)) (hfail : Fails i s e u) : Ends i s r := ⟨e, u, h, .inr hfail⟩

theorem ends_unpackl {s : State} (hfit : ArrayFits s) : Ends .unpackl s (exec .unpackl s) := by
  by_cases h : lengthAccepted (bytesBeforeLength s) (embeddedLength s) = true
  · exact .of_ok (exec_unpackl_of_accepted hfit h)
  · exact .of_fails (exec_unpackl_of_rejected hfit h) (.corruptArray hfit h)

theorem ends_decrypt {s : State} (hfit : DecryptFits s) : Ends .decrypt s (exec .decrypt s) := by
  by_cases h : lengthAccepted (bytesBeforeLength (decryptedArray s)) (embeddedLength (decryptedArray s)) = true
  · exact .of_ok ((exec_decrypt_of_fits hfit).trans (congrArg _ (unpacklFinish_of_accepted h)))
  · exact .of_fails ((exec_decrypt_of_fits hfit).trans (congrArg _ (unpacklFinish_of_rejected h)))
      (.corruptDecryption hfit h)

/-- Behind the two shared tests only `UNPACKL` and `DECRYPT` can still fail. -/
theorem exec_ends (i : Instr) (s : State) : Ends i s (exec i s) := by
  by_cases hcap : ExceedsCapacity i s
  · exact .of_fails (exec_of_exceedsCapacity hcap) (.capacity hcap)
  by_cases hzero : LacksWords i s
  · exact .of_fails (exec_of_lacksWords hzero) (.zerolen hzero)
  have hfits (hle : ¬ s.cap.toNat < s.wlen.toNat) (hi : i = .encw ∨ i = .decw ∨ i = .unpackl) : ArrayFits s :=
    ⟨Nat.pos_of_ne_zero fun h => hzero ⟨hi, h⟩, not_lt.1 hle⟩
  cases i with
  | nop => exact .of_ok rfl
  | keyld => exact .of_ok rfl
  | pack => exact .of_ok (exec_pack_of_fits (not_lt.1 hcap))
  | packl => exact .of_ok (exec_packl_of_fits (not_lt.1 hcap))
  | unpack => exact .of_ok (exec_unpack_of_fits (not_lt.1 hcap))
  | unpackl => exact ends_unpackl (hfits hcap (by simp))
  | encw => exact .of_ok (execEncw_of_fits (hfits hcap (by simp)))
  | decw => exact .of_ok (execDecw_of_fits (hfits hcap (by simp)))
  | encrypt =>
    by_cases hempty : s.blen = 0
    · exact .of_ok (exec_encrypt_of_empty (blen_toNat_eq_zero hempty))
    · exact .of_ok (exec_encrypt_of_fits
        ⟨Nat.pos_of_ne_zero (blen_toNat_ne_zero hempty), not_lt.1 fun h => hcap ⟨hempty, h⟩⟩)
  | decrypt =>
    by_cases hempty : s.blen = 0
    · exact .of_ok (exec_decrypt_of_empty (blen_toNat_eq_zero hempty))
    by_cases hmod : s.blen.toNat % 4 = 0
    · exact ends_decrypt
        ⟨Nat.pos_of_ne_zero (blen_toNat_ne_zero hempty), hmod, not_lt.1 fun h => hcap ⟨hempty, hmod, h⟩⟩
    · exact .of_fails (exec_decrypt_of_misshapen (blen_toNat_ne_zero hempty) hmod) (.shape hempty hmod)

/-- A next state with another code than `OK` is the completion of an error. -/
theorem exec_fails {i : Instr} {s t : State} (h : exec i s = .next t) (hcode : t.status ≠ completedStatus .ok) :
    ∃ e u, t = complete e u ∧ Fails i s e u := by
  obtain ⟨e, u, hexec, hend⟩ := exec_ends i s
  obtain rfl := exec_next_unique h hexec
  exact ⟨e, u, rfl, hend.resolve_left fun he => hcode (congrArg completedStatus he)⟩

/-- The code in `STATUS` tells which error it was. -/
theorem exec_fails_of_status {i : Instr} {s t : State} {e : ErrCode} (h : exec i s = .next t)
    (hcode : t.status = completedStatus e) (he : e ≠ .ok) : ∃ u, t = complete e u ∧ Fails i s e u := by
  obtain ⟨f, u, rfl, hfail⟩ := exec_fails h (hcode ▸ fun heq => he (completedStatus_injective heq))
  obtain rfl := completedStatus_injective hcode
  exact ⟨u, rfl, hfail⟩

/-! ## The statements over all commands -/

theorem exceedsCapacity_iff_exec (i : Instr) (s : State) :
    ExceedsCapacity i s ↔ exec i s = .next (complete .capacity s) := by
  refine ⟨exec_of_exceedsCapacity, fun h => ?_⟩
  obtain ⟨u, -, hfail⟩ := exec_fails_of_status h rfl (by decide)
  cases hfail with
  | capacity hcap => exact hcap

/-- Settles O45: the five lines of R266's table are `ExceedsCapacity`, command by command. -/
theorem capacityRaisedBeforeAnyWrite : Obligations.CapacityRaisedBeforeAnyWrite := by
  intro s i
  refine Iff.trans ?_ (exceedsCapacity_iff_exec i s)
  cases i <;> simp [ExceedsCapacity, dataWords, wordCount]

/-- Settles O46: the empty array is the first test of its three commands, and the only way to this code. -/
theorem zerolenRaisedBeforeAnyWrite : Obligations.ZerolenRaisedBeforeAnyWrite := by
  refine fun s i => ⟨fun ⟨hi, hempty⟩ => exec_of_lacksWords ⟨hi, congrArg BitVec.toNat hempty⟩, fun t h hcode => ?_⟩
  obtain ⟨u, -, hfail⟩ := exec_fails_of_status (e := .zerolen) h hcode (by decide)
  cases hfail with
  | zerolen hlacks =>
    obtain ⟨hi, hempty⟩ := hlacks
    exact ⟨hi, BitVec.eq_of_toNat_eq hempty⟩

/-- Settles O47: every end is a completion, and each error names the commands that have it. -/
theorem everyCommandCompletes : Obligations.EveryCommandCompletes := by
  intro s i
  obtain ⟨e, u, hexec, hend⟩ := exec_ends i s
  refine ⟨_, hexec, rfl, busy_complete e u, done_complete e u, ?_⟩
  rw [complete_status]
  obtain rfl | hfail := hend
  · cases i <;> decide
  cases hfail with
  | capacity h =>
    cases i with
    | nop | keyld => exact h.elim
    | pack | packl | unpack | unpackl | encw | decw | encrypt | decrypt => decide
  | zerolen h => obtain ⟨rfl | rfl | rfl, -⟩ := h <;> decide
  | shape => decide
  | corruptArray => decide
  | corruptDecryption => decide

/-- `DECRYPT` reaches its last body with the byte side as at issue. -/
theorem decryptedArray_keepsBytes (s : State) :
    (decryptedArray s).buf = s.buf ∧ (decryptedArray s).blen = s.blen ∧
      (decryptedArray s).kbuf = s.kbuf ∧ (decryptedArray s).klen = s.klen := by
  have h : EngineWrote (packBody (keyBody s)) (decryptedArray s) := decBody_wrote _
  rw [h, packBody_keyBody_frame]
  exact ⟨rfl, rfl, rfl, rfl⟩

/-- Settles O48: an error completes the state at issue, but for the one out of `DECRYPT`'s bodies. -/
theorem errorsLeaveDataState : Obligations.ErrorsLeaveDataState := by
  refine ⟨fun s hb hp hill => ?_, fun s t i h hcode => ?_⟩
  · rw [step_of_run hb hp, runIssued_of_illegal hill, complete, completedStatus_illcmd]
  obtain ⟨e, u, rfl, hfail⟩ := exec_fails h hcode
  constructor
  · intro hother
    cases hfail with
    | capacity | zerolen | shape | corruptArray => rfl
    | corruptDecryption => exact absurd ⟨rfl, rfl⟩ hother
  · rintro ⟨rfl, hcorrupt⟩
    obtain rfl : e = .corrupt := completedStatus_injective hcorrupt
    cases hfail with
    | corruptDecryption hfit =>
      obtain ⟨hpack, hdecw, -⟩ := hfit.exec_chain
      exact ⟨_, _, _, rfl, hpack, hdecw, rfl, decryptedArray_keepsBytes s⟩

end Sys2Proof.Machine
